-- ==== Sys2Proof/Word.lean ====
section
/-! DEFINITION. The machine's word types: bytes, register words, command words, register numbers. -/

namespace Sys2Proof

/-- One cell of the message buffer (10_state.md R23). -/
abbrev Byte := BitVec 8

/-- The pattern a general register holds (10_state.md R12). -/
abbrev Word := BitVec 32

/-- A command word: a number of 64 bits, never bytes in memory (30_encoding.md R41). -/
abbrev CommandWord := BitVec 64

/-- A register number, `x0` to `x15` (10_state.md R12). -/
abbrev Reg := Fin 16

end Sys2Proof
end

