-- ==== Sys2Proof/Config.lean ====
section
/-! DEFINITION. The configuration record: the constants the source fixes (00_scope.md R4) and the OPEN
parameters (R5). The checks `wfCfg` and `wfTable` stand in Machine/CfgCheck.lean. -/

namespace Sys2Proof

namespace Config

/-! ### Constants (00_scope.md R4 and R7), UNVERIFIED against a device (log 12) -/

/-- `FRAME_START`, the first byte of every message. -/
def frameStart : Byte := 0xF0
/-- `FRAME_END`, the last byte of every message. -/
def frameEnd : Byte := 0xF7
/-- `MANUF`, byte 1. -/
def manuf1 : Byte := 0x00
/-- `MANUF`, byte 2. -/
def manuf2 : Byte := 0x20
/-- `MANUF`, byte 3. -/
def manuf3 : Byte := 0x1F
/-- `PRODUCT`, byte 5. -/
def product : Byte := 0x63
/-- `MSG_CLASS_DUMP`, byte 6. -/
def msgClassDump : Byte := 0x20
/-- `SUBTYPE_PRESET`, byte 7 of a preset message. -/
def subtypePreset : Byte := 0x01
/-- `SUBTYPE_SYSTEM`, byte 7 of a system dump. -/
def subtypeSystem : Byte := 0x02
/-- `PRESET_LEN`. -/
def presetLen : Nat := 520
/-- `PRESET_LEN_LEGACY`, accepted and trimmed to 520. -/
def presetLenLegacy : Nat := 521
/-- `SYS_LEN`. -/
def sysLen : Nat := 527
/-- `SYS_LEN_SHORT`. -/
def sysLenShort : Nat := 526
/-- `NUM_OFF`, the preset number byte. -/
def numOff : Nat := 8
/-- `NAME_OFF`. -/
def nameOff : Nat := 10
/-- `NAME_WIDTH`. -/
def nameWidth : Nat := 24
/-- `PARAM_BASE`, the first parameter byte. -/
def paramBase : Nat := 34
/-- `PARAM_LAST`, the last byte a parameter field may occupy. -/
def paramLast : Nat := 517
/-- `PRESET_CSUM_LO`. -/
def presetCsumLo : Nat := 8
/-- `PRESET_CSUM_HI`. -/
def presetCsumHi : Nat := 516
/-- `PRESET_CSUM_POS`. -/
def presetCsumPos : Nat := 518
/-- `SO_THRESHOLD`, kept as the literal (93_implementation_defined.md U1). -/
def soThreshold : Nat := 16000000
/-- `SO_BIAS` = 2^24. -/
def soBias : Nat := 16777216
/-- The largest 28-bit value, 2^28 - 1 (40_varint.md R49). -/
def max28 : Nat := 268435455
/-- `CC_BASE`. -/
def ccBase : Nat := 34
/-- `CC_COUNT`. -/
def ccCount : Nat := 64
/-- `CC_UNASSIGNED`. -/
def ccUnassigned : Byte := 0xFF
/-- `PMAP_IN_COUNT`. -/
def pmapInCount : Nat := 127
/-- `PMAP_OUT_COUNT`. -/
def pmapOutCount : Nat := 60
/-- The group count of the incoming map (43_system.md R93). -/
def pmapInGroups : Nat := 43
/-- The group count of the outgoing map (43_system.md R93). -/
def pmapOutGroups : Nat := 20
/-- `PRESET_MIN`. -/
def presetMin : Nat := 31
/-- `PRESET_MAX`. -/
def presetMax : Nat := 90
/-- `PCT_MAX`. -/
def pctMax : Nat := 100
/-- `BUF_SIZE` (R7). -/
def bufSize : Nat := 528

end Config

/-- How a field's 28-bit raw value is read (42_preset.md R67). -/
inductive Enc where
  /-- `dec28` alone. -/
  | plain
  /-- A signed-offset field, `decSO`. -/
  | signed
  deriving DecidableEq, Repr

/-- The condition a decoded value must meet (42_preset.md R67). -/
inductive Cond where
  | range (lo hi : Int)
  | equal (k : Int)
  deriving DecidableEq, Repr

/-- `Variant` of 42_preset.md R67. -/
structure Variant where
  enc  : Enc
  cond : Cond
  deriving DecidableEq, Repr

/-- One case of a field entry: `sel`, a finite set of integers (a list read by membership, log 20), and its variant
(42_preset.md R67). -/
structure Case where
  sel : List Int
  var : Variant
  deriving DecidableEq, Repr

/-- `disc` and `cases` of a field entry together: an entry with `disc = NONE` has no cases, so `none` carries
none (42_preset.md R67). -/
inductive Disc where
  /-- `disc = NONE`. -/
  | none
  /-- Governed by the entry of index `j`. -/
  | by (j : Nat) (cases : List Case)
  deriving DecidableEq, Repr

/-- `FieldEntry` of 42_preset.md R67. `name` is documentation only; no rule reads it. -/
structure FieldEntry where
  name : String
  off  : Nat
  dflt : Variant
  disc : Disc
  deriving DecidableEq, Repr

/-- `PMAP_LANE_ORDER` (00_scope.md R5). -/
inductive LaneOrder where
  | lowFirst
  | highFirst
  deriving DecidableEq, Repr

/-- `CFG`: the OPEN parameters of 00_scope.md R5. No command and no host action changes it (R10). -/
structure Cfg where
  /-- `FIELD_TABLE` -/
  fieldTable   : List FieldEntry
  /-- `CC_STRIDE` -/
  ccStride     : Nat
  /-- `PMAP_IN_BASE` -/
  pmapInBase   : Nat
  /-- `PMAP_OUT_BASE` -/
  pmapOutBase  : Nat
  /-- `PMAP_LANE_ORDER` -/
  laneOrder    : LaneOrder
  /-- `PMAP_UNMAPPED` -/
  pmapUnmapped : Nat
  /-- `PEDAL_OFF[0..3]`: parameter id, min, mid, max -/
  pedalOff     : Vector Nat 4
  /-- `SYS_CSUM_LO` -/
  sysCsumLo    : Nat
  /-- `SYS_CSUM_HI` -/
  sysCsumHi    : Nat
  /-- `SYS_CSUM_POS` -/
  sysCsumPos   : Nat
  deriving DecidableEq, Repr

/-- `NF`, the number of entries of `FIELD_TABLE` (10_state.md R20). -/
def Cfg.nf (c : Cfg) : Nat := c.fieldTable.length

/-- The field table of the test configuration (95_test_vectors.md section 1). -/
def tc1Table : List FieldEntry :=
  [ ⟨"tapTempo", 34, ⟨.plain, .range 100 3000⟩, .none⟩,
    ⟨"level", 38, ⟨.signed, .range (-100) 0⟩, .none⟩,
    ⟨"balance", 42, ⟨.signed, .range (-50) 50⟩, .none⟩,
    ⟨"modType", 46, ⟨.plain, .range 0 5⟩, .none⟩,
    ⟨"modDelayOrRange", 50, ⟨.plain, .range 0 500⟩,
      .by 3 [ ⟨[0, 1], ⟨.plain, .range 0 500⟩⟩,
              ⟨[3, 4], ⟨.plain, .range 0 1⟩⟩,
              ⟨[2, 5], ⟨.plain, .equal 0⟩⟩ ]⟩ ]

/-- TC1, the default column of 00_scope.md R5. DESIGN CHOICE (log 2): the configuration `State.reset` carries; no
fact about a device. -/
def Cfg.tc1 : Cfg where
  fieldTable   := tc1Table
  ccStride     := 2
  pmapInBase   := 162
  pmapOutBase  := 334
  laneOrder    := .lowFirst
  pmapUnmapped := 0
  pedalOff     := #v[414, 418, 422, 426]
  sysCsumLo    := 8
  sysCsumHi    := 522
  sysCsumPos   := 524

end Sys2Proof
end

