-- ==== Sys2Proof/Machine/CfgCheck.lean ====
section
/-! DEFINITION. The checks a configuration must pass: `wfTable` (42_preset.md R69) and `wfCfg` (00_scope.md R6). -/

namespace Sys2Proof.Machine

/-! ### `wfTable` (42_preset.md R69) -/

/-- The declared range of a variant (42_preset.md R67). -/
def declaredRange (v : Variant) : Int × Int :=
  match v.cond with
  | .range lo hi => (lo, hi)
  | .equal k => (k, k)

/-- An integer of 32 bits signed, R69 (f). -/
def isInt32 (v : Int) : Bool := -2147483648 ≤ v && v ≤ 2147483647

/-- R69 (d), (e), (f) for one variant. -/
def wfVariant (v : Variant) : Bool :=
  (declaredRange v).1 ≤ (declaredRange v).2
  && (v.enc == .plain || (-777215 ≤ (declaredRange v).1 && (declaredRange v).2 ≤ 251658239))
  && isInt32 (declaredRange v).1 && isInt32 (declaredRange v).2

/-- R69 (d), (e), (f) for one case. -/
def wfCase (c : Case) : Bool := c.sel.all isInt32 && wfVariant c.var

/-- R69 (c) to (f) for what governs the entry of index `i`. -/
def wfDisc (i : Nat) : Disc → Bool
  | .none => true
  | .by j cases => j < i && cases.all wfCase

/-- R69 (b) to (f) for the entry of index `i`. -/
def wfEntry (i : Nat) (e : FieldEntry) : Bool :=
  Config.paramBase ≤ e.off && e.off + 3 ≤ Config.paramLast && wfVariant e.dflt && wfDisc i e.disc

/-- R69 (b) to (f) for the entries from index `i` on. -/
def wfEntries : Nat → List FieldEntry → Bool
  | _, [] => true
  | i, e :: es => wfEntry i e && wfEntries (i + 1) es

/-- `wfTable` (42_preset.md R69). -/
def wfTable (t : List FieldEntry) : Bool := t.length ≤ 255 && wfEntries 0 t

/-! ### `wfCfg` (00_scope.md R6) -/

/-- A region of `BUF`, both ends included. -/
structure Region where
  lo : Nat
  hi : Nat
  deriving DecidableEq, Repr

/-- Two regions without a common address. -/
def disjointRegions (r q : Region) : Bool := r.hi < q.lo || q.hi < r.lo

/-- Every pair of a list is disjoint, R6 (b). -/
def pairwiseDisjoint : List Region → Bool
  | [] => true
  | r :: rs => rs.all (disjointRegions r) && pairwiseDisjoint rs

/-- Inside `[8, 524]`, R6 (a). -/
def insideDump (r : Region) : Bool := 8 ≤ r.lo && r.hi ≤ 524

/-- The regions of R6 (a): CC table, incoming map, outgoing map, the four pedal fields, the checksum byte. R6 counts
five regions, the four pedal fields together as one of them, and leaves open whether two pedal fields may overlap each
other. DESIGN CHOICE (log 22): each pedal field is a region of its own, so `wfCfg` refuses a configuration in which two
of them overlap. -/
def cfgRegions (c : Cfg) : List Region :=
  [ ⟨Config.ccBase, Config.ccBase + c.ccStride * 63 + 1⟩,
    ⟨c.pmapInBase, c.pmapInBase + 4 * Config.pmapInGroups - 1⟩,
    ⟨c.pmapOutBase, c.pmapOutBase + 4 * Config.pmapOutGroups - 1⟩,
    ⟨c.pedalOff[0], c.pedalOff[0] + 3⟩,
    ⟨c.pedalOff[1], c.pedalOff[1] + 3⟩,
    ⟨c.pedalOff[2], c.pedalOff[2] + 3⟩,
    ⟨c.pedalOff[3], c.pedalOff[3] + 3⟩,
    ⟨c.sysCsumPos, c.sysCsumPos⟩ ]

/-- R6 (c): the window is in order and does not hold the checksum byte. -/
def wfWindow (c : Cfg) : Bool :=
  8 ≤ c.sysCsumLo && c.sysCsumLo ≤ c.sysCsumHi && c.sysCsumHi ≤ 524
  && (c.sysCsumPos < c.sysCsumLo || c.sysCsumHi < c.sysCsumPos)

/-- R6 (d): the sentinel is a 7-bit value outside the preset numbers. -/
def wfUnmapped (c : Cfg) : Bool :=
  c.pmapUnmapped ≤ 127 && (c.pmapUnmapped < Config.presetMin || Config.presetMax < c.pmapUnmapped)

/-- `wfCfg` (00_scope.md R6), conditions (a) to (f). -/
def wfCfg (c : Cfg) : Bool :=
  (cfgRegions c).all insideDump && pairwiseDisjoint (cfgRegions c) && wfWindow c && wfUnmapped c
  && 2 ≤ c.ccStride && wfTable c.fieldTable

end Sys2Proof.Machine
end

