-- ==== Sys2Proof/Syntax.lean ====
section
/-! DEFINITION. The instruction syntax: one constructor per row of spec/opcode_table.json (30_encoding.md R43), in
the table's order, with the operands the row's sub-format gives it (R42). -/

namespace Sys2Proof

/-- The 32 commands of 30_encoding.md R43. Registers are `Fin 16`; an immediate has its field's width. -/
inductive Instr where
  /-- `NOP` (44_housekeeping.md R101) -/
  | nop
  /-- `LDI ra, imm32` (R102) -/
  | ldi (ra : Reg) (imm32 : BitVec 32)
  /-- `LDB ra, off` (R103) -/
  | ldb (ra : Reg) (off : BitVec 10)
  /-- `STB ra, off` (R104) -/
  | stb (ra : Reg) (off : BitVec 10)
  /-- `RDCR ra, crn` (R105) -/
  | rdcr (ra : Reg) (crn : BitVec 3)
  /-- `WRCR LEN, ra` (R106) -/
  | wrcr (ra : Reg)
  /-- `SRST` (R107) -/
  | srst
  /-- `DEC28 ra, off` (40_varint.md R54) -/
  | dec28 (ra : Reg) (off : BitVec 10)
  /-- `ENC28 ra, off` (R55) -/
  | enc28 (ra : Reg) (off : BitVec 10)
  /-- `DECSO ra, rb, rc, off` (R56) -/
  | decso (ra rb rc : Reg) (off : BitVec 10)
  /-- `ENCSO ra, off` (R57) -/
  | encso (ra : Reg) (off : BitVec 10)
  /-- `CSUM ra, lo, hi` (41_checksum.md R61) -/
  | csum (ra : Reg) (lo hi : BitVec 10)
  /-- `CSVP ra` (R62) -/
  | csvp (ra : Reg)
  /-- `CSVS ra` (R63) -/
  | csvs (ra : Reg)
  /-- `CSFP` (R64) -/
  | csfp
  /-- `CSFS` (R65) -/
  | csfs
  /-- `PDEC` (42_preset.md R75) -/
  | pdec
  /-- `PENC ra` (R76) -/
  | penc (ra : Reg)
  /-- `PFLD ra, fid` (R77) -/
  | pfld (ra : Reg) (fid : BitVec 8)
  /-- `RDVL ra, n, w` (R78) -/
  | rdvl (ra : Reg) (n : BitVec 8) (w : BitVec 3)
  /-- `SDEC` (43_system.md R82) -/
  | sdec
  /-- `SENC ra` (R83) -/
  | senc (ra : Reg)
  /-- `CCGET ra, rb, rc` (R86) -/
  | ccget (ra rb rc : Reg)
  /-- `CCSET ra, rb, rc` (R87) -/
  | ccset (ra rb rc : Reg)
  /-- `UNPK3 ra, rb, rc, off` (R92) -/
  | unpk3 (ra rb rc : Reg) (off : BitVec 10)
  /-- `PK3 ra, rb, rc, off` (R91) -/
  | pk3 (ra rb rc : Reg) (off : BitVec 10)
  /-- `PMIGET ra, rb` (R94) -/
  | pmiget (ra rb : Reg)
  /-- `PMISET ra, rb` (R95) -/
  | pmiset (ra rb : Reg)
  /-- `PMOGET ra, rb` (R96) -/
  | pmoget (ra rb : Reg)
  /-- `PMOSET ra, rb` (R97) -/
  | pmoset (ra rb : Reg)
  /-- `PEDGET ra, k` (R99) -/
  | pedget (ra : Reg) (k : BitVec 2)
  /-- `PEDSET ra, k` (R100) -/
  | pedset (ra : Reg) (k : BitVec 2)
  deriving DecidableEq, Repr

end Sys2Proof
end

