-- ==== Sys2Proof/WellFormed.lean ====
section
/-! DEFINITION. The extra constraints of the opcode table that a command's operands must meet (30_encoding.md R43,
R44 d). A term that fails one is the operand reading of an `ILLEGAL` word. -/

namespace Sys2Proof

/-- `RDCR` names a control register 0..6: number 7 is reserved. -/
def wfControlRegister (crn : BitVec 3) : Bool := crn.toNat != 7

/-- `RDVL` names a word 0..4 of a violation record. -/
def wfRecordWord (w : BitVec 3) : Bool := w.toNat ≤ 4

/-- `CCGET` has two different destinations. -/
def wfTwoDestinations (ra rb : Reg) : Bool := ra != rb

/-- `UNPK3` has three pairwise different destinations. -/
def wfThreeDestinations (ra rb rc : Reg) : Bool := ra != rb && ra != rc && rb != rc

/-- The extra constraint of an instruction's row, the last column but one of 30_encoding.md R43. -/
def Instr.wf : Instr → Bool
  | .nop | .ldi _ _ | .ldb _ _ | .stb _ _ | .wrcr _ | .srst => true
  | .rdcr _ crn => wfControlRegister crn
  | .dec28 _ _ | .enc28 _ _ | .decso _ _ _ _ | .encso _ _ => true
  | .csum _ _ _ | .csvp _ | .csvs _ | .csfp | .csfs => true
  | .pdec | .penc _ | .pfld _ _ => true
  | .rdvl _ _ w => wfRecordWord w
  | .sdec | .senc _ => true
  | .ccget ra rb _ => wfTwoDestinations ra rb
  | .ccset _ _ _ => true
  | .unpk3 ra rb rc _ => wfThreeDestinations ra rb rc
  | .pk3 _ _ _ _ => true
  | .pmiget _ _ | .pmiset _ _ | .pmoget _ _ | .pmoset _ _ => true
  | .pedget _ _ | .pedset _ _ => true

end Sys2Proof
end

