-- ==== Sys2Proof/Decode.lean ====
section
/-! DEFINITION. Decoding a command word (30_encoding.md R41 to R46), total on all 64-bit words and refusing by
name, and after it the encoder. -/

namespace Sys2Proof

/-! ### The fields of a command word (30_encoding.md R41, R42) -/

/-- Bits `lo + n - 1 .. lo` of a command word. -/
def wordField (w : CommandWord) (lo n : Nat) : BitVec n := w.extractLsb' lo n

/-- `op`, bits 63:56. -/
def fieldOp (w : CommandWord) : BitVec 8 := wordField w 56 8

/-- A 4-bit register field as a register number. -/
def regOfField (f : BitVec 4) : Reg := f.toFin

/-- `ra`, bits 55:52. -/
def fieldRa (w : CommandWord) : Reg := regOfField (wordField w 52 4)

/-- `rb`, bits 51:48. -/
def fieldRb (w : CommandWord) : Reg := regOfField (wordField w 48 4)

/-- `rc`, bits 47:44. -/
def fieldRc (w : CommandWord) : Reg := regOfField (wordField w 44 4)

/-- `imm32 = imm[31:0]`. -/
def fieldImm32 (w : CommandWord) : BitVec 32 := wordField w 0 32

/-- `off` of `RO`, `RRRO` and `lo` of `RW`: `imm[9:0]`. -/
def fieldOff (w : CommandWord) : BitVec 10 := wordField w 0 10

/-- `hi` of `RW`: `imm[25:16]`. -/
def fieldHi (w : CommandWord) : BitVec 10 := wordField w 16 10

/-- `crn` of `RC`: `imm[2:0]`. -/
def fieldCrn (w : CommandWord) : BitVec 3 := wordField w 0 3

/-- `fid` of `RF` and `n` of `RV`: `imm[7:0]`. -/
def fieldFid (w : CommandWord) : BitVec 8 := wordField w 0 8

/-- `w` of `RV`: `imm[10:8]`. -/
def fieldRecordWord (w : CommandWord) : BitVec 3 := wordField w 8 3

/-- `k` of `RK`: `imm[1:0]`. -/
def fieldK (w : CommandWord) : BitVec 2 := wordField w 0 2

/-! ### The opcode map (30_encoding.md R42, R43) -/

/-- The sub-formats of 30_encoding.md R42. -/
inductive SubFormat where
  | N | R | RI | RO | RRRO | RW | RC | RC1 | RF | RV | RRR | RR | RK
  deriving DecidableEq, Repr

/-- The mask of a sub-format: the bits `match` fixes (30_encoding.md R42). -/
def subFormatMask : SubFormat → CommandWord
  | .N    => 0xFFFFFFFFFFFFFFFF#64
  | .R    => 0xFF0FFFFFFFFFFFFF#64
  | .RI   => 0xFF0FFFFF00000000#64
  | .RO   => 0xFF0FFFFFFFFFFC00#64
  | .RRRO => 0xFF000FFFFFFFFC00#64
  | .RW   => 0xFF0FFFFFFC00FC00#64
  | .RC   => 0xFF0FFFFFFFFFFFF8#64
  | .RC1  => 0xFF0FFFFFFFFFFFFF#64
  | .RF   => 0xFF0FFFFFFFFFFF00#64
  | .RV   => 0xFF0FFFFFFFFFF800#64
  | .RRR  => 0xFF000FFFFFFFFFFF#64
  | .RR   => 0xFF00FFFFFFFFFFFF#64
  | .RK   => 0xFF0FFFFFFFFFFFFC#64

/-- What `match` adds below the opcode: 1 for `RC1`, else 0 (30_encoding.md R42). -/
def subFormatLow : SubFormat → CommandWord
  | .RC1 => 1
  | _    => 0

/-- `match = op << 56`, plus 1 for `RC1` (30_encoding.md R42). -/
def matchWord (op : BitVec 8) (f : SubFormat) : CommandWord :=
  (op.setWidth 64 <<< 56) ||| subFormatLow f

/-- A row of the opcode map: its sub-format and the instruction its operand fields stand for. -/
structure OpcodeRow where
  format : SubFormat
  build  : CommandWord → Instr

/-- The row of an opcode (30_encoding.md R43); none for the 224 reserved opcodes (R44 a). -/
def opcodeRow (op : BitVec 8) : Option OpcodeRow :=
  match op.toNat with
  | 0x00 => some ⟨.N, fun _ => .nop⟩
  | 0x01 => some ⟨.RI, fun w => .ldi (fieldRa w) (fieldImm32 w)⟩
  | 0x02 => some ⟨.RO, fun w => .ldb (fieldRa w) (fieldOff w)⟩
  | 0x03 => some ⟨.RO, fun w => .stb (fieldRa w) (fieldOff w)⟩
  | 0x04 => some ⟨.RC, fun w => .rdcr (fieldRa w) (fieldCrn w)⟩
  | 0x05 => some ⟨.RC1, fun w => .wrcr (fieldRa w)⟩
  | 0x06 => some ⟨.N, fun _ => .srst⟩
  | 0x10 => some ⟨.RO, fun w => .dec28 (fieldRa w) (fieldOff w)⟩
  | 0x11 => some ⟨.RO, fun w => .enc28 (fieldRa w) (fieldOff w)⟩
  | 0x12 => some ⟨.RRRO, fun w => .decso (fieldRa w) (fieldRb w) (fieldRc w) (fieldOff w)⟩
  | 0x13 => some ⟨.RO, fun w => .encso (fieldRa w) (fieldOff w)⟩
  | 0x20 => some ⟨.RW, fun w => .csum (fieldRa w) (fieldOff w) (fieldHi w)⟩
  | 0x21 => some ⟨.R, fun w => .csvp (fieldRa w)⟩
  | 0x22 => some ⟨.R, fun w => .csvs (fieldRa w)⟩
  | 0x23 => some ⟨.N, fun _ => .csfp⟩
  | 0x24 => some ⟨.N, fun _ => .csfs⟩
  | 0x30 => some ⟨.N, fun _ => .pdec⟩
  | 0x31 => some ⟨.R, fun w => .penc (fieldRa w)⟩
  | 0x32 => some ⟨.RF, fun w => .pfld (fieldRa w) (fieldFid w)⟩
  | 0x33 => some ⟨.RV, fun w => .rdvl (fieldRa w) (fieldFid w) (fieldRecordWord w)⟩
  | 0x40 => some ⟨.N, fun _ => .sdec⟩
  | 0x41 => some ⟨.R, fun w => .senc (fieldRa w)⟩
  | 0x42 => some ⟨.RRR, fun w => .ccget (fieldRa w) (fieldRb w) (fieldRc w)⟩
  | 0x43 => some ⟨.RRR, fun w => .ccset (fieldRa w) (fieldRb w) (fieldRc w)⟩
  | 0x44 => some ⟨.RRRO, fun w => .unpk3 (fieldRa w) (fieldRb w) (fieldRc w) (fieldOff w)⟩
  | 0x45 => some ⟨.RRRO, fun w => .pk3 (fieldRa w) (fieldRb w) (fieldRc w) (fieldOff w)⟩
  | 0x46 => some ⟨.RR, fun w => .pmiget (fieldRa w) (fieldRb w)⟩
  | 0x47 => some ⟨.RR, fun w => .pmiset (fieldRa w) (fieldRb w)⟩
  | 0x48 => some ⟨.RR, fun w => .pmoget (fieldRa w) (fieldRb w)⟩
  | 0x49 => some ⟨.RR, fun w => .pmoset (fieldRa w) (fieldRb w)⟩
  | 0x4A => some ⟨.RK, fun w => .pedget (fieldRa w) (fieldK w)⟩
  | 0x4B => some ⟨.RK, fun w => .pedset (fieldRa w) (fieldK w)⟩
  | _    => none

/-! ### Decoding (30_encoding.md R44, R46) -/

/-- Why a word is `ILLEGAL` (30_encoding.md R44). The unit reports only `ILLEGAL`; the names are the model's (log 14). -/
inductive IllegalWord where
  /-- R44 (a): the opcode is not one of the 32. -/
  | reservedOpcode
  /-- R44 (b), (c): a bit the sub-format fixes differs from `match`. -/
  | fixedBits
  /-- R44 (d): the row's extra constraint fails. -/
  | constraint
  deriving DecidableEq, Repr

/-- The decoding procedure of 30_encoding.md R46. -/
def decode (w : CommandWord) : Except IllegalWord Instr :=
  match opcodeRow (fieldOp w) with
  | none => .error .reservedOpcode
  | some row =>
    if w &&& subFormatMask row.format = matchWord (fieldOp w) row.format then
      if (row.build w).wf then .ok (row.build w) else .error .constraint
    else .error .fixedBits

/-! ### Encoding (30_encoding.md R41 to R43) -/

/-- A register number as a 4-bit field. -/
def fieldOfReg (r : Reg) : BitVec 4 := BitVec.ofFin r

/-- A command word from its fields; `z` is 0 (30_encoding.md R41). -/
def packWord (op : BitVec 8) (ra rb rc : Reg) (imm : BitVec 32) : CommandWord :=
  (op.setWidth 64 <<< 56) ||| ((fieldOfReg ra).setWidth 64 <<< 52) ||| ((fieldOfReg rb).setWidth 64 <<< 48)
    ||| ((fieldOfReg rc).setWidth 64 <<< 44) ||| imm.setWidth 64

/-- `imm` of `RO`, `RRRO`: `off = imm[9:0]`. -/
def immOff (off : BitVec 10) : BitVec 32 := off.setWidth 32

/-- `imm` of `RW`: `lo = imm[9:0]`, `hi = imm[25:16]`. -/
def immWindow (lo hi : BitVec 10) : BitVec 32 := (hi.setWidth 32 <<< 16) ||| lo.setWidth 32

/-- `imm` of `RC`: `crn = imm[2:0]`. -/
def immCrn (crn : BitVec 3) : BitVec 32 := crn.setWidth 32

/-- `imm` of `RF`: `fid = imm[7:0]`. -/
def immFid (fid : BitVec 8) : BitVec 32 := fid.setWidth 32

/-- `imm` of `RV`: `n = imm[7:0]`, `w = imm[10:8]`. -/
def immRecord (n : BitVec 8) (w : BitVec 3) : BitVec 32 := (w.setWidth 32 <<< 8) ||| n.setWidth 32

/-- `imm` of `RK`: `k = imm[1:0]`. -/
def immK (k : BitVec 2) : BitVec 32 := k.setWidth 32

/-- The word of an instruction (30_encoding.md R41 to R43); register fields a sub-format does not use are 0. -/
def encode : Instr → CommandWord
  | .nop               => packWord 0x00 0 0 0 0
  | .ldi ra imm32      => packWord 0x01 ra 0 0 imm32
  | .ldb ra off        => packWord 0x02 ra 0 0 (immOff off)
  | .stb ra off        => packWord 0x03 ra 0 0 (immOff off)
  | .rdcr ra crn       => packWord 0x04 ra 0 0 (immCrn crn)
  | .wrcr ra           => packWord 0x05 ra 0 0 1
  | .srst              => packWord 0x06 0 0 0 0
  | .dec28 ra off      => packWord 0x10 ra 0 0 (immOff off)
  | .enc28 ra off      => packWord 0x11 ra 0 0 (immOff off)
  | .decso ra rb rc off => packWord 0x12 ra rb rc (immOff off)
  | .encso ra off      => packWord 0x13 ra 0 0 (immOff off)
  | .csum ra lo hi     => packWord 0x20 ra 0 0 (immWindow lo hi)
  | .csvp ra           => packWord 0x21 ra 0 0 0
  | .csvs ra           => packWord 0x22 ra 0 0 0
  | .csfp              => packWord 0x23 0 0 0 0
  | .csfs              => packWord 0x24 0 0 0 0
  | .pdec              => packWord 0x30 0 0 0 0
  | .penc ra           => packWord 0x31 ra 0 0 0
  | .pfld ra fid       => packWord 0x32 ra 0 0 (immFid fid)
  | .rdvl ra n w       => packWord 0x33 ra 0 0 (immRecord n w)
  | .sdec              => packWord 0x40 0 0 0 0
  | .senc ra           => packWord 0x41 ra 0 0 0
  | .ccget ra rb rc    => packWord 0x42 ra rb rc 0
  | .ccset ra rb rc    => packWord 0x43 ra rb rc 0
  | .unpk3 ra rb rc off => packWord 0x44 ra rb rc (immOff off)
  | .pk3 ra rb rc off  => packWord 0x45 ra rb rc (immOff off)
  | .pmiget ra rb      => packWord 0x46 ra rb 0 0
  | .pmiset ra rb      => packWord 0x47 ra rb 0 0
  | .pmoget ra rb      => packWord 0x48 ra rb 0 0
  | .pmoset ra rb      => packWord 0x49 ra rb 0 0
  | .pedget ra k       => packWord 0x4A ra 0 0 (immK k)
  | .pedset ra k       => packWord 0x4B ra 0 0 (immK k)

/-! ### The host's numbering of a table word -/

/-- The command word whose low `nbits` bits are those of `w`, the bits above being 0. -/
def tableWord (nbits w : Nat) : CommandWord := BitVec.ofNat 64 (w % 2 ^ nbits)

/-- The instruction the decoder reads from a table word; none where it refuses. A command word is a number, so
there is no byte order to lay out (30_encoding.md R41). -/
def decodeTableWord (nbits w : Nat) : Option Instr := (decode (tableWord nbits w)).toOption

end Sys2Proof
end

