-- ==== Sys2Proof/Machine/State.lean ====
section
/-! DEFINITION. The machine's state as plain data (10_state.md R11), the reasons a step can stop, and the state
after reset (10_state.md R25, 70_reset_and_hazards.md R121). -/

namespace Sys2Proof.Machine

/-- `KIND`, control register 2, the validation latch; the value 3 never occurs (10_state.md R17). -/
inductive Kind where
  /-- 0 -/
  | none
  /-- 1 -/
  | preset
  /-- 2 -/
  | system
  deriving DecidableEq, Repr

/-- One record of the violation list, five 32-bit words (10_state.md R22). -/
structure VRec where
  /-- word 0, index of the field in `FIELD_TABLE` -/
  fid  : Word
  /-- word 1, the decoded value, signed -/
  val  : Word
  /-- word 2, 0 `RANGE`, 1 `EQUAL` -/
  kind : Word
  /-- word 3, signed -/
  lo   : Word
  /-- word 4, signed -/
  hi   : Word
  deriving DecidableEq, Repr

/-- A record whose five words are 0, the reset value (10_state.md R22). -/
def VRec.zero : VRec := ⟨0, 0, 0, 0, 0⟩

/-- The message buffer, sparse: (address, byte) pairs with addresses strictly rising and no byte 0, which is what
an unlisted cell reads as (10_state.md R23, R25; log 10). -/
abbrev Memory := List Host.Cell

/-- The host actions of 70_reset_and_hazards.md R126. An argument outside its stated range does not exist. -/
inductive HostAction where
  /-- `HostIssue(w)` -/
  | issue (w : CommandWord)
  /-- `HostWriteBuf(a, b)`, `0 <= a <= 527` -/
  | writeBuf (a : Fin 528) (b : Byte)
  /-- `HostWriteLen(n)`, `0 <= n <= 528` -/
  | writeLen (n : Fin 529)
  /-- `HostWriteReg(i, v)` -/
  | writeReg (i : Reg) (v : Word)
  /-- `HostRead` -/
  | read
  /-- `HostReset` -/
  | reset
  deriving DecidableEq, Repr

/-- The complete state of the unit (10_state.md R11), and beside it the model's own two fields `cfg` and `host`. -/
structure State where
  /-- `x0` .. `x15` (10_state.md R12) -/
  x       : Vector Word 16
  /-- `STATUS`, control register 0: `STK` 13, `A` 12, `SC` 11:4, `EC` 3:0 (10_state.md R15) -/
  status  : BitVec 14
  /-- `LEN`, control register 1 (10_state.md R16) -/
  len     : BitVec 10
  /-- `KIND`, control register 2 (10_state.md R17) -/
  kind    : Kind
  /-- `NUM`, control register 3 (10_state.md R18) -/
  num     : BitVec 8
  /-- `NAMELEN`, control register 4 (10_state.md R19) -/
  namelen : BitVec 5
  /-- `NVIOL`, control register 5 (10_state.md R20) -/
  nviol   : BitVec 8
  /-- `FV[0..NF-1]` (10_state.md R21) -/
  fv      : List Word
  /-- `VL[0..NF-1]` (10_state.md R22) -/
  vl      : List VRec
  /-- `BUF[0..527]` (10_state.md R23) -/
  mem     : Memory
  /-- `CFG`, the configuration of the run; not state of the unit, and no step changes it (00_scope.md R10; log 1) -/
  cfg     : Cfg
  /-- the host actions still to come, first one next; outside the unit's state (10_state.md R13; log 3) -/
  host    : List HostAction
  deriving DecidableEq, Repr

/-- The unit never faults: a failing command completes and reports in `STATUS` (60_exceptions.md R108, R116;
93_implementation_defined.md U14; log 13). Nobody raises a fault, which is safe: there is none to miss. -/
inductive Fault where
  deriving DecidableEq, Repr

/-- Why a step is refused. -/
inductive Refusal where
  /-- An instruction that has no meaning yet. No arm of `exec` answers it: every instruction has its meaning. Safe. -/
  | notModelled (mnemonic : String)
  /-- Raised by `step` when the configuration fails `wfCfg`: "a model refuses a configuration that fails it"
  (00_scope.md R6; log 5). Safe. -/
  | illFormedConfig
  deriving DecidableEq, Repr

/-- The unit after reset, every piece of state zero (10_state.md R25; 70_reset_and_hazards.md R121), with a
configuration and the host actions still to come, which a reset does not touch. -/
def State.resetWith (c : Cfg) (h : List HostAction) : State where
  x       := Vector.replicate 16 0
  status  := 0
  len     := 0
  kind    := .none
  num     := 0
  namelen := 0
  nviol   := 0
  fv      := List.replicate c.nf 0
  vl      := List.replicate c.nf VRec.zero
  mem     := []
  cfg     := c
  host    := h

/-- The machine right after reset. DESIGN CHOICE: its configuration is the spec's default TC1 (log 2) and the host
has issued nothing yet (log 3). -/
def State.reset : State := State.resetWith Cfg.tc1 []

end Sys2Proof.Machine
end

