-- ==== Sys2Proof/Machine/Formats.lean ====
section
/-! DEFINITION. The pure functions over bytes and integers: 28-bit fields and signed offsets (40_varint.md R49 to
R52), the checksum (41_checksum.md R58), packed groups and lanes (43_system.md R88, R89, R93), `clamp` (00_scope.md
R8). All arithmetic is on unbounded integers (00_scope.md R8). -/

namespace Sys2Proof.Machine

/-- Four consecutive bytes, lowest address first: a 28-bit field or a group (20_memory.md R28, R34). -/
structure Quad where
  b0 : Byte
  b1 : Byte
  b2 : Byte
  b3 : Byte
  deriving DecidableEq, Repr

/-- `v[hi:lo]` of a non-negative integer (00_scope.md R8). -/
def bits (v hi lo : Nat) : Nat := (v >>> lo) % 2 ^ (hi - lo + 1)

/-- A byte from an integer in 0..255. -/
def byteOf (v : Nat) : Byte := BitVec.ofNat 8 v

/-- `clamp(v, lo, hi)` (00_scope.md R8). -/
def clamp (v lo hi : Int) : Int := if v < lo then lo else if v > hi then hi else v

/-! ### 28-bit fields (40_varint.md) -/

/-- `dec28` (40_varint.md R49). -/
def dec28 (q : Quad) : Nat :=
  (q.b0.toNat &&& 0x7F) ||| ((q.b1.toNat &&& 0x7F) <<< 7) ||| ((q.b2.toNat &&& 0x7F) <<< 14)
    ||| ((q.b3.toNat &&& 0x7F) <<< 21)

/-- `enc28`, for `v` in `[0, 2^28 - 1]` (40_varint.md R50). -/
def enc28 (v : Nat) : Quad :=
  ⟨byteOf (bits v 6 0), byteOf (bits v 13 7), byteOf (bits v 20 14), byteOf (bits v 27 21)⟩

/-- `decSO(r, mn, mx)` (40_varint.md R51): sentinel zero, large-offset regime, direct. -/
def decSO (r : Nat) (mn mx : Int) : Int :=
  if r = 0 then (if mn + mx = 0 then 0 else mn)
  else if r > Config.soThreshold then (r : Int) - Config.soBias
  else r

/-- The raw value `v + 2^24` that `encSO` writes (40_varint.md R52). -/
def rawSO (v : Int) : Int := v + Config.soBias

/-- `encSO(v)`, for `v` with `0 <= v + 2^24 <= 2^28 - 1` (40_varint.md R52). -/
def encSO (v : Int) : Quad := enc28 (rawSO v).toNat

/-! ### The checksum (41_checksum.md) -/

/-- The sum of a list of bytes, unbounded. -/
def byteSum : List Byte → Nat
  | [] => 0
  | b :: bs => b.toNat + byteSum bs

/-- `csum(bs)`, the sum masked to 7 bits (41_checksum.md R58). -/
def csum (bs : List Byte) : Nat := byteSum bs &&& 0x7F

/-! ### Packed groups (43_system.md) -/

/-- The three sub-values of a group (43_system.md R88). -/
structure Triple where
  v1 : Nat
  v2 : Nat
  v3 : Nat
  deriving DecidableEq, Repr

/-- `pack3`, for sub-values in 0..127 (43_system.md R88). -/
def pack3 (t : Triple) : Quad :=
  ⟨byteOf t.v3, byteOf ((t.v2 % 64) * 2), byteOf ((t.v1 % 32) * 4 + t.v2 / 64), byteOf (t.v1 / 32)⟩

/-- `unpack3` (43_system.md R89). -/
def unpack3 (q : Quad) : Triple where
  v3 := q.b0.toNat &&& 0x7F
  v2 := ((q.b1.toNat >>> 1) &&& 0x3F) + 64 * (q.b2.toNat &&& 1)
  v1 := ((q.b2.toNat >>> 2) &&& 0x1F) + 32 * (q.b3.toNat &&& 3)

/-- Which sub-value a lane holds. -/
inductive SubValue where
  | v1 | v2 | v3
  deriving DecidableEq, Repr

/-- The sub-value that lane `l` (0, 1 or 2) holds (43_system.md R93). -/
def laneOf (o : LaneOrder) (l : Nat) : SubValue :=
  match o, l with
  | .lowFirst, 0  => .v3
  | .lowFirst, 1  => .v2
  | .lowFirst, _  => .v1
  | .highFirst, 0 => .v1
  | .highFirst, 1 => .v2
  | .highFirst, _ => .v3

/-- `getlane(t, l)` (43_system.md R93). -/
def getLane (o : LaneOrder) (t : Triple) (l : Nat) : Nat :=
  match laneOf o l with
  | .v1 => t.v1
  | .v2 => t.v2
  | .v3 => t.v3

/-- `setlane(t, l, v)` (43_system.md R93). -/
def setLane (o : LaneOrder) (t : Triple) (l v : Nat) : Triple :=
  match laneOf o l with
  | .v1 => { t with v1 := v }
  | .v2 => { t with v2 := v }
  | .v3 => { t with v3 := v }

end Sys2Proof.Machine
end

