-- ==== Sys2Proof/Machine/Flags.lean ====
section
/-! DEFINITION. `STATUS` and its fields (10_state.md R15, R24), the error classes (60_exceptions.md R109) and what
completing a command writes (60_exceptions.md R111). There are no arithmetic flags. -/

namespace Sys2Proof.Machine

/-- The error classes of 60_exceptions.md R109. -/
inductive ErrClass where
  /-- wrong length, frame byte or identification byte: `PDEC`, `SDEC` -/
  | structural
  /-- a field value or an update value outside its window: `PDEC`, `CCSET`, `PMISET`, `PMOSET` -/
  | fieldRange
  /-- an index, field id or record number outside its list -/
  | index
  /-- kept for the numbering; no command raises it -/
  | identityMismatch
  /-- a buffer access reaches a cell at or above `LEN` -/
  | bounds
  /-- the command word is not a command -/
  | illegal
  /-- a register operand the command cannot encode or store -/
  | operand
  /-- `KIND` does not hold the kind the command needs -/
  | state
  deriving DecidableEq, Repr

/-- The value of `STATUS.EC` (60_exceptions.md R109). -/
def errCode : ErrClass → BitVec 4
  | .structural       => 1
  | .fieldRange       => 2
  | .index            => 3
  | .identityMismatch => 4
  | .bounds           => 5
  | .illegal          => 6
  | .operand          => 7
  | .state            => 8

/-- A one-bit field at its place in `STATUS`. -/
def bitAt (b : Bool) (place : Nat) : BitVec 14 := (BitVec.ofBool b).setWidth 14 <<< place

/-- `STATUS` from its fields (10_state.md R15). -/
def packStatus (stk a : Bool) (sc : BitVec 8) (ec : BitVec 4) : BitVec 14 :=
  bitAt stk 13 ||| bitAt a 12 ||| (sc.setWidth 14 <<< 4) ||| ec.setWidth 14

/-- `STATUS.EC`, bits 3:0. -/
def statusEc (st : BitVec 14) : BitVec 4 := st.extractLsb' 0 4

/-- `STATUS.SC`, bits 11:4. -/
def statusSc (st : BitVec 14) : BitVec 8 := st.extractLsb' 4 8

/-- `STATUS.A`, bit 12. -/
def statusA (st : BitVec 14) : Bool := st.getLsbD 12

/-- `STATUS.STK`, bit 13. -/
def statusStk (st : BitVec 14) : Bool := st.getLsbD 13

/-- `STATUS` after a command that ends `ok` with flag `a`; `STK` is kept (60_exceptions.md R111). -/
def statusOk (old : BitVec 14) (a : Bool) : BitVec 14 := packStatus (statusStk old) a 0 0

/-- `STATUS` after a command that ends with class `c` and sub-code `sc` (60_exceptions.md R111). -/
def statusErr (c : ErrClass) (sc : BitVec 8) : BitVec 14 := packStatus true false sc (errCode c)

end Sys2Proof.Machine
end

