-- ==== Sys2Proof/Machine/Operands.lean ====
section
/-! DEFINITION. How a command reads its operands: register patterns as signed or unsigned integers, integers as
patterns (00_scope.md R8, R9), immediates as addresses, control registers by number (10_state.md R14). -/

namespace Sys2Proof.Machine

/-- `sval`: a pattern read as a signed integer (00_scope.md R9). -/
def sval (w : Word) : Int := w.toInt

/-- `uval`: a pattern read as an unsigned integer (00_scope.md R9). -/
def uval (w : Word) : Nat := w.toNat

/-- The pattern `v mod 2^32` of an integer (00_scope.md R9). -/
def patternOf (v : Int) : Word := BitVec.ofInt 32 v

/-- An immediate byte address `off`, `lo` or `hi`: unsigned, neither scaled nor shifted (30_encoding.md R42). -/
def addrOf (off : BitVec 10) : Nat := off.toNat

/-- `imm32` of `LDI` is the pattern itself (44_housekeeping.md R102). -/
def immediatePattern (imm32 : BitVec 32) : Word := imm32

/-- Is a signed operand inside `[lo, hi]`? -/
def inRange (v : Int) (lo hi : Nat) : Bool := (lo : Int) ≤ v && v ≤ hi

/-- A bit of an operand mask: set when the operand in that register field is refused (60_exceptions.md R110). -/
def maskBit (refused : Bool) (bit : Nat) : Nat := if refused then 2 ^ bit else 0

/-- The sub-code of an operand mask (60_exceptions.md R110). -/
def subCode (m : Nat) : BitVec 8 := BitVec.ofNat 8 m

/-- The two-bit value of `KIND` (10_state.md R17). -/
def kindCode : Kind → BitVec 2
  | .none   => 0
  | .preset => 1
  | .system => 2

/-- The value a read of control register `crn` returns, zero-extended to 32 bits (10_state.md R14); none for
number 7, which is reserved. -/
def controlRegister (s : State) (crn : BitVec 3) : Option Word :=
  match crn.toNat with
  | 0 => some (s.status.setWidth 32)
  | 1 => some (s.len.setWidth 32)
  | 2 => some ((kindCode s.kind).setWidth 32)
  | 3 => some (s.num.setWidth 32)
  | 4 => some (s.namelen.setWidth 32)
  | 5 => some (s.nviol.setWidth 32)
  | 6 => some ((BitVec.ofNat 8 s.cfg.nf).setWidth 32)
  | _ => none

/-- Word `w` of a violation record (10_state.md R22); none for 5..7. -/
def recordWord (r : VRec) (w : BitVec 3) : Option Word :=
  match w.toNat with
  | 0 => some r.fid
  | 1 => some r.val
  | 2 => some r.kind
  | 3 => some r.lo
  | 4 => some r.hi
  | _ => none

end Sys2Proof.Machine
end

