-- ==== Sys2Proof/Machine/Ops.lean ====
section
/-! DEFINITION. The named operations every meaning is built from: cells of `BUF`, registers, the bounds check,
completing a command, raising an error class (the one shared operation that takes the place of an exception,
60_exceptions.md R108, R111), and the reset of the unit. -/

namespace Sys2Proof.Machine

/-! ### Cells of `BUF` (10_state.md R23, 20_memory.md R26) -/

/-- `BUF[a]`; an unlisted cell reads 0, its value after reset. -/
def readCell : Memory → Nat → Byte
  | [], _ => 0
  | (k, b) :: m, a => if k = a then b else readCell m a

/-- The canonical list with cell `a` holding `b`. -/
def insertCell : Memory → Nat → Byte → Memory
  | [], a, b => if b = 0 then [] else [(a, b)]
  | (k, c) :: m, a, b =>
    if a < k then (if b = 0 then (k, c) :: m else (a, b) :: (k, c) :: m)
    else if a = k then (if b = 0 then m else (a, b) :: m)
    else (k, c) :: insertCell m a b

/-- `BUF[a] <- b`. Addresses from 528 on have no cell, so nothing is stored there (log 6). -/
def writeCell (m : Memory) (a : Nat) (b : Byte) : Memory :=
  if a < Config.bufSize then insertCell m a b else m

/-- The four bytes at `a .. a+3`. -/
def readQuad (m : Memory) (a : Nat) : Quad :=
  ⟨readCell m a, readCell m (a + 1), readCell m (a + 2), readCell m (a + 3)⟩

/-- Store four bytes at `a .. a+3`. -/
def writeQuad (m : Memory) (a : Nat) (q : Quad) : Memory :=
  writeCell (writeCell (writeCell (writeCell m a q.b0) (a + 1) q.b1) (a + 2) q.b2) (a + 3) q.b3

/-- The `n` bytes from `a` on. -/
def readBytes (m : Memory) (a : Nat) : Nat → List Byte
  | 0 => []
  | n + 1 => readCell m a :: readBytes m (a + 1) n

/-- The bytes of the window `[lo, hi]`, both ends included; empty when `lo > hi`. -/
def readWindow (m : Memory) (lo hi : Nat) : List Byte := readBytes m lo (hi + 1 - lo)

/-- The memory's canonical form: addresses strictly rising, all of them cells of `BUF`, no byte 0. -/
def memoryWf : Memory → Bool
  | [] => true
  | [(k, b)] => k < Config.bufSize && b != 0
  | (k, b) :: (k', b') :: m => k < k' && b != 0 && memoryWf ((k', b') :: m)

/-! ### Field updates of the state -/

/-- `x[i]` (00_scope.md R9). -/
def State.reg (s : State) (i : Reg) : Word := s.x[i]

/-- `x[i] <-` the pattern `w`. -/
def State.setReg (s : State) (i : Reg) (w : Word) : State := { s with x := s.x.set i w }

/-- `STATUS <- st`. -/
def State.setStatus (s : State) (st : BitVec 14) : State := { s with status := st }

/-- `LEN <- n`. -/
def State.setLen (s : State) (n : Nat) : State := { s with len := BitVec.ofNat 10 n }

/-- `KIND <- k`. -/
def State.setKind (s : State) (k : Kind) : State := { s with kind := k }

/-- The buffer replaced. -/
def State.setMem (s : State) (m : Memory) : State := { s with mem := m }

/-- `NVIOL <- n`. -/
def State.setNviol (s : State) (n : Nat) : State := { s with nviol := BitVec.ofNat 8 n }

/-- `VL` replaced. -/
def State.setVl (s : State) (vl : List VRec) : State := { s with vl := vl }

/-- `NUM`, `NAMELEN` and `FV` as a `PDEC` leaves them. -/
def State.setDecoded (s : State) (num : Byte) (namelen : Nat) (fv : List Word) : State :=
  { s with num := num, namelen := BitVec.ofNat 5 namelen, fv := fv }

/-- The host actions still to come. -/
def State.setHost (s : State) (h : List HostAction) : State := { s with host := h }

/-- A raw write: the buffer replaced and the validation latch cleared (20_memory.md R36). -/
def State.rawWrite (s : State) (m : Memory) : State := (s.setMem m).setKind .none

/-! ### Bounds (20_memory.md R27) -/

/-- Is an access to `n` bytes at `a` admitted? `n = 0` always is (00_scope.md R9). -/
def State.admits (s : State) (a n : Nat) : Bool := n == 0 || a + n ≤ s.len.toNat

/-! ### Completing a command (60_exceptions.md R111) -/

/-- `ok`, with the command's flag `A`. -/
def okFlag (s : State) (a : Bool) : Host.Outcome State Fault Refusal :=
  .next (s.setStatus (statusOk s.status a))

/-- `ok`, for every command but `CCGET` and `PMIGET`: `A <- 0`. -/
def ok (s : State) : Host.Outcome State Fault Refusal := okFlag s false

/-- `raise <CLASS>(sc)`: the command ends, `STATUS` is written, nothing else of `s` changes (00_scope.md R9,
60_exceptions.md R111, R112). Nothing is saved and control goes nowhere (60_exceptions.md R108); there is no return
from it (60_exceptions.md R117). -/
def raise (s : State) (c : ErrClass) (sc : BitVec 8) : Host.Outcome State Fault Refusal :=
  .next (s.setStatus (statusErr c sc))

/-- What an `ILLEGAL` word does (30_encoding.md R44, 60_exceptions.md R112). -/
def raiseIllegal (s : State) : Host.Outcome State Fault Refusal := raise s .illegal 0

/-! ### Reset (10_state.md R25) -/

/-- Every piece of state of 10_state.md R11 at its reset value; the configuration and the host's own list stay
(DEDUCED, log 15). -/
def State.resetUnit (s : State) : State := State.resetWith s.cfg s.host

/-! ### Shared shapes of commands -/

/-- Write a register and end `ok`. -/
def writeReg (s : State) (i : Reg) (w : Word) : Host.Outcome State Fault Refusal := ok (s.setReg i w)

/-- A raw four-byte write: `MemWrite(a, 4, q)`, `KIND <- NONE`, `ok` (00_scope.md R9, 20_memory.md R36). -/
def rawWriteQuad (s : State) (a : Nat) (q : Quad) : Host.Outcome State Fault Refusal :=
  if s.admits a 4 then ok (s.rawWrite (writeQuad s.mem a q)) else raise s .bounds 0

end Sys2Proof.Machine
end

