-- ==== Sys2Proof/Machine/Checksum.lean ====
section
/-! DEFINITION. The ChecksumEngine commands `CSUM`, `CSVP`, `CSVS`, `CSFP`, `CSFS` (41_checksum.md). -/

namespace Sys2Proof.Machine

/-- A payload window and the place of its stored checksum (41_checksum.md R59). -/
structure Payload where
  lo  : Nat
  hi  : Nat
  pos : Nat
  deriving DecidableEq, Repr

/-- The preset window: bytes 8..516, stored at 518. -/
def presetPayload : Payload := ⟨Config.presetCsumLo, Config.presetCsumHi, Config.presetCsumPos⟩

/-- The system-dump window, OPEN parameters. -/
def systemPayload (c : Cfg) : Payload := ⟨c.sysCsumLo, c.sysCsumHi, c.sysCsumPos⟩

/-- Does the valid region reach past the window and the checksum byte? `LEN < 519` for the preset window,
`LEN <= max(SYS_CSUM_HI, SYS_CSUM_POS)` for the system window (41_checksum.md R62, R63). -/
def covers (s : State) (p : Payload) : Bool := max p.hi p.pos + 1 ≤ s.len.toNat

/-- The checksum of a window of `BUF`. -/
def windowSum (m : Memory) (p : Payload) : Nat := csum (readWindow m p.lo p.hi)

/-- `verify`: 1 when the stored byte, compared as a full byte, is the checksum (41_checksum.md R62). -/
def verifySum (m : Memory) (p : Payload) : Word := if (readCell m p.pos).toNat = windowSum m p then 1 else 0

/-- The buffer with the checksum of the window stored; the window is read before the store (41_checksum.md R64). -/
def storeSum (m : Memory) (p : Payload) : Memory := writeCell m p.pos (byteOf (windowSum m p))

/-- Read a verification into a register, or `BOUNDS`. -/
def verifyCommand (s : State) (ra : Reg) (p : Payload) : Host.Outcome State Fault Refusal :=
  if covers s p then writeReg s ra (verifySum s.mem p) else raise s .bounds 0

/-- Re-derive and store a checksum as a raw write, or `BOUNDS`. -/
def fixCommand (s : State) (p : Payload) : Host.Outcome State Fault Refusal :=
  if covers s p then ok (s.rawWrite (storeSum s.mem p)) else raise s .bounds 0

/-- `CSUM ra, lo, hi` (41_checksum.md R61): an empty range never raises. -/
def execCsum (ra : Reg) (lo hi : BitVec 10) (s : State) : Host.Outcome State Fault Refusal :=
  if s.admits (addrOf lo) (addrOf hi + 1 - addrOf lo) then
    writeReg s ra (patternOf (csum (readWindow s.mem (addrOf lo) (addrOf hi))))
  else raise s .bounds 0

/-- `CSVP ra` (41_checksum.md R62). -/
def execCsvp (ra : Reg) (s : State) : Host.Outcome State Fault Refusal := verifyCommand s ra presetPayload

/-- `CSVS ra` (41_checksum.md R63). -/
def execCsvs (ra : Reg) (s : State) : Host.Outcome State Fault Refusal := verifyCommand s ra (systemPayload s.cfg)

/-- `CSFP` (41_checksum.md R64). -/
def execCsfp (s : State) : Host.Outcome State Fault Refusal := fixCommand s presetPayload

/-- `CSFS` (41_checksum.md R65). -/
def execCsfs (s : State) : Host.Outcome State Fault Refusal := fixCommand s (systemPayload s.cfg)

end Sys2Proof.Machine
end

