-- ==== Sys2Proof/Machine/Housekeeping.lean ====
section
/-! DEFINITION. The housekeeping commands `NOP`, `LDI`, `LDB`, `STB`, `RDCR`, `WRCR`, `SRST` (44_housekeeping.md). -/

namespace Sys2Proof.Machine

/-- `NOP` (44_housekeeping.md R101). -/
def execNop (s : State) : Host.Outcome State Fault Refusal := ok s

/-- `LDI ra, imm32` (44_housekeeping.md R102). -/
def execLdi (ra : Reg) (imm32 : BitVec 32) (s : State) : Host.Outcome State Fault Refusal :=
  writeReg s ra (immediatePattern imm32)

/-- `LDB ra, off` (44_housekeeping.md R103). -/
def execLdb (ra : Reg) (off : BitVec 10) (s : State) : Host.Outcome State Fault Refusal :=
  if s.admits (addrOf off) 1 then
    writeReg s ra ((readCell s.mem (addrOf off)).setWidth 32)
  else raise s .bounds 0

/-- `STB ra, off` (44_housekeeping.md R104): `OPERAND` before `BOUNDS`. -/
def execStb (ra : Reg) (off : BitVec 10) (s : State) : Host.Outcome State Fault Refusal :=
  if inRange (sval (s.reg ra)) 0 255 then
    if s.admits (addrOf off) 1 then
      ok (s.rawWrite (writeCell s.mem (addrOf off) (byteOf (sval (s.reg ra)).toNat)))
    else raise s .bounds 0
  else raise s .operand 1

/-- `RDCR ra, crn` (44_housekeeping.md R105): the value before the command completes; `crn = 7` is `ILLEGAL`. -/
def execRdcr (ra : Reg) (crn : BitVec 3) (s : State) : Host.Outcome State Fault Refusal :=
  match controlRegister s crn with
  | some v => writeReg s ra v
  | none => raiseIllegal s

/-- `WRCR LEN, ra` (44_housekeeping.md R106). -/
def execWrcr (ra : Reg) (s : State) : Host.Outcome State Fault Refusal :=
  if inRange (sval (s.reg ra)) 0 Config.bufSize then
    ok ((s.setLen (sval (s.reg ra)).toNat).setKind .none)
  else raise s .operand 1

/-- `SRST` (44_housekeeping.md R107). -/
def execSrst (s : State) : Host.Outcome State Fault Refusal := ok s.resetUnit

end Sys2Proof.Machine
end

