-- ==== Sys2Proof/Machine/Structure.lean ====
section
/-! DEFINITION. The structural checks the two decoders share (42_preset.md R73, 43_system.md R81). -/

namespace Sys2Proof.Machine

/-- The seven checks in order, each with its sub-code (60_exceptions.md R110): length, frame start, frame end at
`endAddr`, manufacturer, product, message class, sub-type. -/
def headerChecks (m : Memory) (lengthOk : Bool) (endAddr : Nat) (subtype : Byte) : List (BitVec 8 × Bool) :=
  [ (1, lengthOk),
    (2, readCell m 0 == Config.frameStart),
    (3, readCell m endAddr == Config.frameEnd),
    (4, readCell m 1 == Config.manuf1 && readCell m 2 == Config.manuf2 && readCell m 3 == Config.manuf3),
    (5, readCell m 5 == Config.product),
    (6, readCell m 6 == Config.msgClassDump),
    (7, readCell m 7 == subtype) ]

/-- The sub-code of the first check that fails; later ones are not evaluated. -/
def firstFailure : List (BitVec 8 × Bool) → Option (BitVec 8)
  | [] => none
  | (sc, holds) :: rest => if holds then firstFailure rest else some sc

/-- The structural checks of a preset message (42_preset.md R73). The frame end is byte 519 for both lengths. -/
def presetChecks (s : State) : List (BitVec 8 × Bool) :=
  headerChecks s.mem (s.len.toNat == Config.presetLen || s.len.toNat == Config.presetLenLegacy)
    (Config.presetLen - 1) Config.subtypePreset

/-- The structural checks of a system dump (43_system.md R81). The frame end is byte `LEN - 1`. -/
def systemChecks (s : State) : List (BitVec 8 × Bool) :=
  headerChecks s.mem (s.len.toNat == Config.sysLen || s.len.toNat == Config.sysLenShort)
    (s.len.toNat - 1) Config.subtypeSystem

end Sys2Proof.Machine
end

