-- ==== Sys2Proof/Machine/Preset.lean ====
section
/-! DEFINITION. The preset codec: discriminator mux, field decode, validator, and the commands `PDEC`, `PENC`, `PFLD`,
`RDVL` (42_preset.md). -/

namespace Sys2Proof.Machine

/-- The variant of the first case, in list order, whose `sel` holds `d`; `dflt` when none does (42_preset.md R68). -/
def firstCase (d : Int) (dflt : Variant) : List Case → Variant
  | [] => dflt
  | c :: cs => if c.sel.contains d then c.var else firstCase d dflt cs

/-- The discriminator mux `select(i, fv)` (42_preset.md R68); `fv` holds the values decoded so far. A
governing value that is missing, which `wfTable` excludes, gives `dflt` (DEDUCED, log 20). -/
def selectVariant (e : FieldEntry) (fv : List Int) : Variant :=
  match e.disc with
  | .none => e.dflt
  | .by j cases =>
    match fv[j]? with
    | some d => firstCase d e.dflt cases
    | none => e.dflt

/-- `value(i, fv)` for the selected variant (42_preset.md R71). -/
def fieldValue (m : Memory) (e : FieldEntry) (v : Variant) : Int :=
  match v.enc with
  | .plain => dec28 (readQuad m e.off)
  | .signed => decSO (dec28 (readQuad m e.off)) (declaredRange v).1 (declaredRange v).2

/-- Does a value pass a condition (42_preset.md R72)? -/
def passes (c : Cond) (v : Int) : Bool :=
  match c with
  | .range lo hi => lo ≤ v && v ≤ hi
  | .equal k => v == k

/-- The violation record of entry `i` (42_preset.md R72). -/
def violation (i : Nat) (v : Int) : Cond → VRec
  | .range lo hi => ⟨BitVec.ofNat 32 i, patternOf v, 0, patternOf lo, patternOf hi⟩
  | .equal k => ⟨BitVec.ofNat 32 i, patternOf v, 1, patternOf k, patternOf k⟩

/-- What decoding the fields gives: the values in table order and every violation. -/
structure Decoded where
  values     : List Int
  violations : List VRec
  deriving DecidableEq, Repr

/-- Steps 3 and 4 of `PDEC` (42_preset.md R75): decode and check every entry in table order, never stopping at a
violation; `fv` is what is decoded so far, so the next entry's index is its length. -/
def decodeEntries (m : Memory) : List FieldEntry → List Int → List VRec → Decoded
  | [], fv, viol => ⟨fv, viol⟩
  | e :: es, fv, viol =>
    let var := selectVariant e fv
    let v := fieldValue m e var
    decodeEntries m es (fv ++ [v])
      (if passes var.cond v then viol else viol ++ [violation fv.length v var.cond])

/-- All the fields of the table, decoded from the buffer. -/
def decodeFields (m : Memory) (t : List FieldEntry) : Decoded := decodeEntries m t [] []

/-- Is a name byte kept at the end of a name? Spaces and NULs are trimmed (42_preset.md R74); their ASCII codes
are PRESUMED, by the spec itself (93_implementation_defined.md G3; log 19). -/
def isNameEnd (b : Byte) : Bool := b != 0x20 && b != 0x00

/-- The largest `n` up to the argument such that `n = 0` or byte `NAME_OFF + n - 1` is kept (42_preset.md R74). -/
def nameLength (m : Memory) : Nat → Nat
  | 0 => 0
  | n + 1 => if isNameEnd (readCell m (Config.nameOff + n)) then n + 1 else nameLength m n

/-- `NUM`, `NAMELEN` and `FV` extracted from the buffer (42_preset.md R74, R75). -/
def extractPreset (s : State) : State :=
  s.setDecoded (readCell s.mem Config.numOff) (nameLength s.mem Config.nameWidth)
    ((decodeFields s.mem s.cfg.fieldTable).values.map patternOf)

/-- The violation list with new records from 0 on; records past them keep their content (42_preset.md R75). -/
def overlay (new old : List VRec) : List VRec := new ++ old.drop new.length

/-- A field-range failure of `PDEC` before its status: everything extracted is kept, and the records are written
(42_preset.md R75, 60_exceptions.md R112 b). -/
def rejectPreset (s : State) (viol : List VRec) : State :=
  (((extractPreset s).setVl (overlay viol s.vl)).setNviol viol.length).setKind .none

/-- A successful `PDEC` before its status (42_preset.md R75). -/
def acceptPreset (s : State) : State :=
  (((extractPreset s).setNviol 0).setLen Config.presetLen).setKind .preset

/-- `PDEC` (42_preset.md R75). -/
def execPdec (s : State) : Host.Outcome State Fault Refusal :=
  match firstFailure (presetChecks s) with
  | some sc => raise ((s.setKind .none).setNviol 0) .structural sc
  | none =>
    match (decodeFields s.mem s.cfg.fieldTable).violations with
    | [] => ok (acceptPreset s)
    | v :: vs => raise (rejectPreset s (v :: vs)) .fieldRange 0

/-- `PENC ra` (42_preset.md R76). -/
def execPenc (ra : Reg) (s : State) : Host.Outcome State Fault Refusal :=
  if s.kind = .preset then writeReg s ra (patternOf Config.presetLen) else raise s .state 1

/-- `FV[fid]`; the value-file has an entry for every field id below `NF` (10_state.md R21; log 8). -/
def fieldValueFile (s : State) (fid : BitVec 8) : Word := (s.fv[fid.toNat]?).getD 0

/-- `PFLD ra, fid` (42_preset.md R77): `STATE` before `INDEX`. -/
def execPfld (ra : Reg) (fid : BitVec 8) (s : State) : Host.Outcome State Fault Refusal :=
  if s.kind = .preset then
    if fid.toNat < s.cfg.nf then writeReg s ra (fieldValueFile s fid) else raise s .index 0
  else raise s .state 1

/-- `VL[n]`; the list has a record for every number below `NF` (10_state.md R22; log 8). -/
def violationRecord (s : State) (n : BitVec 8) : VRec := (s.vl[n.toNat]?).getD VRec.zero

/-- `RDVL ra, n, w` (42_preset.md R78); `w` in 5..7 is `ILLEGAL`. -/
def execRdvl (ra : Reg) (n : BitVec 8) (w : BitVec 3) (s : State) : Host.Outcome State Fault Refusal :=
  match recordWord (violationRecord s n) w with
  | none => raiseIllegal s
  | some v => if n.toNat < s.nviol.toNat then writeReg s ra v else raise s .index 0

end Sys2Proof.Machine
end

