-- ==== Sys2Proof/Machine/SystemDump.lean ====
section
/-! DEFINITION. The system-dump codec: `SDEC`, `SENC`, the CC table, packed groups, program maps and pedal fields
(43_system.md). -/

namespace Sys2Proof.Machine

/-! ### Decode and encode -/

/-- `SDEC` (43_system.md R82). -/
def execSdec (s : State) : Host.Outcome State Fault Refusal :=
  match firstFailure (systemChecks s) with
  | some sc => raise (s.setKind .none) .structural sc
  | none => ok (s.setKind .system)

/-- `SENC ra` (43_system.md R83). -/
def execSenc (ra : Reg) (s : State) : Host.Outcome State Fault Refusal :=
  if s.kind = .system then writeReg s ra (s.len.setWidth 32) else raise s .state 2

/-- `sysfix`: the checksum of the system window stored after the table bytes (43_system.md R84). -/
def sysfix (s : State) : State := s.setMem (storeSum s.mem (systemPayload s.cfg))

/-- A table update of four bytes: `MemWrite(a, 4, q)`, `sysfix`, `ok`; `KIND` is kept (43_system.md R84, R95). -/
def updateQuad (s : State) (a : Nat) (q : Quad) : Host.Outcome State Fault Refusal :=
  if s.admits a 4 then ok (sysfix (s.setMem (writeQuad s.mem a q))) else raise s .bounds 0

/-! ### CC-mapping table -/

/-- `ccaddr(i)` (43_system.md R85). -/
def ccAddr (c : Cfg) (i : Nat) : Nat := Config.ccBase + c.ccStride * i

/-- A slot is unassigned exactly when both bytes are the sentinel (20_memory.md R33). -/
def slotAssigned (c p : Byte) : Bool := !(c == Config.ccUnassigned && p == Config.ccUnassigned)

/-- `CCGET ra, rb, rc` (43_system.md R86); `ra = rb` is `ILLEGAL`. -/
def execCcget (ra rb rc : Reg) (s : State) : Host.Outcome State Fault Refusal :=
  if ra = rb then raiseIllegal s
  else if s.kind ≠ .system then raise s .state 2
  else if inRange (sval (s.reg rc)) 0 63 then
    let a := ccAddr s.cfg (sval (s.reg rc)).toNat
    let c := readCell s.mem a
    let p := readCell s.mem (a + 1)
    okFlag ((s.setReg ra (c.setWidth 32)).setReg rb (p.setWidth 32)) (slotAssigned c p)
  else raise s .index 0

/-- A CC number or parameter id that may be stored: 0..127 or the clear value 255 (43_system.md R87). -/
def ccValueOk (v : Int) : Bool := inRange v 0 127 || v == 255

/-- `CCSET ra, rb, rc` (43_system.md R87); `FIELD_RANGE` reports both operands in one mask. -/
def execCcset (ra rb rc : Reg) (s : State) : Host.Outcome State Fault Refusal :=
  let i := sval (s.reg ra)
  let c := sval (s.reg rb)
  let p := sval (s.reg rc)
  if s.kind ≠ .system then raise s .state 2
  else if inRange i 0 63 then
    if ccValueOk c && ccValueOk p then
      let a := ccAddr s.cfg i.toNat
      ok (sysfix (s.setMem (writeCell (writeCell s.mem a (byteOf c.toNat)) (a + 1) (byteOf p.toNat))))
    else raise s .fieldRange (subCode (maskBit (!ccValueOk c) 1 + maskBit (!ccValueOk p) 2))
  else raise s .index 0

/-! ### Packed groups -/

/-- `UNPK3 ra, rb, rc, off` (43_system.md R92); destinations not pairwise different are `ILLEGAL`. -/
def execUnpk3 (ra rb rc : Reg) (off : BitVec 10) (s : State) : Host.Outcome State Fault Refusal :=
  if wfThreeDestinations ra rb rc then
    if s.admits (addrOf off) 4 then
      let t := unpack3 (readQuad s.mem (addrOf off))
      ok (((s.setReg ra (patternOf t.v1)).setReg rb (patternOf t.v2)).setReg rc (patternOf t.v3))
    else raise s .bounds 0
  else raiseIllegal s

/-- The operand mask of `PK3`: bit 0 for `v1`, bit 1 for `v2`, bit 2 for `v3` (43_system.md R91). -/
def packMask (v1 v2 v3 : Int) : Nat :=
  maskBit (!inRange v1 0 127) 0 + maskBit (!inRange v2 0 127) 1 + maskBit (!inRange v3 0 127) 2

/-- `PK3 ra, rb, rc, off` (43_system.md R91): `OPERAND` before `BOUNDS`. -/
def execPk3 (ra rb rc : Reg) (off : BitVec 10) (s : State) : Host.Outcome State Fault Refusal :=
  let v1 := sval (s.reg ra)
  let v2 := sval (s.reg rb)
  let v3 := sval (s.reg rc)
  if packMask v1 v2 v3 = 0 then
    rawWriteQuad s (addrOf off) (pack3 ⟨v1.toNat, v2.toNat, v3.toNat⟩)
  else raise s .operand (subCode (packMask v1 v2 v3))

/-! ### Program maps -/

/-- The address of the group that holds position `q` of the map at `base` (43_system.md R93). -/
def groupAddr (base q : Nat) : Nat := base + 4 * (q / 3)

/-- The entry at position `q` of the map at `base` (43_system.md R93, R94). -/
def mapEntry (s : State) (base q : Nat) : Nat :=
  getLane s.cfg.laneOrder (unpack3 (readQuad s.mem (groupAddr base q))) (q % 3)

/-- Store an entry at position `q`: all three sub-values of its group re-derived (43_system.md R95). -/
def mapUpdate (s : State) (base q v : Nat) : Host.Outcome State Fault Refusal :=
  updateQuad s (groupAddr base q)
    (pack3 (setLane s.cfg.laneOrder (unpack3 (readQuad s.mem (groupAddr base q))) (q % 3) v))

/-- The position of incoming program `i` in 1..127 (43_system.md R93). -/
def inPosition (i : Int) : Nat := (i - 1).toNat

/-- The position of preset number `i` in 31..90 (43_system.md R93). -/
def outPosition (i : Int) : Nat := (i - Config.presetMin).toNat

/-- `PMIGET ra, rb` (43_system.md R94). -/
def execPmiget (ra rb : Reg) (s : State) : Host.Outcome State Fault Refusal :=
  if s.kind ≠ .system then raise s .state 2
  else if inRange (sval (s.reg rb)) 1 Config.pmapInCount then
    let v := mapEntry s s.cfg.pmapInBase (inPosition (sval (s.reg rb)))
    okFlag (s.setReg ra (patternOf v)) (v != s.cfg.pmapUnmapped)
  else raise s .index 0

/-- `PMISET ra, rb` (43_system.md R95). -/
def execPmiset (ra rb : Reg) (s : State) : Host.Outcome State Fault Refusal :=
  let i := sval (s.reg ra)
  let v := sval (s.reg rb)
  if s.kind ≠ .system then raise s .state 2
  else if inRange i 1 Config.pmapInCount then
    if inRange v Config.presetMin Config.presetMax then
      mapUpdate s s.cfg.pmapInBase (inPosition i) v.toNat
    else raise s .fieldRange (subCode (maskBit true 1))
  else raise s .index 0

/-- `PMOGET ra, rb` (43_system.md R96). -/
def execPmoget (ra rb : Reg) (s : State) : Host.Outcome State Fault Refusal :=
  if s.kind ≠ .system then raise s .state 2
  else if inRange (sval (s.reg rb)) Config.presetMin Config.presetMax then
    writeReg s ra (patternOf (mapEntry s s.cfg.pmapOutBase (outPosition (sval (s.reg rb)))))
  else raise s .index 0

/-- `PMOSET ra, rb` (43_system.md R97). -/
def execPmoset (ra rb : Reg) (s : State) : Host.Outcome State Fault Refusal :=
  let i := sval (s.reg ra)
  let v := sval (s.reg rb)
  if s.kind ≠ .system then raise s .state 2
  else if inRange i Config.presetMin Config.presetMax then
    if inRange v 0 127 then
      mapUpdate s s.cfg.pmapOutBase (outPosition i) v.toNat
    else raise s .fieldRange (subCode (maskBit true 1))
  else raise s .index 0

/-! ### Pedal calibration -/

/-- `PEDAL_OFF[k]` (43_system.md R98). -/
def pedalAddr (c : Cfg) (k : BitVec 2) : Nat := c.pedalOff[k.toFin]

/-- `PEDGET ra, k` (43_system.md R99): percentages clamped, the parameter id not. -/
def execPedget (ra : Reg) (k : BitVec 2) (s : State) : Host.Outcome State Fault Refusal :=
  if s.kind ≠ .system then raise s .state 2
  else
    let r : Int := dec28 (readQuad s.mem (pedalAddr s.cfg k))
    writeReg s ra (patternOf (if k = 0 then r else clamp r 0 Config.pctMax))

/-- `PEDSET ra, k` (43_system.md R100): a percentage is clamped, the parameter id refused when not encodable. -/
def execPedset (ra : Reg) (k : BitVec 2) (s : State) : Host.Outcome State Fault Refusal :=
  let v := sval (s.reg ra)
  if s.kind ≠ .system then raise s .state 2
  else if k = 0 then
    if inRange v 0 Config.max28 then updateQuad s (pedalAddr s.cfg k) (enc28 v.toNat)
    else raise s .operand 1
  else updateQuad s (pedalAddr s.cfg k) (enc28 (clamp v 0 Config.pctMax).toNat)

end Sys2Proof.Machine
end

