-- ==== Sys2Proof/Machine/Varint.lean ====
section
/-! DEFINITION. The VarEncoding commands `DEC28`, `ENC28`, `DECSO`, `ENCSO` (40_varint.md). -/

namespace Sys2Proof.Machine

/-- `DEC28 ra, off` (40_varint.md R54). -/
def execDec28 (ra : Reg) (off : BitVec 10) (s : State) : Host.Outcome State Fault Refusal :=
  if s.admits (addrOf off) 4 then
    writeReg s ra (patternOf (dec28 (readQuad s.mem (addrOf off))))
  else raise s .bounds 0

/-- `ENC28 ra, off` (40_varint.md R55): `OPERAND` before `BOUNDS`. -/
def execEnc28 (ra : Reg) (off : BitVec 10) (s : State) : Host.Outcome State Fault Refusal :=
  if inRange (sval (s.reg ra)) 0 Config.max28 then
    rawWriteQuad s (addrOf off) (enc28 (sval (s.reg ra)).toNat)
  else raise s .operand 1

/-- `DECSO ra, rb, rc, off` (40_varint.md R56); `rb` the declared minimum, `rc` the declared maximum. -/
def execDecso (ra rb rc : Reg) (off : BitVec 10) (s : State) : Host.Outcome State Fault Refusal :=
  if s.admits (addrOf off) 4 then
    writeReg s ra
      (patternOf (decSO (dec28 (readQuad s.mem (addrOf off))) (sval (s.reg rb)) (sval (s.reg rc))))
  else raise s .bounds 0

/-- `ENCSO ra, off` (40_varint.md R57): `OPERAND` before `BOUNDS`. -/
def execEncso (ra : Reg) (off : BitVec 10) (s : State) : Host.Outcome State Fault Refusal :=
  if inRange (rawSO (sval (s.reg ra))) 0 Config.max28 then
    rawWriteQuad s (addrOf off) (encSO (sval (s.reg ra)))
  else raise s .operand 1

end Sys2Proof.Machine
end

