-- ==== Sys2Proof/Machine/Dispatch.lean ====
section
/-! DEFINITION. One arm per command: its meaning (30_encoding.md R43, fifth column). -/

namespace Sys2Proof.Machine

def exec (i : Instr) (s : State) : Host.Outcome State Fault Refusal :=
  match i with
  | .nop => Sys2Proof.Machine.execNop s
  | .ldi ra imm32 => Sys2Proof.Machine.execLdi ra imm32 s
  | .ldb ra off => Sys2Proof.Machine.execLdb ra off s
  | .stb ra off => Sys2Proof.Machine.execStb ra off s
  | .rdcr ra crn => Sys2Proof.Machine.execRdcr ra crn s
  | .wrcr ra => Sys2Proof.Machine.execWrcr ra s
  | .srst => Sys2Proof.Machine.execSrst s
  | .dec28 ra off => Sys2Proof.Machine.execDec28 ra off s
  | .enc28 ra off => Sys2Proof.Machine.execEnc28 ra off s
  | .decso ra rb rc off => Sys2Proof.Machine.execDecso ra rb rc off s
  | .encso ra off => Sys2Proof.Machine.execEncso ra off s
  | .csum ra lo hi => Sys2Proof.Machine.execCsum ra lo hi s
  | .csvp ra => Sys2Proof.Machine.execCsvp ra s
  | .csvs ra => Sys2Proof.Machine.execCsvs ra s
  | .csfp => Sys2Proof.Machine.execCsfp s
  | .csfs => Sys2Proof.Machine.execCsfs s
  | .pdec => Sys2Proof.Machine.execPdec s
  | .penc ra => Sys2Proof.Machine.execPenc ra s
  | .pfld ra fid => Sys2Proof.Machine.execPfld ra fid s
  | .rdvl ra n w => Sys2Proof.Machine.execRdvl ra n w s
  | .sdec => Sys2Proof.Machine.execSdec s
  | .senc ra => Sys2Proof.Machine.execSenc ra s
  | .ccget ra rb rc => Sys2Proof.Machine.execCcget ra rb rc s
  | .ccset ra rb rc => Sys2Proof.Machine.execCcset ra rb rc s
  | .unpk3 ra rb rc off => Sys2Proof.Machine.execUnpk3 ra rb rc off s
  | .pk3 ra rb rc off => Sys2Proof.Machine.execPk3 ra rb rc off s
  | .pmiget ra rb => Sys2Proof.Machine.execPmiget ra rb s
  | .pmiset ra rb => Sys2Proof.Machine.execPmiset ra rb s
  | .pmoget ra rb => Sys2Proof.Machine.execPmoget ra rb s
  | .pmoset ra rb => Sys2Proof.Machine.execPmoset ra rb s
  | .pedget ra k => Sys2Proof.Machine.execPedget ra k s
  | .pedset ra k => Sys2Proof.Machine.execPedset ra k s

end Sys2Proof.Machine
end

