-- ==== Sys2Proof/Machine/HostPort.lean ====
section
/-! DEFINITION. What a command word and each host action do to the unit (30_encoding.md R46, 70_reset_and_hazards.md
R126). There is one host (log 16). -/

namespace Sys2Proof.Machine

/-- The unit executes one command word: the command it decodes to, or `ILLEGAL` (30_encoding.md R44, R46). -/
def issueWord (w : CommandWord) (s : State) : Host.Outcome State Fault Refusal :=
  match decode w with
  | .ok i => exec i s
  | .error _ => raiseIllegal s

/-- `HostWriteBuf(a, b)`: not checked against `LEN`; `STATUS` unchanged. -/
def hostWriteBuf (a : Fin 528) (b : Byte) (s : State) : State := s.rawWrite (writeCell s.mem a b)

/-- `HostWriteLen(n)`: `STATUS` unchanged. -/
def hostWriteLen (n : Fin 529) (s : State) : State := (s.setLen n).setKind .none

/-- `HostWriteReg(i, v)`. -/
def hostWriteReg (i : Reg) (v : Word) (s : State) : State := s.setReg i v

/-- One host action (70_reset_and_hazards.md R126). `HostRead` changes nothing (log 11). -/
def performAction (a : HostAction) (s : State) : Host.Outcome State Fault Refusal :=
  match a with
  | .issue w => issueWord w s
  | .writeBuf a b => .next (hostWriteBuf a b s)
  | .writeLen n => .next (hostWriteLen n s)
  | .writeReg i v => .next (hostWriteReg i v s)
  | .read => .next s
  | .reset => .next s.resetUnit

/-- The next host action taken from the host's list and performed; when the host issues nothing more, nothing
changes (70_reset_and_hazards.md R127; log 4). -/
def runHost (s : State) : Host.Outcome State Fault Refusal :=
  match s.host with
  | [] => .next s
  | a :: rest => performAction a (s.setHost rest)

end Sys2Proof.Machine
end

