-- ==== Sys2Proof/Machine/Step.lean ====
section
/-! DEFINITION. One step: the next command or host action (00_scope.md R10), under a configuration that passes
`wfCfg` (00_scope.md R6). There is no timing (70_reset_and_hazards.md R125; log 17). -/

namespace Sys2Proof.Machine

/-- One step of the machine. A configuration that fails `wfCfg` is refused (00_scope.md R6; log 5). -/
def step (s : State) : Host.Outcome State Fault Refusal :=
  if wfCfg s.cfg then runHost s else .refused .illFormedConfig

/-- The state with a command word placed where the next step takes its command from: issued by the host before
everything else it still has to do (log 3). -/
def State.withFetchWord (s : State) (nbits w : Nat) : State :=
  s.setHost (.issue (tableWord nbits w) :: s.host)

end Sys2Proof.Machine
end

