-- ==== Sys2Proof/Machine/DeviceTable.lean ====
section
/-! DEFINITION. What the source fixes of the device's own field table (42_preset.md R70). A table entry says nothing of
its own meaning, so a table that claims to be the device's comes with a claim: which entry is which field, and the
codes of the three types. No command reads any of this (log 18). -/

namespace Sys2Proof.Machine

/-! ### The claim -/

/-- The blocks of 42_preset.md R70 (a); the first four are the parts of the global block, each held as a block of its own
(DESIGN CHOICE, log 18). -/
inductive Block where
  | tempo | routing | outputLevels | pedalMapping
  | compressor | drive | boost | modulation | delay | reverb | gate | eq | pitch
  deriving DecidableEq, Repr

/-- Every block. -/
def allBlocks : List Block :=
  [.tempo, .routing, .outputLevels, .pedalMapping, .compressor, .drive, .boost, .modulation, .delay, .reverb, .gate,
    .eq, .pitch]

/-- The codes of the modulation type (R70 c). The source gives none of them. -/
structure ModulationCodes where
  chorus  : Int
  flanger : Int
  phaser  : Int
  tremolo : Int
  vibrato : Int
  panner  : Int
  deriving DecidableEq, Repr

/-- The codes of the delay type (R70 e); analog/tape is one value (log 18). -/
structure DelayCodes where
  dual       : Int
  pingPong   : Int
  analogTape : Int
  dynamic    : Int
  deriving DecidableEq, Repr

/-- The five entries the delay type governs (R70 e), by field id. -/
structure DelayFields where
  tempo2OrWidth   : Nat
  clipOrFeedback2 : Nat
  offsetOrPan1    : Nat
  senseOrPan2     : Nat
  release         : Nat
  deriving DecidableEq, Repr

/-- The codes of the pitch type (R70 f); `others` are its remaining values. -/
structure PitchCodes where
  intelligent : Int
  octaver     : Int
  whammy      : Int
  others      : List Int
  deriving DecidableEq, Repr

/-- The entries the pitch type governs (R70 f), by field id. R70 (f) quotes five names and gives no count of entries:
each name stands for one entry or more (DESIGN CHOICE, log 18). -/
structure PitchFields where
  voices             : List Nat
  feedbackOrKeyScale : List Nat
  level2             : List Nat
  direction          : List Nat
  range              : List Nat
  deriving DecidableEq, Repr

/-- What is claimed of a table beside its entries. Entries are named by field id. -/
structure DeviceClaim where
  /-- the block of each entry, by field id (R70 a) -/
  blocks          : List Block
  /-- the entry `tapTempo` (R70 b) -/
  tapTempo        : Nat
  /-- the modulation type (R70 c) -/
  modType         : Nat
  modCodes        : ModulationCodes
  /-- modulation "delay-or-range" (R70 d) -/
  modDelayOrRange : Nat
  /-- the delay type (R70 e) -/
  delayType       : Nat
  delayCodes      : DelayCodes
  delayFields     : DelayFields
  /-- the pitch type (R70 f) -/
  pitchType       : Nat
  pitchCodes      : PitchCodes
  pitchFields     : PitchFields
  /-- the signed dB and percentage fields (R70 g); which they are is not in the source -/
  signedFields    : List Nat
  deriving DecidableEq, Repr

/-- The six codes of the modulation type. -/
def ModulationCodes.toList (k : ModulationCodes) : List Int :=
  [k.chorus, k.flanger, k.phaser, k.tremolo, k.vibrato, k.panner]

/-- The four codes of the delay type. -/
def DelayCodes.toList (k : DelayCodes) : List Int := [k.dual, k.pingPong, k.analogTape, k.dynamic]

/-- The five entries of the delay type. -/
def DelayFields.toList (f : DelayFields) : List Nat :=
  [f.tempo2OrWidth, f.clipOrFeedback2, f.offsetOrPan1, f.senseOrPan2, f.release]

/-- The codes of the pitch type. -/
def PitchCodes.toList (k : PitchCodes) : List Int := k.intelligent :: k.octaver :: k.whammy :: k.others

/-- The entries of each quoted name of R70 (f). -/
def PitchFields.names (f : PitchFields) : List (List Nat) :=
  [f.voices, f.feedbackOrKeyScale, f.level2, f.direction, f.range]

/-! ### Reading a table -/

/-- There is an entry of this field id, and the test holds of it. -/
def holdsAt (t : List FieldEntry) (fid : Nat) (p : FieldEntry → Bool) : Bool :=
  match t[fid]? with
  | some e => p e
  | none => false

/-- The cases of an entry, none when nothing governs it (42_preset.md R67). -/
def casesOf (e : FieldEntry) : List Case :=
  match e.disc with
  | .none => []
  | .by _ cases => cases

/-- Every variant an entry can be read under. -/
def variantsOf (e : FieldEntry) : List Variant := e.dflt :: (casesOf e).map Case.var

/-- Is the entry governed by entry `j`? -/
def governedBy (j : Nat) (e : FieldEntry) : Bool :=
  match e.disc with
  | .none => false
  | .by k _ => k == j

/-- The condition the mux selects when the governing value is `d` (42_preset.md R68). -/
def conditionFor (e : FieldEntry) (d : Int) : Cond := (firstCase d e.dflt (casesOf e)).cond

/-- A case selects `d`, and the first that does has condition `c`. -/
def caseCondition (e : FieldEntry) (d : Int) (c : Cond) : Bool :=
  (casesOf e).any (fun k => k.sel.contains d) && conditionFor e d == c

/-- Can the variant read `d` from some bytes? A plain field reads 0 .. 2^28-1 (40_varint.md R49); a signed one every
value of its declared range (42_preset.md R69 e). -/
def readsValue (v : Variant) (d : Int) : Bool :=
  match v.enc with
  | .plain => inRange d 0 Config.max28
  | .signed => true

/-- Is `d` a value that entry `j` admits: one it can read, and that passes? -/
def admitsValue (t : List FieldEntry) (j : Nat) (d : Int) : Bool :=
  holdsAt t j fun e => (variantsOf e).any fun v => readsValue v d && passes v.cond d

/-- Entry `j` is a type with these values: all different, and all admitted. -/
def isType (t : List FieldEntry) (j : Nat) (codes : List Int) : Bool :=
  decide codes.Nodup && codes.all (admitsValue t j)

/-- Is the condition a range? -/
def isRange : Cond → Bool
  | .range _ _ => true
  | .equal _ => false

/-- All the conditions of a list are one. -/
def allSame : List Cond → Bool
  | [] => true
  | c :: cs => cs.all (· == c)

/-- The condition is one on the codes `xs`, one on the codes `ys`, and not the same on both: two regimes. -/
def switches (e : FieldEntry) (xs ys : List Int) : Bool :=
  allSame (xs.map (conditionFor e)) && allSame (ys.map (conditionFor e))
    && (xs.map (conditionFor e)).head? != (ys.map (conditionFor e)).head?

/-! ### The parts of 42_preset.md R70 -/

/-- R70 (a): about 80 entries, each in a block, and no block empty. How far from 80 "about 80" reaches is not in the
spec, so it is an argument: `slack`. DESIGN CHOICE (log 18): an entry is in one block, and no block, nor any of the four
parts of the global block, is empty. -/
def blocksAgree (slack : Nat) (t : List FieldEntry) (c : DeviceClaim) : Bool :=
  80 ≤ t.length + slack && t.length ≤ 80 + slack && c.blocks.length == t.length
    && allBlocks.all fun b => c.blocks.contains b

/-- The entry is claimed to be in this block. -/
def inBlock (c : DeviceClaim) (b : Block) (fid : Nat) : Bool := c.blocks[fid]? == some b

/-- R70 (b): `tapTempo` is plain with lower bound 100, in every variant. DESIGN CHOICE (log 18): that it
is a rule on every variant, and that `tapTempo` stands in the tempo part of the global block, which R70 does not say. -/
def tapTempoAgrees (t : List FieldEntry) (c : DeviceClaim) : Bool :=
  inBlock c .tempo c.tapTempo && holdsAt t c.tapTempo fun e =>
    (variantsOf e).all fun v => v.enc == .plain && isRange v.cond && (declaredRange v).1 == 100

/-- R70 (c): the modulation type has the six values. DESIGN CHOICE (log 18): it stands in the modulation block. -/
def modTypeAgrees (t : List FieldEntry) (c : DeviceClaim) : Bool :=
  inBlock c .modulation c.modType && isType t c.modType c.modCodes.toList

/-- R70 (d): modulation "delay-or-range" is governed by the modulation type, with the three pairs of cases.
DESIGN CHOICE (log 18): it stands in the modulation block. -/
def modDelayOrRangeAgrees (t : List FieldEntry) (c : DeviceClaim) : Bool :=
  inBlock c .modulation c.modDelayOrRange && holdsAt t c.modDelayOrRange fun e =>
    governedBy c.modType e
      && caseCondition e c.modCodes.chorus (.range 0 500) && caseCondition e c.modCodes.flanger (.range 0 500)
      && caseCondition e c.modCodes.phaser (.range 0 1) && caseCondition e c.modCodes.tremolo (.range 0 1)
      && caseCondition e c.modCodes.vibrato (.equal 0) && caseCondition e c.modCodes.panner (.equal 0)

/-- R70 (e) for one of the five entries: it is governed by the delay type, the delay types that use it have ranges, all
of them different, and wherever it is unused it must equal one and the same sentinel. DESIGN CHOICE: this reading of
"distinct valid range per delay type" (log 18). -/
def delayFieldAgrees (c : DeviceClaim) (e : FieldEntry) : Bool :=
  governedBy c.delayType e
    && (c.delayCodes.toList.map (conditionFor e)).any isRange
    && decide ((c.delayCodes.toList.map (conditionFor e)).filter isRange).Nodup
    && allSame (((variantsOf e).map Variant.cond).filter fun k => !isRange k)

/-- R70 (e): the delay type has the four values and governs five entries. DESIGN CHOICE (log 18): all six stand in the
delay block. -/
def delayAgrees (t : List FieldEntry) (c : DeviceClaim) : Bool :=
  inBlock c .delay c.delayType && isType t c.delayType c.delayCodes.toList && decide c.delayFields.toList.Nodup
    && c.delayFields.toList.all fun i => inBlock c .delay i && holdsAt t i (delayFieldAgrees c)

/-- The entry switches between `intelligent` and the other pitch types. -/
def switchesOnIntelligent (k : PitchCodes) (e : FieldEntry) : Bool :=
  switches e [k.intelligent] (k.octaver :: k.whammy :: k.others)

/-- The entry switches between `octaver`, `whammy` and the other pitch types. -/
def switchesOnOctaverWhammy (k : PitchCodes) (e : FieldEntry) : Bool :=
  switches e [k.octaver, k.whammy] (k.intelligent :: k.others)

/-- R70 (f) for one entry: governed by the pitch type, with two regimes of one of the two kinds. Which kind is not in
the source; DESIGN CHOICE: that it is one of them (log 18). -/
def pitchFieldAgrees (c : DeviceClaim) (e : FieldEntry) : Bool :=
  governedBy c.pitchType e && (switchesOnIntelligent c.pitchCodes e || switchesOnOctaverWhammy c.pitchCodes e)

/-- R70 (f): the pitch type has the three values and others, governs an entry for each quoted name, and both kinds of
switch occur. DESIGN CHOICE (log 18): they all stand in the pitch block. -/
def pitchAgrees (t : List FieldEntry) (c : DeviceClaim) : Bool :=
  inBlock c .pitch c.pitchType && isType t c.pitchType c.pitchCodes.toList && !c.pitchCodes.others.isEmpty
    && c.pitchFields.names.all (fun n => !n.isEmpty) && decide c.pitchFields.names.flatten.Nodup
    && (c.pitchFields.names.flatten.all fun i => inBlock c .pitch i && holdsAt t i (pitchFieldAgrees c))
    && (c.pitchFields.names.flatten.any fun i => holdsAt t i (switchesOnIntelligent c.pitchCodes))
    && (c.pitchFields.names.flatten.any fun i => holdsAt t i (switchesOnOctaverWhammy c.pitchCodes))

/-- R70 (g): a signed dB or percentage field is `SIGNED` in every variant. -/
def signedFieldsAgree (t : List FieldEntry) (c : DeviceClaim) : Bool :=
  c.signedFields.all fun i => holdsAt t i fun e => (variantsOf e).all fun v => v.enc == .signed

/-- The table agrees with all of 42_preset.md R70 under the claim `c`. -/
structure DeviceRows (slack : Nat) (t : List FieldEntry) (c : DeviceClaim) : Prop where
  blocks          : blocksAgree slack t c = true
  tapTempo        : tapTempoAgrees t c = true
  modType         : modTypeAgrees t c = true
  modDelayOrRange : modDelayOrRangeAgrees t c = true
  delay           : delayAgrees t c = true
  pitch           : pitchAgrees t c = true
  signed          : signedFieldsAgree t c = true

end Sys2Proof.Machine
end

