-- ==== Sys2Proof/Safety.lean ====
section
/-! DEFINITION. The terms the claims are stated in: how a command ended (60_exceptions.md R111), what a command left
alone, which commands write what (10_state.md), which class a command can end with (60_exceptions.md R114), and the
invariant every step keeps (10_state.md R15 to R22). -/

namespace Sys2Proof.Machine

/-! ### How a command ended -/

/-- From `s`, the command ended `ok` in `t` with flag `a`: `EC = 0`, `SC = 0`, `STK` as before (60_exceptions.md
R111). -/
structure EndsOk (s t : State) (a : Bool) : Prop where
  ec  : statusEc t.status = 0
  sc  : statusSc t.status = 0
  a   : statusA t.status = a
  stk : statusStk t.status = statusStk s.status

/-- The command ended in `t` with class `c` and sub-code `sc` (60_exceptions.md R111). -/
structure EndsErr (t : State) (c : ErrClass) (sc : BitVec 8) : Prop where
  ec  : statusEc t.status = errCode c
  sc  : statusSc t.status = sc
  a   : statusA t.status = false
  stk : statusStk t.status = true

/-! ### What a command left alone -/

/-- Every register but those listed is unchanged. -/
def RegsKept (s t : State) (except : List Reg) : Prop := ∀ r, r ∉ except → t.reg r = s.reg r

/-- Every cell of the buffer outside `except` reads as before. -/
def CellsKept (s t : State) (except : Nat → Prop) : Prop :=
  ∀ a, ¬ except a → readCell t.mem a = readCell s.mem a

/-- Every cell of the buffer reads as before. -/
def BufferKept (s t : State) : Prop := ∀ a, readCell t.mem a = readCell s.mem a

/-- The address lies among the `n` addresses from `a` on. -/
def InRun (a n b : Nat) : Prop := a ≤ b ∧ b < a + n

/-- What only `PDEC` and `SRST` write: `NUM`, `NAMELEN`, `NVIOL`, `FV`, `VL` (10_state.md R18 to R22). -/
structure ResultsKept (s t : State) : Prop where
  num     : t.num = s.num
  namelen : t.namelen = s.namelen
  nviol   : t.nviol = s.nviol
  fv      : t.fv = s.fv
  vl      : t.vl = s.vl

/-- What no command writes: the configuration (00_scope.md R10) and the host's own list (10_state.md R13), which stand
in `State` by the model's choice (log 1, log 3). -/
structure OutsideKept (s t : State) : Prop where
  cfg  : t.cfg = s.cfg
  host : t.host = s.host

/-- `LEN` and `KIND` are unchanged. -/
structure LatchKept (s t : State) : Prop where
  len  : t.len = s.len
  kind : t.kind = s.kind

/-- The command ended `ok` with flag `a`, wrote the registers listed and `STATUS`, and nothing else. -/
structure WroteRegs (s t : State) (dst : List (Reg × Word)) (a : Bool) : Prop where
  ends    : EndsOk s t a
  written : ∀ p ∈ dst, t.reg p.1 = p.2
  regs    : RegsKept s t (dst.map Prod.fst)
  buffer  : BufferKept s t
  latch   : LatchKept s t
  results : ResultsKept s t
  outside : OutsideKept s t

/-- The command ended with class `c` and sub-code `sc` and wrote nothing but `STATUS` (60_exceptions.md R112). -/
structure FailedOnly (s t : State) (c : ErrClass) (sc : BitVec 8) : Prop where
  ends    : EndsErr t c sc
  regs    : RegsKept s t []
  buffer  : BufferKept s t
  latch   : LatchKept s t
  results : ResultsKept s t
  outside : OutsideKept s t

/-- The command ended `ok`, stored the bytes listed from address `a` on, changed no other cell but those of `extra`,
left `KIND` at `k`, and wrote nothing else but `STATUS`. -/
structure StoredBytes (s t : State) (a : Nat) (bytes : List Byte) (extra : Nat → Prop) (k : Kind) : Prop where
  ends    : EndsOk s t false
  stored  : ∀ j (h : j < bytes.length), readCell t.mem (a + j) = bytes[j]
  others  : CellsKept s t fun b => InRun a bytes.length b ∨ extra b
  kind    : t.kind = k
  len     : t.len = s.len
  regs    : RegsKept s t []
  results : ResultsKept s t
  outside : OutsideKept s t

/-- The four bytes of a field or group, lowest address first. -/
def quadBytes (q : Quad) : List Byte := [q.b0, q.b1, q.b2, q.b3]

/-! ### The messages -/

/-- The conditions on the header bytes both messages share, by sub-code 2 to 7 (42_preset.md R73, 43_system.md R81);
`last` is the address of the frame end and `sub` the sub-type byte. -/
def headerCondition (m : Memory) (last : Nat) (sub : Byte) : Nat → Prop
  | 2 => readCell m 0 = 0xF0
  | 3 => readCell m last = 0xF7
  | 4 => readCell m 1 = 0x00 ∧ readCell m 2 = 0x20 ∧ readCell m 3 = 0x1F
  | 5 => readCell m 5 = 0x63
  | 6 => readCell m 6 = 0x20
  | 7 => readCell m 7 = sub
  | _ => True

/-- The condition of sub-code `sc` in 1..7 for a preset message (42_preset.md R73). -/
def presetCondition (s : State) (sc : Nat) : Prop :=
  if sc = 1 then s.len.toNat = 520 ∨ s.len.toNat = 521 else headerCondition s.mem 519 0x01 sc

/-- The condition of sub-code `sc` in 1..7 for a system dump (43_system.md R81). -/
def systemCondition (s : State) (sc : Nat) : Prop :=
  if sc = 1 then s.len.toNat = 527 ∨ s.len.toNat = 526 else headerCondition s.mem (s.len.toNat - 1) 0x02 sc

/-- `n` is the trimmed length of the name field (42_preset.md R74): the largest in 0..24 such that it is 0 or the
byte before it is neither a space nor a NUL. -/
structure IsNameLength (m : Memory) (n : Nat) : Prop where
  le      : n ≤ 24
  kept    : n = 0 ∨ (readCell m (10 + n - 1) ≠ 0x20 ∧ readCell m (10 + n - 1) ≠ 0x00)
  largest : ∀ k, n < k → k ≤ 24 → readCell m (10 + k - 1) = 0x20 ∨ readCell m (10 + k - 1) = 0x00

/-- The stored system checksum is the checksum of its window, which is what `CSVS` tests (41_checksum.md R63). -/
def SystemSumRight (s : State) : Prop :=
  (readCell s.mem s.cfg.sysCsumPos).toNat = csum (readWindow s.mem s.cfg.sysCsumLo s.cfg.sysCsumHi)

/-! ### Which commands write what -/

/-- The raw write commands (20_memory.md R36). `WRCR` is raw too: it writes `LEN`. -/
def isRawWrite : Instr → Bool
  | .stb _ _ | .enc28 _ _ | .encso _ _ | .pk3 _ _ _ _ | .csfp | .csfs | .wrcr _ => true
  | _ => false

/-- The system update commands (20_memory.md R36, 43_system.md R84). -/
def isSystemUpdate : Instr → Bool
  | .ccset _ _ _ | .pmiset _ _ | .pmoset _ _ | .pedset _ _ => true
  | _ => false

/-- The commands that write `BUF` (10_state.md R23), and `SRST`, which resets it (44_housekeeping.md R107). -/
def writesBuffer : Instr → Bool
  | .stb _ _ | .enc28 _ _ | .encso _ _ | .pk3 _ _ _ _ | .csfp | .csfs => true
  | .ccset _ _ _ | .pmiset _ _ | .pmoset _ _ | .pedset _ _ => true
  | .srst => true
  | _ => false

/-- The registers marked `d` in 30_encoding.md R43; `SRST` writes them all (44_housekeeping.md R107). -/
def destinations : Instr → List Reg
  | .ldi ra _ | .ldb ra _ | .rdcr ra _ | .dec28 ra _ | .decso ra _ _ _ | .csum ra _ _ | .csvp ra | .csvs ra
  | .penc ra | .pfld ra _ | .rdvl ra _ _ | .senc ra | .pmiget ra _ | .pmoget ra _ | .pedget ra _ => [ra]
  | .ccget ra rb _ => [ra, rb]
  | .unpk3 ra rb rc _ => [ra, rb, rc]
  | .srst => List.finRange 16
  | .nop | .stb _ _ | .wrcr _ | .enc28 _ _ | .encso _ _ | .csfp | .csfs | .pdec | .sdec | .ccset _ _ _ | .pk3 _ _ _ _
  | .pmiset _ _ | .pmoset _ _ | .pedset _ _ => []

/-- Which command can end with which class (60_exceptions.md R114). `ILLEGAL` belongs to the word. -/
def mayRaise (i : Instr) : ErrClass → Bool
  | .structural => match i with
    | .pdec | .sdec => true
    | _ => false
  | .fieldRange => match i with
    | .pdec | .ccset _ _ _ | .pmiset _ _ | .pmoset _ _ => true
    | _ => false
  | .index => match i with
    | .pfld _ _ | .rdvl _ _ _ | .ccget _ _ _ | .ccset _ _ _ | .pmiget _ _ | .pmoget _ _ | .pmiset _ _
    | .pmoset _ _ => true
    | _ => false
  | .bounds => match i with
    | .ldb _ _ | .stb _ _ | .dec28 _ _ | .decso _ _ _ _ | .enc28 _ _ | .encso _ _ | .csum _ _ _ | .csvp _ | .csvs _
    | .csfp | .csfs | .unpk3 _ _ _ _ | .pk3 _ _ _ _ => true
    | _ => false
  | .operand => match i with
    | .stb _ _ | .wrcr _ | .enc28 _ _ | .encso _ _ | .pk3 _ _ _ _ => true
    | .pedset _ k => k == 0
    | _ => false
  | .state => match i with
    | .penc _ | .pfld _ _ | .senc _ | .ccget _ _ _ | .ccset _ _ _ | .pmiget _ _ | .pmoget _ _ | .pmiset _ _
    | .pmoset _ _ | .pedget _ _ | .pedset _ _ => true
    | _ => false
  | .illegal | .identityMismatch => false

/-! ### The invariant -/

/-- The buffer is in canonical form and `LEN` is at most 528 (10_state.md R16, R23). -/
structure BufferLegal (s : State) : Prop where
  mem : memoryWf s.mem = true
  len : s.len.toNat ≤ 528

/-- `STATUS` is `OK` with sub-code 0, or holds one of the classes a command raises with `A = 0` and `STK = 1`
(60_exceptions.md R109, R111). -/
def StatusLegal (st : BitVec 14) : Prop :=
  (statusEc st = 0 ∧ statusSc st = 0) ∨
  (∃ c, c ≠ .identityMismatch ∧ statusEc st = errCode c ∧ statusA st = false ∧ statusStk st = true)

/-- What `KIND = PRESET` means (10_state.md R17, 42_preset.md R66). -/
structure PresetLatched (s : State) : Prop where
  len        : s.len.toNat = 520
  structural : firstFailure (presetChecks s) = none
  valid      : (decodeFields s.mem s.cfg.fieldTable).violations = []
  fv         : s.fv = (decodeFields s.mem s.cfg.fieldTable).values.map patternOf
  num        : s.num = readCell s.mem 8
  namelen    : s.namelen.toNat = nameLength s.mem 24

/-- What `KIND = SYSTEM` means (10_state.md R17): the length and the structural checks. -/
structure SystemLatched (s : State) : Prop where
  len        : s.len.toNat = 526 ∨ s.len.toNat = 527
  structural : firstFailure (systemChecks s) = none

/-- The invariant every step keeps: what 10_state.md R15 to R22 say each register may hold, under a configuration
that passes `wfCfg`. -/
structure Inv (s : State) : Prop where
  cfg     : wfCfg s.cfg = true
  buffer  : BufferLegal s
  status  : StatusLegal s.status
  namelen : s.namelen.toNat ≤ 24
  nviol   : s.nviol.toNat ≤ s.cfg.nf
  fv      : s.fv.length = s.cfg.nf
  vl      : s.vl.length = s.cfg.nf
  preset  : s.kind = .preset → PresetLatched s
  system  : s.kind = .system → SystemLatched s

end Sys2Proof.Machine
end

