-- ==== Sys2Proof/Certificates/Slice0/Obligations.lean ====
section
/-! DEFINITION. The statements for the provers, in the order of OBLIGATIONS.json. Each docstring names the rule of
spec/ it formalises; a statement that rests on a choice of the model says so and names the log entry. -/

open Sys2Proof Sys2Proof.Machine

/-! ### Command words (30_encoding.md) -/

/-- Decoding the word of a well-formed instruction gives the instruction back, whatever its operands
(30_encoding.md R41, R42, R43, R46). -/
def Obligations.DecodeInvertsEncode : Prop := ∀ i : Instr, i.wf = true → decode (encode i) = .ok i

/-- A word decodes to at most one command and is then exactly that command's word, so no bit of it is ignored
(30_encoding.md R44, R46). -/
def Obligations.EncodeInvertsDecode : Prop :=
  ∀ (w : CommandWord) (i : Instr), decode w = .ok i → encode i = w ∧ i.wf = true

/-- The 224 reserved opcodes are refused (R44 a), and a word whose bits 43:32 are not all 0 is refused (R44 b). The
name `reservedOpcode` of the first refusal is the model's choice (log 14): the unit does not say why a word is
`ILLEGAL`. -/
def Obligations.ReservedWordsRefused : Prop :=
  (∀ w : CommandWord,
    (0x07 ≤ (fieldOp w).toNat ∧ (fieldOp w).toNat ≤ 0x0F) ∨ (0x14 ≤ (fieldOp w).toNat ∧ (fieldOp w).toNat ≤ 0x1F) ∨
    (0x25 ≤ (fieldOp w).toNat ∧ (fieldOp w).toNat ≤ 0x2F) ∨ (0x34 ≤ (fieldOp w).toNat ∧ (fieldOp w).toNat ≤ 0x3F) ∨
    0x4C ≤ (fieldOp w).toNat → decode w = .error .reservedOpcode) ∧
  (∀ w : CommandWord, wordField w 32 12 ≠ 0 → ∃ e, decode w = .error e)

/-- Words of 30_encoding.md section 6, one of each family, decode to the commands the spec writes beside them. -/
def Obligations.SpecWordsDecode : Prop :=
  decode 0x01100000FFFFFF9C#64 = .ok (.ldi 1 0xFFFFFF9C) ∧
  decode 0x1242300000000028#64 = .ok (.decso 4 2 3 40) ∧
  decode 0x2010000002040008#64 = .ok (.csum 1 8 516) ∧
  decode 0x3330000000000100#64 = .ok (.rdvl 3 0 1) ∧
  decode 0x4B10000000000003#64 = .ok (.pedset 1 3)

/-! ### Steps and host actions (00_scope.md R6, R10; 70_reset_and_hazards.md R126, R127) -/

/-- A step whose next host action issues a word that decodes to `i` is `exec i`, with nothing around it but the
host's list moving on; a word placed by `withFetchWord` runs as the very next step (the list is the model's own:
log 3). -/
def Obligations.StepRunsDecodedCommand : Prop :=
  (∀ (s : State) (w : CommandWord) (rest : List HostAction) (i : Instr), wfCfg s.cfg = true →
    s.host = .issue w :: rest → decode w = .ok i → step s = exec i (s.setHost rest)) ∧
  (∀ (s : State) (nbits w : Nat) (i : Instr), wfCfg s.cfg = true → decodeTableWord nbits w = some i →
    step (s.withFetchWord nbits w) = exec i s)

/-- A word that is no command completes with `ILLEGAL` and sub-code 0, sets `STK`, and changes no other state
(30_encoding.md R44, 60_exceptions.md R112). -/
def Obligations.IllegalWordWritesOnlyStatus : Prop :=
  ∀ (s : State) (w : CommandWord) (rest : List HostAction) (e : IllegalWord), wfCfg s.cfg = true →
    s.host = .issue w :: rest → decode w = .error e →
    ∃ t, step s = .next t ∧ FailedOnly (s.setHost rest) t .illegal 0

/-- The host's write actions (R126): the cell, `LEN` or the register named, the latch cleared by the first two,
`STATUS` untouched (the list `host` they are taken from is the model's own: log 3). -/
def Obligations.HostWritesDoWhatTheySay : Prop :=
  (∀ (s : State) (a : Fin 528) (b : Byte) (rest : List HostAction), wfCfg s.cfg = true → BufferLegal s →
    s.host = .writeBuf a b :: rest →
    ∃ t, step s = .next t ∧ readCell t.mem a = b ∧ CellsKept s t (fun c => c = a) ∧ t.kind = .none ∧
      t.len = s.len ∧ t.status = s.status ∧ RegsKept s t [] ∧ ResultsKept s t ∧ t.cfg = s.cfg ∧ t.host = rest) ∧
  (∀ (s : State) (n : Fin 529) (rest : List HostAction), wfCfg s.cfg = true → s.host = .writeLen n :: rest →
    ∃ t, step s = .next t ∧ t.len.toNat = n ∧ t.kind = .none ∧ BufferKept s t ∧ t.status = s.status ∧
      RegsKept s t [] ∧ ResultsKept s t ∧ t.cfg = s.cfg ∧ t.host = rest) ∧
  (∀ (s : State) (i : Reg) (v : Word) (rest : List HostAction), wfCfg s.cfg = true → s.host = .writeReg i v :: rest →
    ∃ t, step s = .next t ∧ t.reg i = v ∧ RegsKept s t [i] ∧ BufferKept s t ∧ LatchKept s t ∧ t.status = s.status ∧
      ResultsKept s t ∧ t.cfg = s.cfg ∧ t.host = rest)

/-- `HostRead` changes nothing (R126; that it is a step of its own is the model's choice, log 11), and when the host
issues nothing more the unit's state stays as it is (R127; that such a step exists is the model's choice, log 4). -/
def Obligations.ReadingAndIdlingChangeNothing : Prop :=
  (∀ (s : State) (rest : List HostAction), wfCfg s.cfg = true → s.host = .read :: rest →
    step s = .next (s.setHost rest)) ∧
  (∀ s : State, wfCfg s.cfg = true → s.host = [] → step s = .next s)

/-- A configuration that fails `wfCfg` is refused (00_scope.md R6; that the refusal comes at every step, whatever the
host does, is the model's reading, log 5); under any other a step always has a next state (60_exceptions.md R116 for
commands; that a step with nothing to do has one too is the model's choice, log 4). -/
def Obligations.OnlyIllFormedConfigurationsStop : Prop :=
  (∀ s : State, wfCfg s.cfg = false → step s = .refused .illFormedConfig) ∧
  (∀ s : State, wfCfg s.cfg = true → ∃ t, step s = .next t)

/-- Every command completes in every state: it ends `ok` or with an error class, and there is no third outcome
(60_exceptions.md R116). `SRST` ends `ok` with all of `STATUS` 0, `STK` too (44_housekeeping.md R107). -/
def Obligations.EveryCommandCompletes : Prop :=
  ∀ (i : Instr) (s : State), ∃ t, exec i s = .next t ∧
    ((i ≠ .srst ∧ ∃ a, EndsOk s t a) ∨ (i = .srst ∧ t.status = 0) ∨ (i ≠ .srst ∧ ∃ c sc, EndsErr t c sc))

/-! ### Reset (10_state.md R25; 70_reset_and_hazards.md R121, R122) -/

/-- `SRST` and the host's reset leave the same state, in which every piece of state of 10_state.md R11 is 0
(R25, R121, R122). That a reset also keeps the configuration and the host's pending list, which stand in `State` by the
model's choice (log 1, log 3), is the model's reading (log 15). -/
def Obligations.ResetsLeaveEverythingZero : Prop :=
  ∀ s : State, ∃ t, exec .srst s = .next t ∧ performAction .reset s = .next t ∧
    (∀ r, t.reg r = 0) ∧ t.status = 0 ∧ t.len = 0 ∧ t.kind = .none ∧ t.num = 0 ∧ t.namelen = 0 ∧ t.nviol = 0 ∧
    t.fv = List.replicate s.cfg.nf 0 ∧ t.vl = List.replicate s.cfg.nf ⟨0, 0, 0, 0, 0⟩ ∧
    (∀ a, readCell t.mem a = 0) ∧ OutsideKept s t

/-! ### The invariant -/

/-- The state after reset meets the invariant, and so does the reset state of every configuration that passes
`wfCfg` (that `State.reset` carries the default configuration is the model's choice, log 2). -/
def Obligations.ResetMeetsInvariant : Prop :=
  Inv State.reset ∧ ∀ (c : Cfg) (h : List HostAction), wfCfg c = true → Inv (State.resetWith c h)

/-- Every step keeps the invariant, from every state that meets it: the buffer keeps its canonical form, `LEN` stays at
most 528, `STATUS` stays legal, `FV` and `VL` keep their lengths, and `KIND` says what 10_state.md R17 says it means:
a latched preset passes every check with `NUM`, `NAMELEN` and `FV` as extracted, a latched dump passes its structural
checks (10_state.md R15 to R22, 42_preset.md R66). That `BUF`, `FV` and `VL` are lists with a canonical form or a fixed
length is how the model holds them (log 10, log 8). -/
def Obligations.StepKeepsInvariant : Prop := ∀ s t : State, Inv s → step s = .next t → Inv t

/-! ### Rules about all commands -/

/-- What a failed command leaves (60_exceptions.md R112): `STATUS` and nothing else, but for the three decode
failures. -/
def Obligations.FailedCommandsLeaveStateAlone : Prop :=
  (∀ (i : Instr) (s t : State), i ≠ .pdec → i ≠ .sdec → exec i s = .next t → statusEc t.status ≠ 0 →
    ∃ c sc, FailedOnly s t c sc) ∧
  (∀ s t : State, exec .pdec s = .next t → statusEc t.status = errCode .structural →
    t.kind = .none ∧ t.nviol = 0 ∧ t.num = s.num ∧ t.namelen = s.namelen ∧ t.fv = s.fv ∧ t.vl = s.vl ∧
    t.len = s.len ∧ RegsKept s t [] ∧ BufferKept s t ∧ OutsideKept s t) ∧
  (∀ s t : State, exec .pdec s = .next t → statusEc t.status = errCode .fieldRange →
    t.kind = .none ∧ t.len = s.len ∧ RegsKept s t [] ∧ BufferKept s t ∧ OutsideKept s t) ∧
  (∀ s t : State, exec .sdec s = .next t → statusEc t.status ≠ 0 →
    (∃ sc, EndsErr t .structural sc) ∧ t.kind = .none ∧ t.len = s.len ∧ ResultsKept s t ∧ RegsKept s t [] ∧
    BufferKept s t ∧ OutsideKept s t)

/-- Which command can end with which class (60_exceptions.md R114), from every state that meets the invariant. In
particular a table command never ends `BOUNDS` (20_memory.md R27). -/
def Obligations.ErrorClassTable : Prop :=
  ∀ (i : Instr) (s t : State), Inv s → i.wf = true → exec i s = .next t →
    statusEc t.status = 0 ∨ ∃ c, mayRaise i c = true ∧ statusEc t.status = errCode c

/-- Only the raw write commands, the system update commands and `SRST` change the buffer (10_state.md R23). -/
def Obligations.OnlyWritersChangeBuffer : Prop :=
  ∀ (i : Instr) (s t : State), exec i s = .next t → writesBuffer i = false → t.mem = s.mem

/-- A command changes no general register but those the opcode map marks as destinations (10_state.md R12,
30_encoding.md R43). -/
def Obligations.OnlyDestinationsChange : Prop :=
  ∀ (i : Instr) (s t : State), exec i s = .next t → RegsKept s t (destinations i)

/-- `LEN` is written by `PDEC`, `WRCR` and `SRST` alone; the latch is set to `PRESET` by `PDEC` alone and to `SYSTEM`
by `SDEC` alone, each only when it ends `ok` (10_state.md R16, R17). -/
def Obligations.LengthAndLatchWriters : Prop :=
  (∀ (i : Instr) (s t : State), exec i s = .next t → i ≠ .pdec → i ≠ .srst → (∀ ra, i ≠ .wrcr ra) →
    t.len = s.len) ∧
  (∀ (i : Instr) (s t : State), exec i s = .next t → t.kind = .preset → s.kind ≠ .preset →
    i = .pdec ∧ statusEc t.status = 0) ∧
  (∀ (i : Instr) (s t : State), exec i s = .next t → t.kind = .system → s.kind ≠ .system →
    i = .sdec ∧ statusEc t.status = 0)

/-- `NUM`, `NAMELEN`, `NVIOL`, `FV` and `VL` are written by `PDEC` and `SRST` alone (10_state.md R18 to R22). -/
def Obligations.OnlyDecodeWritesResults : Prop :=
  ∀ (i : Instr) (s t : State), exec i s = .next t → i ≠ .pdec → i ≠ .srst → ResultsKept s t

/-- `A` is 1 only after `CCGET` and `PMIGET` (10_state.md R24). -/
def Obligations.AssignedFlagWriters : Prop :=
  ∀ (i : Instr) (s t : State), exec i s = .next t → statusA t.status = true →
    (∃ ra rb rc, i = .ccget ra rb rc) ∨ (∃ ra rb, i = .pmiget ra rb)

/-- `STK` is set by every command that ends with `EC != 0`, and no command but `SRST` clears it (60_exceptions.md
R118). -/
def Obligations.StickyErrorRule : Prop :=
  (∀ (i : Instr) (s t : State), exec i s = .next t → statusEc t.status ≠ 0 → statusStk t.status = true) ∧
  (∀ (i : Instr) (s t : State), exec i s = .next t → i ≠ .srst → statusStk s.status = true →
    statusStk t.status = true) ∧
  (∀ (i : Instr) (s t : State), exec i s = .next t → statusEc t.status = 0 → i ≠ .srst →
    statusStk t.status = statusStk s.status) ∧
  (∀ s t : State, exec .srst s = .next t → statusStk t.status = false) ∧
  (∀ s t : State, performAction .reset s = .next t → statusStk t.status = false)

/-- No command's result depends on a flag, nor on the class and sub-code the command before left (10_state.md R24,
60_exceptions.md R118): with any other `STATUS` before it, a command leaves the same state and the same `EC`, `SC` and
`A`. Only `RDCR` of `STATUS` reads them. -/
def Obligations.StatusSteersNoCommand : Prop :=
  ∀ (i : Instr) (s : State) (st : BitVec 14), (∀ ra, i ≠ .rdcr ra 0) →
    ∃ t t', exec i s = .next t ∧ exec i (s.setStatus st) = .next t' ∧ t'.setStatus t.status = t ∧
      statusEc t'.status = statusEc t.status ∧ statusSc t'.status = statusSc t.status ∧
      statusA t'.status = statusA t.status

/-- Raw writes clear the validation latch when they end `ok`, write nothing and leave it when they end with an error;
the host's raw writes clear it; the system update commands keep it (20_memory.md R36). -/
def Obligations.RawWritesClearLatch : Prop :=
  (∀ (i : Instr) (s t : State), isRawWrite i = true → exec i s = .next t → statusEc t.status = 0 →
    t.kind = .none) ∧
  (∀ (i : Instr) (s t : State), isRawWrite i = true → exec i s = .next t → statusEc t.status ≠ 0 →
    t.kind = s.kind ∧ t.mem = s.mem ∧ t.len = s.len) ∧
  (∀ (a : Fin 528) (b : Byte) (s t : State), performAction (.writeBuf a b) s = .next t → t.kind = .none) ∧
  (∀ (n : Fin 529) (s t : State), performAction (.writeLen n) s = .next t → t.kind = .none) ∧
  (∀ (i : Instr) (s t : State), isSystemUpdate i = true → exec i s = .next t → t.kind = s.kind)

/-- No command changes the configuration or the host's own list, and no step changes the configuration (00_scope.md
R10; that the two stand in `State` is the model's choice, log 1 and log 3). -/
def Obligations.ConfigurationNeverChanges : Prop :=
  (∀ (i : Instr) (s t : State), exec i s = .next t → OutsideKept s t) ∧
  (∀ s t : State, step s = .next t → t.cfg = s.cfg ∧ t.host = s.host.tail)

/-! ### The formats (40_varint.md, 41_checksum.md, 43_system.md) -/

/-- `dec28` (40_varint.md R49): four 7-bit groups, least significant first, bit 7 of no effect, every value of
`[0, 2^28 - 1]` reached. -/
def Obligations.Dec28SevenBitGroups : Prop :=
  (∀ q : Quad, dec28 q = q.b0.toNat % 128 + 128 * (q.b1.toNat % 128) + 16384 * (q.b2.toNat % 128)
    + 2097152 * (q.b3.toNat % 128)) ∧
  (∀ q : Quad, dec28 q ≤ 268435455) ∧
  (∀ q : Quad, dec28 q = dec28 ⟨q.b0 ||| 0x80, q.b1 ||| 0x80, q.b2 ||| 0x80, q.b3 ||| 0x80⟩) ∧
  (∀ v : Nat, v ≤ 268435455 → ∃ q : Quad, dec28 q = v)

/-- The three cases of `decSO` (40_varint.md R51), the sentinel decided by `mn + mx = 0` in unbounded integers. -/
def Obligations.SignedOffsetCases : Prop :=
  (∀ mn mx : Int, mn + mx = 0 → decSO 0 mn mx = 0) ∧ (∀ mn mx : Int, mn + mx ≠ 0 → decSO 0 mn mx = mn) ∧
  (∀ (r : Nat) (mn mx : Int), 16000000 < r → decSO r mn mx = (r : Int) - 16777216) ∧
  (∀ (r : Nat) (mn mx : Int), 0 < r → r ≤ 16000000 → decSO r mn mx = r)

/-- The laws (a) to (f) of 40_varint.md R53, in its order: (a); (b) and when it is the identity; (c) and the two regimes
behind it; (d) exactly when a value returns; (e), and that no well-formed signed variant meets it; (f), and which of the
two raw values `encSO` writes. -/
def Obligations.VarintLaws : Prop :=
  (∀ v : Nat, v ≤ 268435455 → dec28 (enc28 v) = v) ∧
  (∀ q : Quad, enc28 (dec28 q) = ⟨q.b0 &&& 0x7F, q.b1 &&& 0x7F, q.b2 &&& 0x7F, q.b3 &&& 0x7F⟩) ∧
  (∀ q : Quad, enc28 (dec28 q) = q ↔
    q.b0.getLsbD 7 = false ∧ q.b1.getLsbD 7 = false ∧ q.b2.getLsbD 7 = false ∧ q.b3.getLsbD 7 = false) ∧
  (∀ (r : Nat) (mn mx : Int), r ≤ 268435455 →
    (-777215 ≤ decSO r mn mx ∧ decSO r mn mx ≤ 251658239) ∨ decSO r mn mx = mn) ∧
  (∀ (r : Nat) (mn mx : Int), 16000000 < r → r ≤ 268435455 →
    -777215 ≤ decSO r mn mx ∧ decSO r mn mx ≤ 251658239) ∧
  (∀ (r : Nat) (mn mx : Int), 1 ≤ r → r ≤ 16000000 → 1 ≤ decSO r mn mx ∧ decSO r mn mx ≤ 16000000) ∧
  (∀ v : Int, -16777216 ≤ v → v ≤ 251658239 →
    ((∀ mn mx : Int, decSO (dec28 (encSO v)) mn mx = v) ↔ -777215 ≤ v)) ∧
  (∀ v mn mx : Int, -16777215 ≤ v → v ≤ -777216 → decSO (dec28 (encSO v)) mn mx = v + 16777216) ∧
  (∀ mn mx : Int, dec28 (encSO (-16777216)) = 0 ∧
    decSO (dec28 (encSO (-16777216))) mn mx = if mn + mx = 0 then 0 else mn) ∧
  (∀ v : Variant, wfVariant v = true → v.enc = .signed →
    -777215 ≤ (declaredRange v).1 ∧ (declaredRange v).2 ≤ 251658239) ∧
  (∀ (v : Nat) (mn mx : Int), 1 ≤ v → v ≤ 16000000 → v + 16777216 ≤ 268435455 →
    decSO v mn mx = v ∧ decSO (v + 16777216) mn mx = v ∧ dec28 (encSO v) = v + 16777216)

/-- The properties (a) to (d) of the checksum (41_checksum.md R60). -/
def Obligations.ChecksumLaws : Prop :=
  (∀ bs cs : List Byte, csum (bs ++ cs) = (csum bs + csum cs) % 128) ∧
  (∀ n : Nat, csum (List.replicate n 0) = 0) ∧
  (∀ (pre post : List Byte) (b b' : Byte),
    ((csum (pre ++ b' :: post) : Int) = ((csum (pre ++ b :: post) : Int) + (b'.toNat - b.toNat)) % 128) ∧
    (csum (pre ++ b' :: post) = csum (pre ++ b :: post) ↔
      b' = b ∨ b'.toNat = b.toNat + 128 ∨ b.toNat = b'.toNat + 128)) ∧
  (∀ bs cs : List Byte, bs.Perm cs → csum bs = csum cs)

/-- The laws (a), (b), (c) of the group functions (43_system.md R90). -/
def Obligations.GroupLaws : Prop :=
  (∀ t : Triple, t.v1 ≤ 127 → t.v2 ≤ 127 → t.v3 ≤ 127 → unpack3 (pack3 t) = t) ∧
  (∀ q : Quad, pack3 (unpack3 q) = ⟨q.b0 &&& 0x7F, q.b1 &&& 0x7E, q.b2 &&& 0x7D, q.b3 &&& 0x03⟩) ∧
  (∀ q : Quad, pack3 (unpack3 q) = q ↔
    q.b0 &&& 0x80 = 0 ∧ q.b1 &&& 0x81 = 0 ∧ q.b2 &&& 0x82 = 0 ∧ q.b3 &&& 0xFC = 0) ∧
  (∀ t : Triple, t.v1 ≤ 127 → t.v2 ≤ 127 → t.v3 ≤ 127 →
    dec28 (pack3 t) = t.v3 + 256 * t.v2 + 65536 * t.v1)

/-! ### Housekeeping, varint and checksum commands: where they complete -/

/-- `NOP`, `LDI` and `RDCR` complete in every state (44_housekeeping.md R101, R102, R105): `RDCR` reads the value from
before it completes. -/
def Obligations.RegisterLoadsComplete : Prop :=
  (∀ s : State, ∃ t, exec .nop s = .next t ∧ WroteRegs s t [] false) ∧
  (∀ (ra : Reg) (v : BitVec 32) (s : State), ∃ t, exec (.ldi ra v) s = .next t ∧ WroteRegs s t [(ra, v)] false) ∧
  (∀ (ra : Reg) (s : State),
    (∃ t, exec (.rdcr ra 0) s = .next t ∧ WroteRegs s t [(ra, BitVec.ofNat 32 s.status.toNat)] false) ∧
    (∃ t, exec (.rdcr ra 1) s = .next t ∧ WroteRegs s t [(ra, BitVec.ofNat 32 s.len.toNat)] false) ∧
    (∃ t, exec (.rdcr ra 2) s = .next t ∧ WroteRegs s t
      [(ra, match s.kind with | .none => 0 | .preset => 1 | .system => 2)] false) ∧
    (∃ t, exec (.rdcr ra 3) s = .next t ∧ WroteRegs s t [(ra, BitVec.ofNat 32 s.num.toNat)] false) ∧
    (∃ t, exec (.rdcr ra 4) s = .next t ∧ WroteRegs s t [(ra, BitVec.ofNat 32 s.namelen.toNat)] false) ∧
    (∃ t, exec (.rdcr ra 5) s = .next t ∧ WroteRegs s t [(ra, BitVec.ofNat 32 s.nviol.toNat)] false) ∧
    (s.cfg.nf ≤ 255 →
      ∃ t, exec (.rdcr ra 6) s = .next t ∧ WroteRegs s t [(ra, BitVec.ofNat 32 s.cfg.nf)] false))

/-- `LDB`, `DEC28` and `DECSO` complete when their bytes lie in the valid region (44_housekeeping.md R103,
40_varint.md R54, R56). A destination may be a source: the values are those of the state before. -/
def Obligations.BufferReadsComplete : Prop :=
  (∀ (ra : Reg) (off : BitVec 10) (s : State), off.toNat + 1 ≤ s.len.toNat →
    ∃ t, exec (.ldb ra off) s = .next t ∧
      WroteRegs s t [(ra, BitVec.ofNat 32 (readCell s.mem off.toNat).toNat)] false) ∧
  (∀ (ra : Reg) (off : BitVec 10) (s : State), off.toNat + 4 ≤ s.len.toNat →
    ∃ t, exec (.dec28 ra off) s = .next t ∧
      WroteRegs s t [(ra, BitVec.ofNat 32 (dec28 (readQuad s.mem off.toNat)))] false) ∧
  (∀ (ra rb rc : Reg) (off : BitVec 10) (s : State), off.toNat + 4 ≤ s.len.toNat →
    ∃ t, exec (.decso ra rb rc off) s = .next t ∧
      sval (t.reg ra) = decSO (dec28 (readQuad s.mem off.toNat)) (s.reg rb).toInt (s.reg rc).toInt ∧
      WroteRegs s t [(ra, t.reg ra)] false)

/-- `CSUM`, `CSVP` and `CSVS` complete when the bytes they read lie in the valid region; an empty `CSUM` range always
does and gives 0 (41_checksum.md R61, R62, R63). The stored byte is compared as a full byte. -/
def Obligations.ChecksumReadsComplete : Prop :=
  (∀ (ra : Reg) (lo hi : BitVec 10) (s : State), hi.toNat < lo.toNat →
    ∃ t, exec (.csum ra lo hi) s = .next t ∧ WroteRegs s t [(ra, 0)] false) ∧
  (∀ (ra : Reg) (lo hi : BitVec 10) (s : State), lo.toNat ≤ hi.toNat → hi.toNat < s.len.toNat →
    ∃ t, exec (.csum ra lo hi) s = .next t ∧
      WroteRegs s t [(ra, BitVec.ofNat 32 (byteSum (readBytes s.mem lo.toNat (hi.toNat - lo.toNat + 1)) % 128))] false) ∧
  (∀ (ra : Reg) (s : State), 519 ≤ s.len.toNat →
    ∃ t, exec (.csvp ra) s = .next t ∧
      WroteRegs s t [(ra, if (readCell s.mem 518).toNat = csum (readWindow s.mem 8 516) then 1 else 0)] false) ∧
  (∀ (ra : Reg) (s : State), max s.cfg.sysCsumHi s.cfg.sysCsumPos < s.len.toNat →
    ∃ t, exec (.csvs ra) s = .next t ∧
      WroteRegs s t [(ra, if (readCell s.mem s.cfg.sysCsumPos).toNat
        = csum (readWindow s.mem s.cfg.sysCsumLo s.cfg.sysCsumHi) then 1 else 0)] false)

/-- `UNPK3` with three different destinations completes when the group lies in the valid region (43_system.md R92). -/
def Obligations.UnpackCompletes : Prop :=
  ∀ (ra rb rc : Reg) (off : BitVec 10) (s : State), ra ≠ rb → ra ≠ rc → rb ≠ rc → off.toNat + 4 ≤ s.len.toNat →
    ∃ t, exec (.unpk3 ra rb rc off) s = .next t ∧
      WroteRegs s t [(ra, BitVec.ofNat 32 (unpack3 (readQuad s.mem off.toNat)).v1),
        (rb, BitVec.ofNat 32 (unpack3 (readQuad s.mem off.toNat)).v2),
        (rc, BitVec.ofNat 32 (unpack3 (readQuad s.mem off.toNat)).v3)] false

/-- The raw stores `STB`, `ENC28`, `ENCSO` and `PK3` complete when the value can be stored and the bytes lie in the
valid region; they store exactly those bytes and clear the latch (44_housekeeping.md R104, 40_varint.md R55, R57,
43_system.md R91). -/
def Obligations.RawStoresComplete : Prop :=
  (∀ (ra : Reg) (off : BitVec 10) (s : State), BufferLegal s → 0 ≤ (s.reg ra).toInt → (s.reg ra).toInt ≤ 255 →
    off.toNat + 1 ≤ s.len.toNat →
    ∃ t, exec (.stb ra off) s = .next t ∧
      StoredBytes s t off.toNat [BitVec.ofNat 8 (s.reg ra).toNat] (fun _ => False) .none) ∧
  (∀ (ra : Reg) (off : BitVec 10) (s : State), BufferLegal s → 0 ≤ (s.reg ra).toInt →
    (s.reg ra).toInt ≤ 268435455 → off.toNat + 4 ≤ s.len.toNat →
    ∃ t, exec (.enc28 ra off) s = .next t ∧
      StoredBytes s t off.toNat (quadBytes (enc28 (s.reg ra).toNat)) (fun _ => False) .none) ∧
  (∀ (ra : Reg) (off : BitVec 10) (s : State), BufferLegal s → -16777216 ≤ (s.reg ra).toInt →
    (s.reg ra).toInt ≤ 251658239 → off.toNat + 4 ≤ s.len.toNat →
    ∃ t, exec (.encso ra off) s = .next t ∧
      StoredBytes s t off.toNat (quadBytes (enc28 ((s.reg ra).toInt + 16777216).toNat)) (fun _ => False) .none) ∧
  (∀ (ra rb rc : Reg) (off : BitVec 10) (s : State), BufferLegal s → (s.reg ra).toNat ≤ 127 →
    (s.reg rb).toNat ≤ 127 → (s.reg rc).toNat ≤ 127 → off.toNat + 4 ≤ s.len.toNat →
    ∃ t, exec (.pk3 ra rb rc off) s = .next t ∧
      StoredBytes s t off.toNat (quadBytes (pack3 ⟨(s.reg ra).toNat, (s.reg rb).toNat, (s.reg rc).toNat⟩))
        (fun _ => False) .none)

/-- `CSFP` and `CSFS` complete when the valid region covers window and checksum byte: the byte stored is the checksum
of the window as it was, and the latch is cleared (41_checksum.md R64, R65). -/
def Obligations.ChecksumStoresComplete : Prop :=
  (∀ s : State, BufferLegal s → 519 ≤ s.len.toNat →
    ∃ t, exec .csfp s = .next t ∧
      StoredBytes s t 518 [BitVec.ofNat 8 (csum (readWindow s.mem 8 516))] (fun _ => False) .none) ∧
  (∀ s : State, BufferLegal s → max s.cfg.sysCsumHi s.cfg.sysCsumPos < s.len.toNat →
    ∃ t, exec .csfs s = .next t ∧
      StoredBytes s t s.cfg.sysCsumPos
        [BitVec.ofNat 8 (csum (readWindow s.mem s.cfg.sysCsumLo s.cfg.sysCsumHi))] (fun _ => False) .none)

/-- `WRCR LEN` completes for a value in 0..528: `LEN` takes it, the latch is cleared, the buffer is not changed
(44_housekeeping.md R106). -/
def Obligations.WriteLengthCompletes : Prop :=
  ∀ (ra : Reg) (s : State), 0 ≤ (s.reg ra).toInt → (s.reg ra).toInt ≤ 528 →
    ∃ t, exec (.wrcr ra) s = .next t ∧ EndsOk s t false ∧ (t.len.toNat : Int) = (s.reg ra).toInt ∧ t.kind = .none ∧
      RegsKept s t [] ∧ BufferKept s t ∧ ResultsKept s t ∧ OutsideKept s t

/-! ### The preset codec (42_preset.md) -/

/-- The discriminator mux (42_preset.md R68): the variant of the first case, in list order, that holds the
discriminator's value; the static variant when no case does or there is no discriminator. -/
def Obligations.MuxTakesFirstMatch : Prop :=
  (∀ (e : FieldEntry) (fv : List Int), e.disc = .none → selectVariant e fv = e.dflt) ∧
  (∀ (e : FieldEntry) (fv : List Int) (j : Nat) (d : Int) (pre post : List Case) (c : Case),
    e.disc = .by j (pre ++ c :: post) → fv[j]? = some d → (∀ k ∈ pre, d ∉ k.sel) → d ∈ c.sel →
    selectVariant e fv = c.var) ∧
  (∀ (e : FieldEntry) (fv : List Int) (j : Nat) (d : Int) (cases : List Case),
    e.disc = .by j cases → fv[j]? = some d → (∀ k ∈ cases, d ∉ k.sel) → selectVariant e fv = e.dflt)

/-- Decoding the fields (42_preset.md R71, R72, R75 steps 3 and 4). How one field is read: plain by `dec28`, signed by
`decSO` with the declared range, which of `EQUAL(k)` is `(k, k)`. What passes: `lo <= v <= hi`, or `v = k`. The five
words of a record. Then: one value per entry, each under the variant its discriminator selects from the values before
it; one record for each value that fails its check and no other, in ascending `fid` order, at most `NF` of them. -/
def Obligations.FieldsDecodedInOrder : Prop :=
  (∀ (m : Memory) (e : FieldEntry) (q : Quad),
    q = ⟨readCell m e.off, readCell m (e.off + 1), readCell m (e.off + 2), readCell m (e.off + 3)⟩ →
    (∀ c : Cond, fieldValue m e ⟨.plain, c⟩ = (dec28 q : Int)) ∧
    (∀ lo hi : Int, fieldValue m e ⟨.signed, .range lo hi⟩ = decSO (dec28 q) lo hi) ∧
    (∀ k : Int, fieldValue m e ⟨.signed, .equal k⟩ = decSO (dec28 q) k k)) ∧
  (∀ v lo hi : Int, passes (.range lo hi) v = true ↔ lo ≤ v ∧ v ≤ hi) ∧
  (∀ v k : Int, passes (.equal k) v = true ↔ v = k) ∧
  (∀ (i : Nat) (v lo hi : Int), violation i v (.range lo hi) =
    ⟨BitVec.ofNat 32 i, BitVec.ofInt 32 v, 0, BitVec.ofInt 32 lo, BitVec.ofInt 32 hi⟩) ∧
  (∀ (i : Nat) (v k : Int), violation i v (.equal k) =
    ⟨BitVec.ofNat 32 i, BitVec.ofInt 32 v, 1, BitVec.ofInt 32 k, BitVec.ofInt 32 k⟩) ∧
  ∀ (m : Memory) (t : List FieldEntry),
    (decodeFields m t).values.length = t.length ∧
    (∀ (i : Nat) (e : FieldEntry), t[i]? = some e →
      (decodeFields m t).values[i]? =
        some (fieldValue m e (selectVariant e ((decodeFields m t).values.take i)))) ∧
    (∀ r : VRec, r ∈ (decodeFields m t).violations ↔
      ∃ (i : Nat) (e : FieldEntry) (v : Int), t[i]? = some e ∧ (decodeFields m t).values[i]? = some v ∧
        passes (selectVariant e ((decodeFields m t).values.take i)).cond v = false ∧
        r = violation i v (selectVariant e ((decodeFields m t).values.take i)).cond) ∧
    (decodeFields m t).violations.length ≤ t.length ∧
    (t.length ≤ 255 → ((decodeFields m t).violations.map fun r => r.fid.toNat).Pairwise (· < ·))

/-- A successful `PDEC` (42_preset.md R75): the seven checks hold and no field fails. `LEN` becomes 520, `NUM`,
`NAMELEN` and `FV` hold what was extracted, `NVIOL` is 0, `VL`, the buffer and the registers are as before. -/
def Obligations.PresetDecodeSucceeds : Prop :=
  ∀ s : State, (∀ sc, 1 ≤ sc → sc ≤ 7 → presetCondition s sc) →
    (decodeFields s.mem s.cfg.fieldTable).violations = [] →
    ∃ t, exec .pdec s = .next t ∧ EndsOk s t false ∧ t.kind = .preset ∧ t.len.toNat = 520 ∧
      t.num = readCell s.mem 8 ∧ IsNameLength s.mem t.namelen.toNat ∧
      t.fv = (decodeFields s.mem s.cfg.fieldTable).values.map (BitVec.ofInt 32) ∧ t.nviol = 0 ∧ t.vl = s.vl ∧
      RegsKept s t [] ∧ BufferKept s t ∧ OutsideKept s t

/-- A `PDEC` that fails field validation (42_preset.md R75): the rejected values and every record are written, `LEN`
is not. That the records at or above `NVIOL` keep their content is the model's choice (log 8):
93_implementation_defined.md U20 lets a model keep or clear them. -/
def Obligations.PresetDecodeRejectsFields : Prop :=
  ∀ s : State, wfCfg s.cfg = true → (∀ sc, 1 ≤ sc → sc ≤ 7 → presetCondition s sc) →
    (decodeFields s.mem s.cfg.fieldTable).violations ≠ [] →
    ∃ t, exec .pdec s = .next t ∧ EndsErr t .fieldRange 0 ∧ t.kind = .none ∧ t.len = s.len ∧
      t.num = readCell s.mem 8 ∧ IsNameLength s.mem t.namelen.toNat ∧
      t.fv = (decodeFields s.mem s.cfg.fieldTable).values.map (BitVec.ofInt 32) ∧
      t.nviol.toNat = (decodeFields s.mem s.cfg.fieldTable).violations.length ∧
      t.vl.take t.nviol.toNat = (decodeFields s.mem s.cfg.fieldTable).violations ∧
      (∀ n, t.nviol.toNat ≤ n → t.vl[n]? = s.vl[n]?) ∧
      RegsKept s t [] ∧ BufferKept s t ∧ OutsideKept s t

/-- A `PDEC` or `SDEC` that fails a structural check ends `STRUCTURAL` with the sub-code of the first check that fails
(42_preset.md R73, R75; 43_system.md R81, R82); `PDEC` then clears `KIND` and `NVIOL`, `SDEC` clears `KIND`. -/
def Obligations.FirstStructuralFailureReported : Prop :=
  (∀ (s : State) (sc : Nat), 1 ≤ sc → sc ≤ 7 → (∀ k, 1 ≤ k → k < sc → presetCondition s k) → ¬ presetCondition s sc →
    ∃ t, exec .pdec s = .next t ∧ EndsErr t .structural (BitVec.ofNat 8 sc) ∧ t.kind = .none ∧ t.nviol = 0) ∧
  (∀ (s : State) (sc : Nat), 1 ≤ sc → sc ≤ 7 → (∀ k, 1 ≤ k → k < sc → systemCondition s k) → ¬ systemCondition s sc →
    ∃ t, exec .sdec s = .next t ∧ EndsErr t .structural (BitVec.ofNat 8 sc) ∧ t.kind = .none ∧ t.nviol = s.nviol)

/-- `PENC`, `PFLD`, `RDVL` and `SENC` complete under the latch or list they need (42_preset.md R76, R77, R78,
43_system.md R83). -/
def Obligations.ResultReadsComplete : Prop :=
  (∀ (ra : Reg) (s : State), s.kind = .preset →
    ∃ t, exec (.penc ra) s = .next t ∧ WroteRegs s t [(ra, 520)] false) ∧
  (∀ (ra : Reg) (fid : BitVec 8) (s : State) (v : Word), s.kind = .preset → fid.toNat < s.cfg.nf →
    s.fv[fid.toNat]? = some v → ∃ t, exec (.pfld ra fid) s = .next t ∧ WroteRegs s t [(ra, v)] false) ∧
  (∀ (ra : Reg) (n : BitVec 8) (s : State) (r : VRec), n.toNat < s.nviol.toNat → s.vl[n.toNat]? = some r →
    (∃ t, exec (.rdvl ra n 0) s = .next t ∧ WroteRegs s t [(ra, r.fid)] false) ∧
    (∃ t, exec (.rdvl ra n 1) s = .next t ∧ WroteRegs s t [(ra, r.val)] false) ∧
    (∃ t, exec (.rdvl ra n 2) s = .next t ∧ WroteRegs s t [(ra, r.kind)] false) ∧
    (∃ t, exec (.rdvl ra n 3) s = .next t ∧ WroteRegs s t [(ra, r.lo)] false) ∧
    (∃ t, exec (.rdvl ra n 4) s = .next t ∧ WroteRegs s t [(ra, r.hi)] false)) ∧
  (∀ (ra : Reg) (s : State), s.kind = .system →
    ∃ t, exec (.senc ra) s = .next t ∧ WroteRegs s t [(ra, BitVec.ofNat 32 s.len.toNat)] false)

/-- `PDEC` on a 521-byte message and on its first 520 bytes end alike, and on success both leave `LEN = 520`
(42_preset.md R79 b). -/
def Obligations.LegacyLengthTolerated : Prop :=
  ∀ s t u : State, s.len.toNat = 521 → exec .pdec s = .next t → exec .pdec (s.setLen 520) = .next u →
    t.status = u.status ∧ t.kind = u.kind ∧ t.num = u.num ∧ t.namelen = u.namelen ∧ t.fv = u.fv ∧ t.vl = u.vl ∧
    t.nviol = u.nviol ∧ (statusEc t.status = 0 → t.len.toNat = 520 ∧ u.len.toNat = 520)

/-- The result of `PDEC` is a function of bytes 0..519, `LEN` and the configuration alone (42_preset.md R79 c): two
states that agree on those end with the same class, sub-code, `A`, `KIND`, `NVIOL`, `LEN`, extracted values and new
violation records. What a `PDEC` does not write comes from before: `STK` after `ok`, and the records at or above
`NVIOL` (kept by the model's choice, log 8). -/
def Obligations.PresetDecodeReadsOnlyMessage : Prop :=
  ∀ s s' t t' : State, wfCfg s.cfg = true → s'.cfg = s.cfg → s'.len = s.len →
    (∀ a, a < 520 → readCell s'.mem a = readCell s.mem a) → exec .pdec s = .next t → exec .pdec s' = .next t' →
    statusEc t'.status = statusEc t.status ∧ statusSc t'.status = statusSc t.status ∧
    statusA t'.status = statusA t.status ∧ t'.kind = t.kind ∧ t'.nviol = t.nviol ∧ t'.len = t.len ∧
    (statusEc t.status ≠ errCode .structural → t'.num = t.num ∧ t'.namelen = t.namelen ∧ t'.fv = t.fv) ∧
    (statusEc t.status = errCode .fieldRange → t'.vl.take t'.nviol.toNat = t.vl.take t.nviol.toNat)

/-! ### The system codec (43_system.md) -/

/-- `SDEC` ends `ok` when the seven checks hold: the latch is set to `SYSTEM` and nothing else but `STATUS` changes
(43_system.md R82). -/
def Obligations.SystemDecodeSucceeds : Prop :=
  ∀ s : State, (∀ sc, 1 ≤ sc → sc ≤ 7 → systemCondition s sc) →
    ∃ t, exec .sdec s = .next t ∧ EndsOk s t false ∧ t.kind = .system ∧ t.len = s.len ∧ RegsKept s t [] ∧
      BufferKept s t ∧ ResultsKept s t ∧ OutsideKept s t

/-- `CCGET` completes for an index 0..63 under `KIND = SYSTEM`: both bytes as stored, `A = 0` exactly when both are
`0xFF` (43_system.md R85, R86). -/
def Obligations.CcReadCompletes : Prop :=
  ∀ (ra rb rc : Reg) (i : Nat) (s : State), ra ≠ rb → s.kind = .system → (s.reg rc).toInt = i → i ≤ 63 →
    ∃ t a, exec (.ccget ra rb rc) s = .next t ∧
      WroteRegs s t [(ra, BitVec.ofNat 32 (readCell s.mem (34 + s.cfg.ccStride * i)).toNat),
        (rb, BitVec.ofNat 32 (readCell s.mem (34 + s.cfg.ccStride * i + 1)).toNat)] a ∧
      (a = false ↔ readCell s.mem (34 + s.cfg.ccStride * i) = 0xFF ∧
        readCell s.mem (34 + s.cfg.ccStride * i + 1) = 0xFF)

/-- `CCSET` completes for an index 0..63 and values each 0..127 or 255: two table bytes and the re-derived checksum
byte are stored, the latch stays (43_system.md R84, R87). -/
def Obligations.CcWriteCompletes : Prop :=
  ∀ (ra rb rc : Reg) (i c p : Nat) (s : State), Inv s → s.kind = .system → (s.reg ra).toInt = i → i ≤ 63 →
    (s.reg rb).toInt = c → c ≤ 127 ∨ c = 255 → (s.reg rc).toInt = p → p ≤ 127 ∨ p = 255 →
    ∃ t, exec (.ccset ra rb rc) s = .next t ∧
      StoredBytes s t (34 + s.cfg.ccStride * i) [BitVec.ofNat 8 c, BitVec.ofNat 8 p]
        (fun b => b = s.cfg.sysCsumPos) .system ∧
      SystemSumRight t

/-- `PMIGET` and `PMOGET` complete for an index in their range under `KIND = SYSTEM`: the sub-value of the entry's
lane; `PMIGET` sets `A` unless the entry is the unmapped sentinel (43_system.md R93, R94, R96). The first two clauses
are R93's table of what a lane holds. -/
def Obligations.MapReadsComplete : Prop :=
  (∀ g : Triple, getLane .lowFirst g 0 = g.v3 ∧ getLane .lowFirst g 1 = g.v2 ∧ getLane .lowFirst g 2 = g.v1) ∧
  (∀ g : Triple, getLane .highFirst g 0 = g.v1 ∧ getLane .highFirst g 1 = g.v2 ∧ getLane .highFirst g 2 = g.v3) ∧
  (∀ (ra rb : Reg) (i : Nat) (s : State), s.kind = .system → (s.reg rb).toInt = i → 1 ≤ i → i ≤ 127 →
    ∃ t, exec (.pmiget ra rb) s = .next t ∧
      WroteRegs s t [(ra, BitVec.ofNat 32 (getLane s.cfg.laneOrder
        (unpack3 (readQuad s.mem (s.cfg.pmapInBase + 4 * ((i - 1) / 3)))) ((i - 1) % 3)))]
        (getLane s.cfg.laneOrder (unpack3 (readQuad s.mem (s.cfg.pmapInBase + 4 * ((i - 1) / 3)))) ((i - 1) % 3)
          != s.cfg.pmapUnmapped)) ∧
  (∀ (ra rb : Reg) (i : Nat) (s : State), s.kind = .system → (s.reg rb).toInt = i → 31 ≤ i → i ≤ 90 →
    ∃ t, exec (.pmoget ra rb) s = .next t ∧
      WroteRegs s t [(ra, BitVec.ofNat 32 (getLane s.cfg.laneOrder
        (unpack3 (readQuad s.mem (s.cfg.pmapOutBase + 4 * ((i - 31) / 3)))) ((i - 31) % 3)))] false)

/-- `PMISET` and `PMOSET` complete for an index and a value in their windows under `KIND = SYSTEM`: the group's four
bytes, re-packed with the entry's lane replaced, and the re-derived checksum byte are stored (43_system.md R84, R93,
R95, R97). The first two clauses are R93's table of which sub-value a lane replaces. -/
def Obligations.MapWritesComplete : Prop :=
  (∀ (g : Triple) (v : Nat), setLane .lowFirst g 0 v = ⟨g.v1, g.v2, v⟩ ∧
    setLane .lowFirst g 1 v = ⟨g.v1, v, g.v3⟩ ∧ setLane .lowFirst g 2 v = ⟨v, g.v2, g.v3⟩) ∧
  (∀ (g : Triple) (v : Nat), setLane .highFirst g 0 v = ⟨v, g.v2, g.v3⟩ ∧
    setLane .highFirst g 1 v = ⟨g.v1, v, g.v3⟩ ∧ setLane .highFirst g 2 v = ⟨g.v1, g.v2, v⟩) ∧
  (∀ (ra rb : Reg) (i v : Nat) (s : State), Inv s → s.kind = .system → (s.reg ra).toInt = i → 1 ≤ i → i ≤ 127 →
    (s.reg rb).toInt = v → 31 ≤ v → v ≤ 90 →
    ∃ t, exec (.pmiset ra rb) s = .next t ∧
      StoredBytes s t (s.cfg.pmapInBase + 4 * ((i - 1) / 3))
        (quadBytes (pack3 (setLane s.cfg.laneOrder
          (unpack3 (readQuad s.mem (s.cfg.pmapInBase + 4 * ((i - 1) / 3)))) ((i - 1) % 3) v)))
        (fun b => b = s.cfg.sysCsumPos) .system ∧
      SystemSumRight t) ∧
  (∀ (ra rb : Reg) (i v : Nat) (s : State), Inv s → s.kind = .system → (s.reg ra).toInt = i → 31 ≤ i → i ≤ 90 →
    (s.reg rb).toInt = v → v ≤ 127 →
    ∃ t, exec (.pmoset ra rb) s = .next t ∧
      StoredBytes s t (s.cfg.pmapOutBase + 4 * ((i - 31) / 3))
        (quadBytes (pack3 (setLane s.cfg.laneOrder
          (unpack3 (readQuad s.mem (s.cfg.pmapOutBase + 4 * ((i - 31) / 3)))) ((i - 31) % 3) v)))
        (fun b => b = s.cfg.sysCsumPos) .system ∧
      SystemSumRight t)

/-- After a map update the entry written reads as the value, and every other entry of both maps reads as before
(43_system.md R93, R95, R97); positions count from 0, 127 incoming and 60 outgoing. The first clause is R93's place of
position `q`: group `q div 3`, and the sub-value of lane `q mod 3` under each lane order. -/
def Obligations.MapUpdateChangesOneEntry : Prop :=
  (∀ (s : State) (base g : Nat) (u : Triple), u = unpack3 (readQuad s.mem (base + 4 * g)) →
    mapEntry s base (3 * g + 1) = u.v2 ∧
    (s.cfg.laneOrder = .lowFirst → mapEntry s base (3 * g) = u.v3 ∧ mapEntry s base (3 * g + 2) = u.v1) ∧
    (s.cfg.laneOrder = .highFirst → mapEntry s base (3 * g) = u.v1 ∧ mapEntry s base (3 * g + 2) = u.v3)) ∧
  (∀ (ra rb : Reg) (i v : Nat) (s t : State), Inv s → s.kind = .system → (s.reg ra).toInt = i → 1 ≤ i → i ≤ 127 →
    (s.reg rb).toInt = v → 31 ≤ v → v ≤ 90 → exec (.pmiset ra rb) s = .next t →
    mapEntry t t.cfg.pmapInBase (i - 1) = v ∧
    (∀ q, q < 127 → q ≠ i - 1 → mapEntry t t.cfg.pmapInBase q = mapEntry s s.cfg.pmapInBase q) ∧
    (∀ q, q < 60 → mapEntry t t.cfg.pmapOutBase q = mapEntry s s.cfg.pmapOutBase q)) ∧
  (∀ (ra rb : Reg) (i v : Nat) (s t : State), Inv s → s.kind = .system → (s.reg ra).toInt = i → 31 ≤ i → i ≤ 90 →
    (s.reg rb).toInt = v → v ≤ 127 → exec (.pmoset ra rb) s = .next t →
    mapEntry t t.cfg.pmapOutBase (i - 31) = v ∧
    (∀ q, q < 60 → q ≠ i - 31 → mapEntry t t.cfg.pmapOutBase q = mapEntry s s.cfg.pmapOutBase q) ∧
    (∀ q, q < 127 → mapEntry t t.cfg.pmapInBase q = mapEntry s s.cfg.pmapInBase q))

/-- `PEDGET` completes under `KIND = SYSTEM`: the parameter id as stored, a percentage clamped to 100 (43_system.md
R98, R99). -/
def Obligations.PedalReadCompletes : Prop :=
  (∀ (ra : Reg) (s : State), s.kind = .system →
    ∃ t, exec (.pedget ra 0) s = .next t ∧
      WroteRegs s t [(ra, BitVec.ofNat 32 (dec28 (readQuad s.mem s.cfg.pedalOff[0])))] false) ∧
  (∀ (ra : Reg) (k : BitVec 2) (s : State), k ≠ 0 → s.kind = .system →
    ∃ t, exec (.pedget ra k) s = .next t ∧
      WroteRegs s t [(ra, BitVec.ofNat 32 (min (dec28 (readQuad s.mem s.cfg.pedalOff[k.toFin])) 100))] false)

/-- `PEDSET` completes under `KIND = SYSTEM`: the parameter id as given when it can be encoded, a percentage clamped
to 0..100 and never refused; four bytes and the checksum byte are stored (43_system.md R84, R98, R100). -/
def Obligations.PedalWriteCompletes : Prop :=
  (∀ (ra : Reg) (v : Nat) (s : State), Inv s → s.kind = .system → (s.reg ra).toInt = v → v ≤ 268435455 →
    ∃ t, exec (.pedset ra 0) s = .next t ∧
      StoredBytes s t s.cfg.pedalOff[0] (quadBytes (enc28 v)) (fun b => b = s.cfg.sysCsumPos) .system ∧
      SystemSumRight t) ∧
  (∀ (ra : Reg) (k : BitVec 2) (s : State), Inv s → s.kind = .system → k ≠ 0 →
    ∃ t, exec (.pedset ra k) s = .next t ∧
      StoredBytes s t s.cfg.pedalOff[k.toFin] (quadBytes (enc28 (max 0 (min (s.reg ra).toInt 100)).toNat))
        (fun b => b = s.cfg.sysCsumPos) .system ∧
      SystemSumRight t)

/-- After any system update that ends `ok`, `CSVS` gives 1 (43_system.md R84). -/
def Obligations.UpdateLeavesChecksumRight : Prop :=
  ∀ (i : Instr) (s t : State) (r : Reg), Inv s → isSystemUpdate i = true → exec i s = .next t →
    statusEc t.status = 0 → ∃ u, exec (.csvs r) t = .next u ∧ EndsOk t u false ∧ u.reg r = 1

/-! ### Where a command is turned away (60_exceptions.md R110, R113) -/

/-- `BOUNDS`: a raw access that reaches past `LEN` (20_memory.md R27). -/
def Obligations.AccessesPastLengthRefused : Prop :=
  (∀ (ra : Reg) (off : BitVec 10) (s : State), s.len.toNat < off.toNat + 1 →
    ∃ t, exec (.ldb ra off) s = .next t ∧ FailedOnly s t .bounds 0) ∧
  (∀ (ra rb rc : Reg) (off : BitVec 10) (s : State), s.len.toNat < off.toNat + 4 →
    (∃ t, exec (.dec28 ra off) s = .next t ∧ FailedOnly s t .bounds 0) ∧
    (∃ t, exec (.decso ra rb rc off) s = .next t ∧ FailedOnly s t .bounds 0) ∧
    (ra ≠ rb → ra ≠ rc → rb ≠ rc → ∃ t, exec (.unpk3 ra rb rc off) s = .next t ∧ FailedOnly s t .bounds 0)) ∧
  (∀ (ra : Reg) (lo hi : BitVec 10) (s : State), lo.toNat ≤ hi.toNat → s.len.toNat ≤ hi.toNat →
    ∃ t, exec (.csum ra lo hi) s = .next t ∧ FailedOnly s t .bounds 0) ∧
  (∀ (ra : Reg) (s : State), s.len.toNat < 519 →
    (∃ t, exec (.csvp ra) s = .next t ∧ FailedOnly s t .bounds 0) ∧
    (∃ t, exec .csfp s = .next t ∧ FailedOnly s t .bounds 0)) ∧
  (∀ (ra : Reg) (s : State), s.len.toNat ≤ max s.cfg.sysCsumHi s.cfg.sysCsumPos →
    (∃ t, exec (.csvs ra) s = .next t ∧ FailedOnly s t .bounds 0) ∧
    (∃ t, exec .csfs s = .next t ∧ FailedOnly s t .bounds 0)) ∧
  (∀ (ra : Reg) (off : BitVec 10) (s : State), 0 ≤ (s.reg ra).toInt → (s.reg ra).toInt ≤ 255 →
    s.len.toNat < off.toNat + 1 → ∃ t, exec (.stb ra off) s = .next t ∧ FailedOnly s t .bounds 0) ∧
  (∀ (ra : Reg) (off : BitVec 10) (s : State), 0 ≤ (s.reg ra).toInt → (s.reg ra).toInt ≤ 268435455 →
    s.len.toNat < off.toNat + 4 → ∃ t, exec (.enc28 ra off) s = .next t ∧ FailedOnly s t .bounds 0) ∧
  (∀ (ra : Reg) (off : BitVec 10) (s : State), -16777216 ≤ (s.reg ra).toInt → (s.reg ra).toInt ≤ 251658239 →
    s.len.toNat < off.toNat + 4 → ∃ t, exec (.encso ra off) s = .next t ∧ FailedOnly s t .bounds 0) ∧
  (∀ (ra rb rc : Reg) (off : BitVec 10) (s : State), (s.reg ra).toNat ≤ 127 → (s.reg rb).toNat ≤ 127 →
    (s.reg rc).toNat ≤ 127 → s.len.toNat < off.toNat + 4 →
    ∃ t, exec (.pk3 ra rb rc off) s = .next t ∧ FailedOnly s t .bounds 0)

/-- `OPERAND`: a value the command cannot encode or store is refused, whatever the address, and never truncated
(40_varint.md R55, R57; 43_system.md R91, R100; 44_housekeeping.md R104, R106; 60_exceptions.md R110, R113). -/
def Obligations.UnencodableValuesRefused : Prop :=
  (∀ (ra : Reg) (off : BitVec 10) (s : State),
    ((s.reg ra).toInt < 0 ∨ 255 < (s.reg ra).toInt →
      ∃ t, exec (.stb ra off) s = .next t ∧ FailedOnly s t .operand 1) ∧
    ((s.reg ra).toInt < 0 ∨ 268435455 < (s.reg ra).toInt →
      ∃ t, exec (.enc28 ra off) s = .next t ∧ FailedOnly s t .operand 1) ∧
    ((s.reg ra).toInt < -16777216 ∨ 251658239 < (s.reg ra).toInt →
      ∃ t, exec (.encso ra off) s = .next t ∧ FailedOnly s t .operand 1) ∧
    ((s.reg ra).toInt < 0 ∨ 528 < (s.reg ra).toInt →
      ∃ t, exec (.wrcr ra) s = .next t ∧ FailedOnly s t .operand 1) ∧
    (s.kind = .system → (s.reg ra).toInt < 0 ∨ 268435455 < (s.reg ra).toInt →
      ∃ t, exec (.pedset ra 0) s = .next t ∧ FailedOnly s t .operand 1)) ∧
  (∀ (ra rb rc : Reg) (off : BitVec 10) (s : State) (b1 b2 b3 : Bool),
    (b1 = true ↔ 127 < (s.reg ra).toNat) → (b2 = true ↔ 127 < (s.reg rb).toNat) →
    (b3 = true ↔ 127 < (s.reg rc).toNat) → (b1 || b2 || b3) = true →
    ∃ t, exec (.pk3 ra rb rc off) s = .next t ∧
      FailedOnly s t .operand (BitVec.ofNat 8 (b1.toNat + 2 * b2.toNat + 4 * b3.toNat)))

/-- `STATE`: the commands that need a validated message end `STATE(1)` without a preset and `STATE(2)` without a
system dump, before their operands are looked at (60_exceptions.md R110, R113). -/
def Obligations.MissingLatchRefused : Prop :=
  (∀ (ra : Reg) (fid : BitVec 8) (s : State), s.kind ≠ .preset →
    (∃ t, exec (.penc ra) s = .next t ∧ FailedOnly s t .state 1) ∧
    (∃ t, exec (.pfld ra fid) s = .next t ∧ FailedOnly s t .state 1)) ∧
  (∀ (ra rb rc : Reg) (k : BitVec 2) (s : State), s.kind ≠ .system →
    (∃ t, exec (.senc ra) s = .next t ∧ FailedOnly s t .state 2) ∧
    (ra ≠ rb → ∃ t, exec (.ccget ra rb rc) s = .next t ∧ FailedOnly s t .state 2) ∧
    (∃ t, exec (.ccset ra rb rc) s = .next t ∧ FailedOnly s t .state 2) ∧
    (∃ t, exec (.pmiget ra rb) s = .next t ∧ FailedOnly s t .state 2) ∧
    (∃ t, exec (.pmiset ra rb) s = .next t ∧ FailedOnly s t .state 2) ∧
    (∃ t, exec (.pmoget ra rb) s = .next t ∧ FailedOnly s t .state 2) ∧
    (∃ t, exec (.pmoset ra rb) s = .next t ∧ FailedOnly s t .state 2) ∧
    (∃ t, exec (.pedget ra k) s = .next t ∧ FailedOnly s t .state 2) ∧
    (∃ t, exec (.pedset ra k) s = .next t ∧ FailedOnly s t .state 2))

/-- `INDEX`: an index, field id or record number outside its list, before the value operands are looked at
(42_preset.md R77, R78; 43_system.md R86, R87, R94 to R97; 60_exceptions.md R113). -/
def Obligations.IndicesOutsideListsRefused : Prop :=
  (∀ (ra : Reg) (fid : BitVec 8) (s : State), s.kind = .preset → s.cfg.nf ≤ fid.toNat →
    ∃ t, exec (.pfld ra fid) s = .next t ∧ FailedOnly s t .index 0) ∧
  (∀ (ra : Reg) (n : BitVec 8) (w : BitVec 3) (s : State), w.toNat ≤ 4 → s.nviol.toNat ≤ n.toNat →
    ∃ t, exec (.rdvl ra n w) s = .next t ∧ FailedOnly s t .index 0) ∧
  (∀ (ra rb rc : Reg) (s : State), s.kind = .system →
    (ra ≠ rb → (s.reg rc).toInt < 0 ∨ 63 < (s.reg rc).toInt →
      ∃ t, exec (.ccget ra rb rc) s = .next t ∧ FailedOnly s t .index 0) ∧
    ((s.reg ra).toInt < 0 ∨ 63 < (s.reg ra).toInt →
      ∃ t, exec (.ccset ra rb rc) s = .next t ∧ FailedOnly s t .index 0) ∧
    ((s.reg rb).toInt < 1 ∨ 127 < (s.reg rb).toInt →
      ∃ t, exec (.pmiget ra rb) s = .next t ∧ FailedOnly s t .index 0) ∧
    ((s.reg ra).toInt < 1 ∨ 127 < (s.reg ra).toInt →
      ∃ t, exec (.pmiset ra rb) s = .next t ∧ FailedOnly s t .index 0) ∧
    ((s.reg rb).toInt < 31 ∨ 90 < (s.reg rb).toInt →
      ∃ t, exec (.pmoget ra rb) s = .next t ∧ FailedOnly s t .index 0) ∧
    ((s.reg ra).toInt < 31 ∨ 90 < (s.reg ra).toInt →
      ∃ t, exec (.pmoset ra rb) s = .next t ∧ FailedOnly s t .index 0))

/-- `FIELD_RANGE` of an update value, with a mask of the refused operands; the unmapped sentinel cannot be written
by `PMISET` (43_system.md R87, R95, R97; 60_exceptions.md R110). -/
def Obligations.UpdateValuesOutsideWindowRefused : Prop :=
  (∀ (ra rb rc : Reg) (s : State) (bc bp : Bool), s.kind = .system → 0 ≤ (s.reg ra).toInt → (s.reg ra).toInt ≤ 63 →
    (bc = true ↔ ¬ ((s.reg rb).toNat ≤ 127 ∨ (s.reg rb).toNat = 255)) →
    (bp = true ↔ ¬ ((s.reg rc).toNat ≤ 127 ∨ (s.reg rc).toNat = 255)) → (bc || bp) = true →
    ∃ t, exec (.ccset ra rb rc) s = .next t ∧
      FailedOnly s t .fieldRange (BitVec.ofNat 8 (2 * bc.toNat + 4 * bp.toNat))) ∧
  (∀ (ra rb : Reg) (s : State), s.kind = .system → 1 ≤ (s.reg ra).toInt → (s.reg ra).toInt ≤ 127 →
    (s.reg rb).toInt < 31 ∨ 90 < (s.reg rb).toInt →
    ∃ t, exec (.pmiset ra rb) s = .next t ∧ FailedOnly s t .fieldRange 2) ∧
  (∀ (ra rb : Reg) (s : State), s.kind = .system → 31 ≤ (s.reg ra).toInt → (s.reg ra).toInt ≤ 90 →
    (s.reg rb).toInt < 0 ∨ 127 < (s.reg rb).toInt →
    ∃ t, exec (.pmoset ra rb) s = .next t ∧ FailedOnly s t .fieldRange 2)

/-- The operand readings of `ILLEGAL` words (30_encoding.md R44 d): no word decodes to them, and executed they end
`ILLEGAL` (the second part is the model's reading, log 7). -/
def Obligations.IllegalFormsRefused : Prop :=
  (∀ (i : Instr) (w : CommandWord), i.wf = false → decode w ≠ .ok i) ∧
  (∀ (i : Instr) (s : State), i.wf = false → ∃ t, exec i s = .next t ∧ FailedOnly s t .illegal 0)

/-! ### The device's own table (42_preset.md R70, R79 d) -/

/-- Discriminator-conditioned validation (42_preset.md R79 d), with a table that contains 42_preset.md R70 (d) (the
claim `c` that says which entries and codes those are is the model's form of R70, log 18): raw value 2 in the
delay-or-range field is a violation with the range 0..1 when the modulation type decodes to phaser, and no violation
when it decodes to chorus. -/
def Obligations.RangeFollowsModulationType : Prop :=
  ∀ (c : DeviceClaim) (s : State) (e : FieldEntry), wfCfg s.cfg = true →
    modDelayOrRangeAgrees s.cfg.fieldTable c = true → s.cfg.fieldTable[c.modDelayOrRange]? = some e →
    dec28 ⟨readCell s.mem e.off, readCell s.mem (e.off + 1), readCell s.mem (e.off + 2), readCell s.mem (e.off + 3)⟩ = 2 →
    (∀ sc, 1 ≤ sc → sc ≤ 7 → presetCondition s sc) →
    ((decodeFields s.mem s.cfg.fieldTable).values[c.modType]? = some c.modCodes.phaser →
      ∃ t, exec .pdec s = .next t ∧ EndsErr t .fieldRange 0 ∧
        ∃ n, n < t.nviol.toNat ∧ t.vl[n]? = some ⟨BitVec.ofNat 32 c.modDelayOrRange, 2, 0, 0, 1⟩) ∧
    ((decodeFields s.mem s.cfg.fieldTable).values[c.modType]? = some c.modCodes.chorus →
      ∃ t, exec .pdec s = .next t ∧
        ∀ (n : Nat) (r : VRec), n < t.nviol.toNat → t.vl[n]? = some r → r.fid.toNat ≠ c.modDelayOrRange)
end

