-- ==== Sys2Proof/Laws/Configuration.lean ====
section
/-! SUPPORT. What `wfCfg` (00_scope.md R6) says as inequalities, so that `omega` can use it. -/

namespace Sys2Proof.Machine

theorem insideDump_eq_true {r : Region} : insideDump r = true ↔ 8 ≤ r.lo ∧ r.hi ≤ 524 := by
  simp [insideDump]

theorem disjointRegions_eq_true {r q : Region} : disjointRegions r q = true ↔ r.hi < q.lo ∨ q.hi < r.lo := by
  simp [disjointRegions]

/-- The parts of `wfCfg`. -/
theorem wfCfg_parts {c : Cfg} (h : wfCfg c = true) :
    (cfgRegions c).all insideDump = true ∧ pairwiseDisjoint (cfgRegions c) = true ∧ wfWindow c = true ∧
    wfUnmapped c = true ∧ 2 ≤ c.ccStride ∧ wfTable c.fieldTable = true := by
  simpa only [wfCfg, Bool.and_eq_true, decide_eq_true_eq, and_assoc] using h

/-- Every region of R6 (a) lies inside [8, 524]. -/
theorem wfCfg_inside {c : Cfg} (h : wfCfg c = true) {r : Region} (hr : r ∈ cfgRegions c) : 8 ≤ r.lo ∧ r.hi ≤ 524 :=
  insideDump_eq_true.1 (List.all_eq_true.1 (wfCfg_parts h).1 r hr)

/-- The checksum byte lies inside [8, 524]. -/
theorem wfCfg_sumByte {c : Cfg} (h : wfCfg c = true) : 8 ≤ c.sysCsumPos ∧ c.sysCsumPos ≤ 524 :=
  wfCfg_inside (r := ⟨c.sysCsumPos, c.sysCsumPos⟩) h (by simp [cfgRegions])

/-- The window is in order, inside [8, 524], and does not hold the checksum byte. -/
theorem wfCfg_window {c : Cfg} (h : wfCfg c = true) :
    8 ≤ c.sysCsumLo ∧ c.sysCsumLo ≤ c.sysCsumHi ∧ c.sysCsumHi ≤ 524 ∧
    (c.sysCsumPos < c.sysCsumLo ∨ c.sysCsumHi < c.sysCsumPos) := by
  simpa only [wfWindow, Bool.and_eq_true, Bool.or_eq_true, decide_eq_true_eq, and_assoc] using (wfCfg_parts h).2.2.1

/-- The table has at most 255 entries. -/
theorem wfCfg_nf {c : Cfg} (h : wfCfg c = true) : c.nf ≤ 255 := by
  have := (wfCfg_parts h).2.2.2.2.2
  simp only [wfTable, Bool.and_eq_true, decide_eq_true_eq] at this
  exact this.1

/-- The stride is at least 2. -/
theorem wfCfg_stride {c : Cfg} (h : wfCfg c = true) : 2 ≤ c.ccStride := (wfCfg_parts h).2.2.2.2.1

/-- The CC table lies below 525. -/
theorem wfCfg_ccTable {c : Cfg} (h : wfCfg c = true) : 34 + c.ccStride * 63 + 1 ≤ 524 :=
  (wfCfg_inside (r := ⟨Config.ccBase, Config.ccBase + c.ccStride * 63 + 1⟩) h (by simp [cfgRegions])).2

/-- The incoming map lies inside [8, 524]. -/
theorem wfCfg_inMap {c : Cfg} (h : wfCfg c = true) : 8 ≤ c.pmapInBase ∧ c.pmapInBase + 171 ≤ 524 := by
  have := wfCfg_inside (r := ⟨c.pmapInBase, c.pmapInBase + 4 * Config.pmapInGroups - 1⟩) h (by simp [cfgRegions])
  simp only [Config.pmapInGroups] at this
  omega

/-- The outgoing map lies inside [8, 524]. -/
theorem wfCfg_outMap {c : Cfg} (h : wfCfg c = true) : 8 ≤ c.pmapOutBase ∧ c.pmapOutBase + 79 ≤ 524 := by
  have := wfCfg_inside (r := ⟨c.pmapOutBase, c.pmapOutBase + 4 * Config.pmapOutGroups - 1⟩) h (by simp [cfgRegions])
  simp only [Config.pmapOutGroups] at this
  omega

/-- Every pedal field lies inside [8, 524]. -/
theorem wfCfg_pedal {c : Cfg} (h : wfCfg c = true) (k : Fin 4) : 8 ≤ c.pedalOff[k] ∧ c.pedalOff[k] + 3 ≤ 524 := by
  have hk : k = 0 ∨ k = 1 ∨ k = 2 ∨ k = 3 := by revert k; decide
  rcases hk with rfl | rfl | rfl | rfl
  · exact wfCfg_inside (r := ⟨c.pedalOff[0], c.pedalOff[0] + 3⟩) h (by simp [cfgRegions])
  · exact wfCfg_inside (r := ⟨c.pedalOff[1], c.pedalOff[1] + 3⟩) h (by simp [cfgRegions])
  · exact wfCfg_inside (r := ⟨c.pedalOff[2], c.pedalOff[2] + 3⟩) h (by simp [cfgRegions])
  · exact wfCfg_inside (r := ⟨c.pedalOff[3], c.pedalOff[3] + 3⟩) h (by simp [cfgRegions])

/-- What R6 (b) says of the regions the commands store to: the checksum byte lies in none of them, and the two maps do
not meet. -/
theorem wfCfg_disjoint {c : Cfg} (h : wfCfg c = true) :
    (34 + c.ccStride * 63 + 1 < c.sysCsumPos ∨ c.sysCsumPos < 34) ∧
    (c.pmapInBase + 171 < c.sysCsumPos ∨ c.sysCsumPos < c.pmapInBase) ∧
    (c.pmapOutBase + 79 < c.sysCsumPos ∨ c.sysCsumPos < c.pmapOutBase) ∧
    (∀ k : Fin 4, c.pedalOff[k] + 3 < c.sysCsumPos ∨ c.sysCsumPos < c.pedalOff[k]) ∧
    (c.pmapInBase + 171 < c.pmapOutBase ∨ c.pmapOutBase + 79 < c.pmapInBase) := by
  have hd := (wfCfg_parts h).2.1
  simp only [cfgRegions, pairwiseDisjoint, List.all_cons, List.all_nil, Bool.and_true, Bool.and_eq_true,
    disjointRegions_eq_true, Config.ccBase, Config.pmapInGroups, Config.pmapOutGroups] at hd
  obtain ⟨⟨-, -, -, -, -, -, h1⟩, ⟨h2, -, -, -, -, h3⟩, ⟨-, -, -, -, h4⟩, ⟨-, -, -, p0⟩, ⟨-, -, p1⟩, ⟨-, p2⟩, p3⟩ := hd
  refine ⟨h1, by omega, by omega, ?_, by omega⟩
  intro k
  have hk : k = 0 ∨ k = 1 ∨ k = 2 ∨ k = 3 := by revert k; decide
  rcases hk with rfl | rfl | rfl | rfl
  · exact p0
  · exact p1
  · exact p2
  · exact p3

end Sys2Proof.Machine
end

