-- ==== Sys2Proof/Laws/Memory.lean ====
section
/-! SUPPORT. Cells of the buffer: what a store changes, what it leaves, and that every store keeps the canonical
form. -/

namespace Sys2Proof.Machine

/-- Every address of a list lies above `k`. -/
def AllAbove (k : Nat) (m : Memory) : Prop := ∀ p ∈ m, k < p.1

theorem memoryWf_cons {k : Nat} {b : Byte} {m : Memory} :
    memoryWf ((k, b) :: m) = true ↔ k < 528 ∧ b ≠ 0 ∧ AllAbove k m ∧ memoryWf m = true := by
  induction m generalizing k b with
  | nil =>
    simp only [memoryWf, Bool.and_eq_true, decide_eq_true_eq, bne_iff_ne, ne_eq]
    simp [AllAbove, Config.bufSize]
  | cons p m ih =>
    obtain ⟨k', b'⟩ := p
    simp only [memoryWf, Bool.and_eq_true, decide_eq_true_eq, bne_iff_ne, ne_eq]
    rw [ih]
    constructor
    · rintro ⟨⟨h1, h2⟩, h3, h4, h5, h6⟩
      refine ⟨by omega, h2, ?_, h3, h4, h5, h6⟩
      intro p hp
      rcases List.mem_cons.1 hp with rfl | hp
      · exact h1
      · exact Nat.lt_trans h1 (h5 p hp)
    · rintro ⟨-, h2, h3, h4, h5, h6, h7⟩
      exact ⟨⟨h3 (k', b') (List.mem_cons_self ..), h2⟩, h4, h5, h6, h7⟩

@[simp] theorem memoryWf_nil : memoryWf [] = true := rfl

theorem readCell_of_allAbove {m : Memory} {k a : Nat} (h : AllAbove k m) (ha : a ≤ k) : readCell m a = 0 := by
  induction m with
  | nil => rfl
  | cons p m ih =>
    obtain ⟨k', b'⟩ := p
    have h1 : k < k' := h (k', b') (List.mem_cons_self ..)
    have h2 : AllAbove k m := fun p hp => h p (List.mem_cons_of_mem _ hp)
    have : k' ≠ a := by omega
    simp [readCell, this, ih h2]

theorem allAbove_insertCell {m : Memory} {k a : Nat} {b : Byte} (h : AllAbove k m) (ha : k < a) :
    AllAbove k (insertCell m a b) := by
  induction m with
  | nil =>
    unfold insertCell
    split
    · exact h
    · intro p hp
      simp at hp
      subst hp
      exact ha
  | cons p m ih =>
    obtain ⟨k', b'⟩ := p
    have h1 : k < k' := h (k', b') (List.mem_cons_self ..)
    have h2 : AllAbove k m := fun p hp => h p (List.mem_cons_of_mem _ hp)
    unfold insertCell
    split
    · split
      · exact h
      · intro p hp
        rcases List.mem_cons.1 hp with rfl | hp
        · exact ha
        · exact h p hp
    · split
      · split
        · exact h2
        · intro p hp
          rcases List.mem_cons.1 hp with rfl | hp
          · exact ha
          · exact h2 p hp
      · intro p hp
        rcases List.mem_cons.1 hp with rfl | hp
        · exact h1
        · exact ih h2 p hp

/-- A store keeps the canonical form. -/
theorem memoryWf_insertCell {m : Memory} {a : Nat} {b : Byte} (hm : memoryWf m = true) (ha : a < 528) :
    memoryWf (insertCell m a b) = true := by
  induction m with
  | nil =>
    unfold insertCell
    split
    · rfl
    · next h => exact memoryWf_cons.2 ⟨ha, h, by simp [AllAbove], rfl⟩
  | cons p m ih =>
    obtain ⟨k, c⟩ := p
    obtain ⟨h1, h2, h3, h4⟩ := memoryWf_cons.1 hm
    unfold insertCell
    split
    · next hlt =>
      split
      · exact hm
      · next hb =>
        refine memoryWf_cons.2 ⟨ha, hb, ?_, hm⟩
        intro p hp
        rcases List.mem_cons.1 hp with rfl | hp
        · exact hlt
        · exact Nat.lt_trans hlt (h3 p hp)
    · split
      · next heq =>
        split
        · exact h4
        · next hb => exact memoryWf_cons.2 ⟨ha, hb, heq ▸ h3, h4⟩
      · next hlt hne =>
        exact memoryWf_cons.2 ⟨h1, h2, allAbove_insertCell h3 (by omega), ih h4⟩

theorem readCell_insertCell {m : Memory} {a : Nat} {b : Byte} (hm : memoryWf m = true) (c : Nat) :
    readCell (insertCell m a b) c = if c = a then b else readCell m c := by
  induction m with
  | nil =>
    unfold insertCell
    split
    · next h => simp [readCell, h]
    · by_cases hc : c = a
      · simp [readCell, hc]
      · simp [readCell, hc, Ne.symm hc]
  | cons p m ih =>
    obtain ⟨k, d⟩ := p
    obtain ⟨-, -, h3, h4⟩ := memoryWf_cons.1 hm
    have hz : ∀ x, x ≤ k → readCell m x = 0 := fun x hx => readCell_of_allAbove h3 hx
    unfold insertCell
    split
    · next hlt =>
      by_cases hc : c = a
      · subst hc
        split
        · next hb =>
          have hkc : k ≠ c := Nat.ne_of_gt hlt
          rw [readCell, if_neg hkc, hz c (Nat.le_of_lt hlt), if_pos rfl, hb]
        · simp [readCell]
      · split
        · rfl
        · simp [readCell, Ne.symm hc]
    · split
      · next heq =>
        subst heq
        by_cases hc : c = a
        · subst hc
          split
          · next hb => simp [hz c le_rfl, hb]
          · simp [readCell]
        · split
          · simp [readCell, Ne.symm hc]
          · simp [readCell, Ne.symm hc]
      · next hne =>
        by_cases hk : k = c
        · subst hk
          have : k ≠ a := by omega
          simp [readCell, this]
        · simp [readCell, hk, ih h4]

/-- Every store keeps the canonical form. -/
theorem memoryWf_writeCell {m : Memory} (hm : memoryWf m = true) (a : Nat) (b : Byte) :
    memoryWf (writeCell m a b) = true := by
  unfold writeCell
  split
  · next h => exact memoryWf_insertCell hm h
  · exact hm

/-- What a cell reads after a store: the stored byte at its address, its old content elsewhere. -/
theorem readCell_writeCell {m : Memory} (hm : memoryWf m = true) (a : Nat) (b : Byte) (c : Nat) :
    readCell (writeCell m a b) c = if c = a ∧ a < 528 then b else readCell m c := by
  unfold writeCell
  by_cases h : a < 528
  · have h' : a < Config.bufSize := h
    simp [h, h', readCell_insertCell hm]
  · have h' : ¬ a < Config.bufSize := h
    simp [h, h']

theorem readCell_writeCell_self {m : Memory} (hm : memoryWf m = true) {a : Nat} (ha : a < 528) (b : Byte) :
    readCell (writeCell m a b) a = b := by
  simp [readCell_writeCell hm, ha]

theorem readCell_writeCell_of_ne {m : Memory} (hm : memoryWf m = true) {a c : Nat} (b : Byte) (h : c ≠ a) :
    readCell (writeCell m a b) c = readCell m c := by
  simp [readCell_writeCell hm, h]

/-- A canonical buffer has no cell from 528 on. -/
theorem readCell_of_ge {m : Memory} (hm : memoryWf m = true) {a : Nat} (ha : 528 ≤ a) : readCell m a = 0 := by
  induction m with
  | nil => rfl
  | cons p m ih =>
    obtain ⟨k, b⟩ := p
    obtain ⟨h1, -, -, h4⟩ := memoryWf_cons.1 hm
    have hka : k ≠ a := by omega
    rw [readCell, if_neg hka, ih h4]

/-- Equal memories are equal data: two canonical buffers that read alike are the same list. -/
theorem memory_ext {m n : Memory} (hm : memoryWf m = true) (hn : memoryWf n = true)
    (h : ∀ a, readCell m a = readCell n a) : m = n := by
  induction m generalizing n with
  | nil =>
    cases n with
    | nil => rfl
    | cons p n =>
      obtain ⟨k, b⟩ := p
      obtain ⟨-, h2, -, -⟩ := memoryWf_cons.1 hn
      have := h k
      simp [readCell] at this
      exact absurd this.symm h2
  | cons p m ih =>
    obtain ⟨k, b⟩ := p
    obtain ⟨-, hb, hk, hm'⟩ := memoryWf_cons.1 hm
    cases n with
    | nil =>
      have := h k
      simp [readCell] at this
      exact absurd this hb
    | cons q n =>
      obtain ⟨l, c⟩ := q
      obtain ⟨-, hc, hl, hn'⟩ := memoryWf_cons.1 hn
      have hkl : k = l := by
        by_contra hne
        rcases Nat.lt_or_gt_of_ne hne with hlt | hgt
        · have := h k
          rw [readCell, if_pos rfl, readCell, if_neg (by omega), readCell_of_allAbove hl (by omega)] at this
          exact hb this
        · have := h l
          rw [readCell, if_neg (by omega), readCell_of_allAbove hk (by omega), readCell, if_pos rfl] at this
          exact hc this.symm
      subst hkl
      have hbc : b = c := by simpa [readCell] using h k
      subst hbc
      congr 1
      apply ih hm' hn'
      intro a
      by_cases ha : k = a
      · subst ha
        rw [readCell_of_allAbove hk le_rfl, readCell_of_allAbove hl le_rfl]
      · simpa [readCell, ha] using h a

/-! ### Four-byte stores -/

theorem memoryWf_writeQuad {m : Memory} (hm : memoryWf m = true) (a : Nat) (q : Quad) :
    memoryWf (writeQuad m a q) = true := by
  unfold writeQuad
  exact memoryWf_writeCell (memoryWf_writeCell (memoryWf_writeCell (memoryWf_writeCell hm _ _) _ _) _ _) _ _

theorem readCell_writeQuad {m : Memory} (hm : memoryWf m = true) {a : Nat} (ha : a + 4 ≤ 528) (q : Quad) (c : Nat) :
    readCell (writeQuad m a q) c =
      if c = a then q.b0 else if c = a + 1 then q.b1 else if c = a + 2 then q.b2 else if c = a + 3 then q.b3
      else readCell m c := by
  have w1 := memoryWf_writeCell hm a q.b0
  have w2 := memoryWf_writeCell w1 (a + 1) q.b1
  have w3 := memoryWf_writeCell w2 (a + 2) q.b2
  unfold writeQuad
  rw [readCell_writeCell w3, readCell_writeCell w2, readCell_writeCell w1, readCell_writeCell hm]
  have l0 : a < 528 := by omega
  have l1 : a + 1 < 528 := by omega
  have l2 : a + 2 < 528 := by omega
  have l3 : a + 3 < 528 := by omega
  simp only [l0, l1, l2, l3, and_true]
  by_cases h0 : c = a
  · subst h0; simp
  by_cases h1 : c = a + 1
  · subst h1; simp
  by_cases h2 : c = a + 2
  · subst h2; simp
  simp [h0, h1, h2]

theorem readCell_writeQuad_of_not_mem {m : Memory} (hm : memoryWf m = true) {a c : Nat} (q : Quad)
    (h : c < a ∨ a + 4 ≤ c) : readCell (writeQuad m a q) c = readCell m c := by
  have w1 := memoryWf_writeCell hm a q.b0
  have w2 := memoryWf_writeCell w1 (a + 1) q.b1
  have w3 := memoryWf_writeCell w2 (a + 2) q.b2
  unfold writeQuad
  rw [readCell_writeCell_of_ne w3 _ (by omega), readCell_writeCell_of_ne w2 _ (by omega),
    readCell_writeCell_of_ne w1 _ (by omega), readCell_writeCell_of_ne hm _ (by omega)]

theorem readQuad_writeQuad_self {m : Memory} (hm : memoryWf m = true) {a : Nat} (ha : a + 4 ≤ 528) (q : Quad) :
    readQuad (writeQuad m a q) a = q := by
  simp [readQuad, readCell_writeQuad hm ha]

/-! ### Reads depend only on the cells read -/

theorem readQuad_congr {m n : Memory} {a : Nat} (h : ∀ c, a ≤ c → c < a + 4 → readCell n c = readCell m c) :
    readQuad n a = readQuad m a := by
  simp [readQuad, h a (by omega) (by omega), h (a + 1) (by omega) (by omega), h (a + 2) (by omega) (by omega),
    h (a + 3) (by omega) (by omega)]

theorem readBytes_congr {m n : Memory} (k : Nat) {a : Nat} (h : ∀ c, a ≤ c → c < a + k → readCell n c = readCell m c) :
    readBytes n a k = readBytes m a k := by
  induction k generalizing a with
  | zero => rfl
  | succ k ih =>
    rw [readBytes, readBytes, h a (by omega) (by omega), ih fun c h1 h2 => h c (by omega) (by omega)]

theorem readWindow_congr {m n : Memory} {lo hi : Nat} (h : ∀ c, lo ≤ c → c ≤ hi → readCell n c = readCell m c) :
    readWindow n lo hi = readWindow m lo hi :=
  readBytes_congr _ fun c h1 h2 => h c h1 (by omega)

@[simp] theorem readBytes_length (m : Memory) (a k : Nat) : (readBytes m a k).length = k := by
  induction k generalizing a with
  | zero => rfl
  | succ k ih => simp [readBytes, ih]

end Sys2Proof.Machine
end

