-- ==== Sys2Proof/Laws/Preset.lean ====
section
/-! SUPPORT. Decoding the fields of a preset (42_preset.md R75): lengths, and which cells it depends on. -/

namespace Sys2Proof.Machine

/-- One value per entry. -/
theorem decodeEntries_values_length (m : Memory) (t : List FieldEntry) (fv : List Int) (viol : List VRec) :
    (decodeEntries m t fv viol).values.length = fv.length + t.length := by
  induction t generalizing fv viol with
  | nil => rfl
  | cons e es ih =>
    rw [decodeEntries, ih]
    simp only [List.length_append, List.length_cons, List.length_nil]
    omega

/-- At most one record per entry. -/
theorem decodeEntries_violations_length (m : Memory) (t : List FieldEntry) (fv : List Int) (viol : List VRec) :
    (decodeEntries m t fv viol).violations.length ≤ viol.length + t.length := by
  induction t generalizing fv viol with
  | nil => exact Nat.le_refl _
  | cons e es ih =>
    rw [decodeEntries]
    refine Nat.le_trans (ih _ _) ?_
    split <;> simp only [List.length_append, List.length_cons, List.length_nil] <;> omega

theorem decodeFields_values_length (m : Memory) (t : List FieldEntry) :
    (decodeFields m t).values.length = t.length := by
  rw [decodeFields, decodeEntries_values_length, List.length_nil, Nat.zero_add]

theorem decodeFields_violations_length (m : Memory) (t : List FieldEntry) :
    (decodeFields m t).violations.length ≤ t.length := by
  have := decodeEntries_violations_length m t [] []
  rwa [List.length_nil, Nat.zero_add] at this

/-- Decoding reads nothing but the four bytes of each entry. -/
theorem decodeEntries_congr {m n : Memory} {t : List FieldEntry}
    (h : ∀ e ∈ t, readQuad n e.off = readQuad m e.off) (fv : List Int) (viol : List VRec) :
    decodeEntries n t fv viol = decodeEntries m t fv viol := by
  induction t generalizing fv viol with
  | nil => rfl
  | cons e es ih =>
    have hv : ∀ v, fieldValue n e v = fieldValue m e v := fun v => by
      unfold fieldValue
      rw [h e (List.mem_cons_self ..)]
    simp only [decodeEntries, hv]
    exact ih (fun e' he' => h e' (List.mem_cons_of_mem _ he')) _ _

theorem decodeFields_congr {m n : Memory} {t : List FieldEntry}
    (h : ∀ e ∈ t, readQuad n e.off = readQuad m e.off) : decodeFields n t = decodeFields m t :=
  decodeEntries_congr h [] []

/-- A field of a well-formed table lies in bytes 34..517 (42_preset.md R69 b). -/
theorem wfEntries_off {t : List FieldEntry} {i : Nat} (h : wfEntries i t = true) {e : FieldEntry} (he : e ∈ t) :
    34 ≤ e.off ∧ e.off + 3 ≤ 517 := by
  induction t generalizing i with
  | nil => cases he
  | cons d ds ih =>
    simp only [wfEntries, Bool.and_eq_true] at h
    rcases List.mem_cons.1 he with rfl | he
    · simp only [wfEntry, Bool.and_eq_true, decide_eq_true_eq] at h
      exact h.1.1.1
    · exact ih h.2 he

theorem wfCfg_off {c : Cfg} (h : wfCfg c = true) {e : FieldEntry} (he : e ∈ c.fieldTable) :
    34 ≤ e.off ∧ e.off + 3 ≤ 517 := by
  have := (wfCfg_parts h).2.2.2.2.2
  simp only [wfTable, Bool.and_eq_true] at this
  exact wfEntries_off this.2 he

/-! ### The name -/

theorem nameLength_le (m : Memory) (n : Nat) : nameLength m n ≤ n := by
  induction n with
  | zero => exact Nat.le_refl _
  | succ n ih =>
    rw [nameLength]
    split
    · exact Nat.le_refl _
    · exact Nat.le_succ_of_le ih

theorem nameLength_congr {m n : Memory} (k : Nat) (h : ∀ a, 10 ≤ a → a < 10 + k → readCell n a = readCell m a) :
    nameLength n k = nameLength m k := by
  induction k with
  | zero => rfl
  | succ k ih =>
    rw [nameLength, nameLength, ih fun a h1 h2 => h a h1 (by omega), h (Config.nameOff + k) (by simp [Config.nameOff])
      (by simp only [Config.nameOff]; omega)]

/-! ### The violation list -/

/-- Overlaying records keeps the length of the list. -/
theorem overlay_length {new old : List VRec} (h : new.length ≤ old.length) : (overlay new old).length = old.length := by
  simp only [overlay, List.length_append, List.length_drop]
  omega

/-- The records from 0 on are the new ones. -/
theorem overlay_take (new old : List VRec) : (overlay new old).take new.length = new := by
  simp [overlay]

/-- The records past the new ones are the old ones. -/
theorem overlay_getElem? (new old : List VRec) {n : Nat} (h : new.length ≤ n) : (overlay new old)[n]? = old[n]? := by
  rw [overlay, List.getElem?_append_right h, List.getElem?_drop]
  congr 1
  omega

/-! ### Structural checks -/

/-- The structural checks read seven header cells and the frame end, and nothing else. -/
theorem headerChecks_congr {m n : Memory} {ok : Bool} {last : Nat} {sub : Byte}
    (h : ∀ a, a < 8 → readCell n a = readCell m a) (hl : readCell n last = readCell m last) :
    headerChecks n ok last sub = headerChecks m ok last sub := by
  simp only [headerChecks, hl, h 0 (by omega), h 1 (by omega), h 2 (by omega), h 3 (by omega), h 5 (by omega),
    h 6 (by omega), h 7 (by omega)]

end Sys2Proof.Machine
end

