-- ==== Sys2Proof/Laws/DeviceTable.lean ====
section
/-! SUPPORT. What 42_preset.md R70 gives a decode: the governing entry comes first, its value selects the condition, and
a small raw value decodes to itself. -/

namespace Sys2Proof.Machine

/-- A raw value in the direct regime decodes to itself under every variant (40_varint.md R51); R70 (d) says so of 2. -/
theorem fieldValue_direct {m : Memory} {e : FieldEntry} (h0 : dec28 (readQuad m e.off) ≠ 0)
    (h : dec28 (readQuad m e.off) ≤ Config.soThreshold) (v : Variant) : fieldValue m e v = dec28 (readQuad m e.off) := by
  unfold fieldValue decSO
  split
  · rfl
  · rw [if_neg h0, if_neg (Nat.not_lt.2 h)]

/-- The mux selects the condition for the governing entry's value. -/
theorem selectVariant_governed {e : FieldEntry} {j : Nat} {d : Int} {fv : List Int} (hg : governedBy j e = true)
    (hd : fv[j]? = some d) : (selectVariant e fv).cond = conditionFor e d := by
  unfold governedBy at hg
  split at hg
  · cases hg
  · next k cases hk =>
    rw [beq_iff_eq] at hg
    subst hg
    simp only [selectVariant, hk, hd, conditionFor, casesOf]

/-- In a well-formed table the governing entry comes first (42_preset.md R69 c). -/
theorem wfEntries_governed {t : List FieldEntry} {i k j : Nat} {e : FieldEntry} (h : wfEntries i t = true)
    (he : t[k]? = some e) (hg : governedBy j e = true) : j < i + k := by
  induction t generalizing i k with
  | nil => simp at he
  | cons d ds ih =>
    simp only [wfEntries, Bool.and_eq_true] at h
    cases k with
    | zero =>
      simp only [List.getElem?_cons_zero, Option.some.injEq] at he
      subst he
      simp only [wfEntry, Bool.and_eq_true] at h
      have hd := h.1.2
      unfold governedBy at hg
      split at hg
      · cases hg
      · next l cases hl =>
        rw [beq_iff_eq] at hg
        simp only [hl, wfDisc, Bool.and_eq_true, decide_eq_true_eq] at hd
        omega
    | succ k =>
      have := ih h.2 (by simpa using he)
      omega

end Sys2Proof.Machine
end

