-- ==== Sys2Proof/Laws/Encoding.lean ====
section
/-! SUPPORT. The fields of a packed command word, read back one by one. -/

namespace Sys2Proof

@[simp] theorem regOfField_fieldOfReg (r : Reg) : regOfField (fieldOfReg r) = r := rfl

@[simp] theorem fieldOp_packWord (op : BitVec 8) (ra rb rc : Reg) (imm : BitVec 32) :
    fieldOp (packWord op ra rb rc imm) = op := by
  ext i hi
  have h1 : 56 + i < 64 := by omega
  simp only [fieldOp, wordField, packWord, BitVec.getElem_extractLsb', BitVec.getLsbD_or, BitVec.getLsbD_shiftLeft,
    BitVec.getLsbD_setWidth, h1]
  rw [BitVec.getLsbD_of_ge (fieldOfReg ra) _ (by omega), BitVec.getLsbD_of_ge (fieldOfReg rb) _ (by omega),
    BitVec.getLsbD_of_ge (fieldOfReg rc) _ (by omega), BitVec.getLsbD_of_ge imm _ (by omega)]
  have h2 : i < 64 := by omega
  simp [h2, BitVec.getLsbD_eq_getElem hi]

@[simp] theorem fieldRa_packWord (op : BitVec 8) (ra rb rc : Reg) (imm : BitVec 32) :
    fieldRa (packWord op ra rb rc imm) = ra := by
  rw [fieldRa, show wordField (packWord op ra rb rc imm) 52 4 = fieldOfReg ra from ?_, regOfField_fieldOfReg]
  ext i hi
  have h1 : 52 + i < 64 := by omega
  have h2 : 52 + i < 56 := by omega
  simp only [wordField, packWord, BitVec.getElem_extractLsb', BitVec.getLsbD_or, BitVec.getLsbD_shiftLeft,
    BitVec.getLsbD_setWidth, h1, h2]
  rw [BitVec.getLsbD_of_ge (fieldOfReg rb) _ (by omega),
    BitVec.getLsbD_of_ge (fieldOfReg rc) _ (by omega), BitVec.getLsbD_of_ge imm _ (by omega)]
  have h3 : i < 64 := by omega
  simp [h3, BitVec.getLsbD_eq_getElem hi]

@[simp] theorem fieldRb_packWord (op : BitVec 8) (ra rb rc : Reg) (imm : BitVec 32) :
    fieldRb (packWord op ra rb rc imm) = rb := by
  rw [fieldRb, show wordField (packWord op ra rb rc imm) 48 4 = fieldOfReg rb from ?_, regOfField_fieldOfReg]
  ext i hi
  have h1 : 48 + i < 64 := by omega
  have h2 : 48 + i < 56 := by omega
  have h3 : 48 + i < 52 := by omega
  simp only [wordField, packWord, BitVec.getElem_extractLsb', BitVec.getLsbD_or, BitVec.getLsbD_shiftLeft,
    BitVec.getLsbD_setWidth, h1, h2, h3]
  rw [BitVec.getLsbD_of_ge (fieldOfReg rc) _ (by omega), BitVec.getLsbD_of_ge imm _ (by omega)]
  have h4 : i < 64 := by omega
  simp [h4, BitVec.getLsbD_eq_getElem hi]

@[simp] theorem fieldRc_packWord (op : BitVec 8) (ra rb rc : Reg) (imm : BitVec 32) :
    fieldRc (packWord op ra rb rc imm) = rc := by
  rw [fieldRc, show wordField (packWord op ra rb rc imm) 44 4 = fieldOfReg rc from ?_, regOfField_fieldOfReg]
  ext i hi
  have h1 : 44 + i < 64 := by omega
  have h2 : 44 + i < 56 := by omega
  have h3 : 44 + i < 52 := by omega
  have h4 : 44 + i < 48 := by omega
  simp only [wordField, packWord, BitVec.getElem_extractLsb', BitVec.getLsbD_or, BitVec.getLsbD_shiftLeft,
    BitVec.getLsbD_setWidth, h1, h2, h3, h4]
  rw [BitVec.getLsbD_of_ge imm _ (by omega)]
  have h5 : i < 64 := by omega
  simp [h5, BitVec.getLsbD_eq_getElem hi]

/-- A field that lies inside `imm` is read from `imm` alone. -/
theorem wordField_packWord (op : BitVec 8) (ra rb rc : Reg) (imm : BitVec 32) (lo n : Nat) (h : lo + n ≤ 32) :
    wordField (packWord op ra rb rc imm) lo n = imm.extractLsb' lo n := by
  ext i hi
  have h1 : lo + i < 64 := by omega
  have h2 : lo + i < 56 := by omega
  have h3 : lo + i < 52 := by omega
  have h4 : lo + i < 48 := by omega
  have h5 : lo + i < 44 := by omega
  simp [wordField, packWord, h1, h2, h3, h4, h5]

/-! ### The immediate fields, read back -/

@[simp] theorem fieldImm32_packWord (op : BitVec 8) (ra rb rc : Reg) (v : BitVec 32) :
    fieldImm32 (packWord op ra rb rc v) = v := by
  rw [fieldImm32, wordField_packWord _ _ _ _ _ _ _ (by omega)]
  simp

@[simp] theorem fieldOff_packWord (op : BitVec 8) (ra rb rc : Reg) (off : BitVec 10) :
    fieldOff (packWord op ra rb rc (immOff off)) = off := by
  rw [fieldOff, wordField_packWord _ _ _ _ _ _ _ (by omega)]
  ext i hi
  have h : i < 32 := by omega
  simp [immOff, hi, h]

@[simp] theorem fieldOff_packWord_window (op : BitVec 8) (ra rb rc : Reg) (lo hi : BitVec 10) :
    fieldOff (packWord op ra rb rc (immWindow lo hi)) = lo := by
  rw [fieldOff, wordField_packWord _ _ _ _ _ _ _ (by omega)]
  ext i h
  have h1 : i < 16 := by omega
  have h2 : i < 32 := by omega
  simp [immWindow, h, h1, h2]

@[simp] theorem fieldHi_packWord_window (op : BitVec 8) (ra rb rc : Reg) (lo hi : BitVec 10) :
    fieldHi (packWord op ra rb rc (immWindow lo hi)) = hi := by
  rw [fieldHi, wordField_packWord _ _ _ _ _ _ _ (by omega)]
  ext i h
  have h1 : 16 + i < 32 := by omega
  have h2 : lo.getLsbD (16 + i) = false := BitVec.getLsbD_of_ge lo _ (by omega)
  simp [immWindow, h, h1, h2]

@[simp] theorem fieldCrn_packWord (op : BitVec 8) (ra rb rc : Reg) (crn : BitVec 3) :
    fieldCrn (packWord op ra rb rc (immCrn crn)) = crn := by
  rw [fieldCrn, wordField_packWord _ _ _ _ _ _ _ (by omega)]
  ext i hi
  have h : i < 32 := by omega
  simp [immCrn, hi, h]

@[simp] theorem fieldFid_packWord (op : BitVec 8) (ra rb rc : Reg) (fid : BitVec 8) :
    fieldFid (packWord op ra rb rc (immFid fid)) = fid := by
  rw [fieldFid, wordField_packWord _ _ _ _ _ _ _ (by omega)]
  ext i hi
  have h : i < 32 := by omega
  simp [immFid, hi, h]

@[simp] theorem fieldK_packWord (op : BitVec 8) (ra rb rc : Reg) (k : BitVec 2) :
    fieldK (packWord op ra rb rc (immK k)) = k := by
  rw [fieldK, wordField_packWord _ _ _ _ _ _ _ (by omega)]
  ext i hi
  have h : i < 32 := by omega
  simp [immK, hi, h]

@[simp] theorem fieldFid_packWord_record (op : BitVec 8) (ra rb rc : Reg) (n : BitVec 8) (w : BitVec 3) :
    fieldFid (packWord op ra rb rc (immRecord n w)) = n := by
  rw [fieldFid, wordField_packWord _ _ _ _ _ _ _ (by omega)]
  ext i hi
  have h : i < 32 := by omega
  simp [immRecord, hi, h]

@[simp] theorem fieldRecordWord_packWord_record (op : BitVec 8) (ra rb rc : Reg) (n : BitVec 8) (w : BitVec 3) :
    fieldRecordWord (packWord op ra rb rc (immRecord n w)) = w := by
  rw [fieldRecordWord, wordField_packWord _ _ _ _ _ _ _ (by omega)]
  ext i hi
  have h1 : 8 + i < 32 := by omega
  simp [immRecord, hi, h1]

/-- Masking distributes over joining. -/
theorem or_and (a b m : CommandWord) : (a ||| b) &&& m = (a &&& m) ||| (b &&& m) := by
  ext i hi
  simp [Bool.and_or_distrib_right]

/-- A value of 32 bits leaves no trace under a mask without its low 32 bits. -/
theorem setWidth_and_high (imm : BitVec 32) (m : CommandWord) (h : m.setWidth 32 = 0) : imm.setWidth 64 &&& m = 0 := by
  ext i hi
  by_cases h2 : i < 32
  · have := congrArg (fun v => v.getLsbD i) h
    simp only [BitVec.getLsbD_setWidth, h2] at this
    simp only [BitVec.getElem_and]
    rw [← BitVec.getLsbD_eq_getElem hi, ← BitVec.getLsbD_eq_getElem hi]
    simp at this
    simp [this]
  · simp [BitVec.getLsbD_of_ge imm i (by omega)]

end Sys2Proof
end

