-- ==== Sys2Proof/Laws/Formats.lean ====
section
/-! SUPPORT. The bit formulas of the formats as plain arithmetic, so that `omega` can use them. -/

namespace Sys2Proof.Machine

@[simp] theorem byteOf_toNat (v : Nat) : (byteOf v).toNat = v % 256 := by simp [byteOf]

theorem byteOf_toNat_of_lt {v : Nat} (h : v < 256) : (byteOf v).toNat = v := by simp [Nat.mod_eq_of_lt h]

@[simp] theorem byteOf_toNat_self (b : Byte) : byteOf b.toNat = b := by simp [byteOf]

theorem and_seven_bits (v : Nat) : v &&& 0x7F = v % 128 := by
  have := Nat.and_two_pow_sub_one_eq_mod v 7
  simpa using this

theorem and_six_bits (v : Nat) : v &&& 0x3F = v % 64 := by
  have := Nat.and_two_pow_sub_one_eq_mod v 6
  simpa using this

theorem and_five_bits (v : Nat) : v &&& 0x1F = v % 32 := by
  have := Nat.and_two_pow_sub_one_eq_mod v 5
  simpa using this

theorem and_two_bits (v : Nat) : v &&& 3 = v % 4 := by
  have := Nat.and_two_pow_sub_one_eq_mod v 2
  simpa using this

theorem and_one_bit (v : Nat) : v &&& 1 = v % 2 := by
  simp

/-- Joining a value of `n` bits with a shifted one is adding them. -/
theorem or_shiftLeft_eq_add {a : Nat} (n b : Nat) (h : a < 2 ^ n) : a ||| (b <<< n) = a + b * 2 ^ n := by
  rw [Nat.or_comm, ← Nat.shiftLeft_add_eq_or_of_lt h, Nat.shiftLeft_eq, Nat.add_comm]

/-- `bits` as division and remainder. -/
theorem bits_eq (v hi lo : Nat) : bits v hi lo = v / 2 ^ lo % 2 ^ (hi - lo + 1) := by
  rw [bits, Nat.shiftRight_eq_div_pow]

/-- `dec28` as a sum of 7-bit groups. -/
theorem dec28_eq (q : Quad) :
    dec28 q = q.b0.toNat % 128 + q.b1.toNat % 128 * 128 + q.b2.toNat % 128 * 16384 + q.b3.toNat % 128 * 2097152 := by
  unfold dec28
  simp only [and_seven_bits]
  rw [or_shiftLeft_eq_add 7 _ (by omega), or_shiftLeft_eq_add 14 _ (by omega), or_shiftLeft_eq_add 21 _ (by omega)]
  norm_num

/-- The four bytes of `enc28` as numbers. -/
theorem enc28_toNat (v : Nat) :
    (enc28 v).b0.toNat = v % 128 ∧ (enc28 v).b1.toNat = v / 128 % 128 ∧
    (enc28 v).b2.toNat = v / 16384 % 128 ∧ (enc28 v).b3.toNat = v / 2097152 % 128 := by
  simp only [enc28, byteOf_toNat, bits_eq]
  norm_num
  omega

/-- Four bytes are known by their numbers. -/
theorem Quad.ext_toNat {p q : Quad} (h0 : p.b0.toNat = q.b0.toNat) (h1 : p.b1.toNat = q.b1.toNat)
    (h2 : p.b2.toNat = q.b2.toNat) (h3 : p.b3.toNat = q.b3.toNat) : p = q := by
  cases p
  cases q
  simp only [Quad.mk.injEq]
  exact ⟨BitVec.eq_of_toNat_eq h0, BitVec.eq_of_toNat_eq h1, BitVec.eq_of_toNat_eq h2, BitVec.eq_of_toNat_eq h3⟩

theorem csum_eq (bs : List Byte) : csum bs = byteSum bs % 128 := and_seven_bits _

theorem csum_lt (bs : List Byte) : csum bs < 128 := by rw [csum_eq]; omega

/-- The sub-values of a group as numbers. -/
theorem unpack3_eq (q : Quad) : unpack3 q =
    { v1 := q.b2.toNat / 4 % 32 + 32 * (q.b3.toNat % 4),
      v2 := q.b1.toNat / 2 % 64 + 64 * (q.b2.toNat % 2),
      v3 := q.b0.toNat % 128 } := by
  simp only [unpack3, and_seven_bits, and_six_bits, and_five_bits, and_two_bits, and_one_bit, Nat.shiftRight_eq_div_pow,
    pow_one, Nat.reducePow]

/-- Every sub-value of a group is in 0..127. -/
theorem unpack3_le (q : Quad) : (unpack3 q).v1 ≤ 127 ∧ (unpack3 q).v2 ≤ 127 ∧ (unpack3 q).v3 ≤ 127 := by
  rw [unpack3_eq]
  refine ⟨?_, ?_, ?_⟩ <;> simp only <;> omega

/-- A lane read back after it was set, and the other lanes. -/
theorem getLane_setLane_self (o : LaneOrder) (t : Triple) (l v : Nat) : getLane o (setLane o t l v) l = v := by
  unfold getLane setLane
  cases laneOf o l <;> rfl

theorem laneOf_injective (o : LaneOrder) {l k : Nat} (hl : l < 3) (hk : k < 3) (h : laneOf o l = laneOf o k) : l = k := by
  have hl' : l = 0 ∨ l = 1 ∨ l = 2 := by omega
  have hk' : k = 0 ∨ k = 1 ∨ k = 2 := by omega
  rcases hl' with rfl | rfl | rfl <;> rcases hk' with rfl | rfl | rfl <;> cases o <;> simp [laneOf] at h ⊢

theorem getLane_setLane_of_ne (o : LaneOrder) (t : Triple) {l k : Nat} (v : Nat) (hl : l < 3) (hk : k < 3) (h : k ≠ l) :
    getLane o (setLane o t l v) k = getLane o t k := by
  have hne : laneOf o k ≠ laneOf o l := fun e => h (laneOf_injective o hk hl e)
  unfold getLane setLane
  revert hne
  cases laneOf o k <;> cases laneOf o l <;> intro hne <;> first | rfl | exact absurd rfl hne

/-- A small non-negative integer is the value of its pattern. -/
theorem patternOf_toNat {v : Nat} (h : v < 2 ^ 32) : (patternOf (v : Int)).toNat = v := by
  unfold patternOf
  rw [BitVec.toNat_ofInt]
  norm_num at h ⊢
  omega

/-- An integer of 32 bits signed is the signed value of its pattern. -/
theorem sval_patternOf {v : Int} (h1 : -2147483648 ≤ v) (h2 : v ≤ 2147483647) : sval (patternOf v) = v := by
  unfold sval patternOf
  rw [BitVec.toInt_ofInt]
  rw [Int.bmod_eq_of_le] <;> norm_num <;> omega

/-- The range test as inequalities. -/
@[simp] theorem inRange_eq_true (v : Int) (lo hi : Nat) : inRange v lo hi = true ↔ (lo : Int) ≤ v ∧ v ≤ hi := by
  simp [inRange]

end Sys2Proof.Machine
end

