-- ==== Sys2Proof/Laws/State.lean ====
section
/-! SUPPORT. One lemma per field per update of `State`, each true by `rfl`, so that no proof unfolds an update; and
register reads after each update. -/

namespace Sys2Proof.Machine

/-! ### `setReg` -/

@[simp] theorem State.setReg_x (s : State) (i : Reg) (w : Word) : (s.setReg i w).x = s.x.set i w := rfl
@[simp] theorem State.setReg_status (s : State) (i : Reg) (w : Word) : (s.setReg i w).status = s.status := rfl
@[simp] theorem State.setReg_len (s : State) (i : Reg) (w : Word) : (s.setReg i w).len = s.len := rfl
@[simp] theorem State.setReg_kind (s : State) (i : Reg) (w : Word) : (s.setReg i w).kind = s.kind := rfl
@[simp] theorem State.setReg_num (s : State) (i : Reg) (w : Word) : (s.setReg i w).num = s.num := rfl
@[simp] theorem State.setReg_namelen (s : State) (i : Reg) (w : Word) : (s.setReg i w).namelen = s.namelen := rfl
@[simp] theorem State.setReg_nviol (s : State) (i : Reg) (w : Word) : (s.setReg i w).nviol = s.nviol := rfl
@[simp] theorem State.setReg_fv (s : State) (i : Reg) (w : Word) : (s.setReg i w).fv = s.fv := rfl
@[simp] theorem State.setReg_vl (s : State) (i : Reg) (w : Word) : (s.setReg i w).vl = s.vl := rfl
@[simp] theorem State.setReg_mem (s : State) (i : Reg) (w : Word) : (s.setReg i w).mem = s.mem := rfl
@[simp] theorem State.setReg_cfg (s : State) (i : Reg) (w : Word) : (s.setReg i w).cfg = s.cfg := rfl
@[simp] theorem State.setReg_host (s : State) (i : Reg) (w : Word) : (s.setReg i w).host = s.host := rfl

/-! ### `setStatus` -/

@[simp] theorem State.setStatus_x (s : State) (st : BitVec 14) : (s.setStatus st).x = s.x := rfl
@[simp] theorem State.setStatus_status (s : State) (st : BitVec 14) : (s.setStatus st).status = st := rfl
@[simp] theorem State.setStatus_len (s : State) (st : BitVec 14) : (s.setStatus st).len = s.len := rfl
@[simp] theorem State.setStatus_kind (s : State) (st : BitVec 14) : (s.setStatus st).kind = s.kind := rfl
@[simp] theorem State.setStatus_num (s : State) (st : BitVec 14) : (s.setStatus st).num = s.num := rfl
@[simp] theorem State.setStatus_namelen (s : State) (st : BitVec 14) : (s.setStatus st).namelen = s.namelen := rfl
@[simp] theorem State.setStatus_nviol (s : State) (st : BitVec 14) : (s.setStatus st).nviol = s.nviol := rfl
@[simp] theorem State.setStatus_fv (s : State) (st : BitVec 14) : (s.setStatus st).fv = s.fv := rfl
@[simp] theorem State.setStatus_vl (s : State) (st : BitVec 14) : (s.setStatus st).vl = s.vl := rfl
@[simp] theorem State.setStatus_mem (s : State) (st : BitVec 14) : (s.setStatus st).mem = s.mem := rfl
@[simp] theorem State.setStatus_cfg (s : State) (st : BitVec 14) : (s.setStatus st).cfg = s.cfg := rfl
@[simp] theorem State.setStatus_host (s : State) (st : BitVec 14) : (s.setStatus st).host = s.host := rfl
@[simp] theorem State.setStatus_reg (s : State) (st : BitVec 14) (r : Reg) : (s.setStatus st).reg r = s.reg r := rfl

/-! ### `setLen` -/

@[simp] theorem State.setLen_x (s : State) (n : Nat) : (s.setLen n).x = s.x := rfl
@[simp] theorem State.setLen_status (s : State) (n : Nat) : (s.setLen n).status = s.status := rfl
@[simp] theorem State.setLen_len (s : State) (n : Nat) : (s.setLen n).len = BitVec.ofNat 10 n := rfl
@[simp] theorem State.setLen_kind (s : State) (n : Nat) : (s.setLen n).kind = s.kind := rfl
@[simp] theorem State.setLen_num (s : State) (n : Nat) : (s.setLen n).num = s.num := rfl
@[simp] theorem State.setLen_namelen (s : State) (n : Nat) : (s.setLen n).namelen = s.namelen := rfl
@[simp] theorem State.setLen_nviol (s : State) (n : Nat) : (s.setLen n).nviol = s.nviol := rfl
@[simp] theorem State.setLen_fv (s : State) (n : Nat) : (s.setLen n).fv = s.fv := rfl
@[simp] theorem State.setLen_vl (s : State) (n : Nat) : (s.setLen n).vl = s.vl := rfl
@[simp] theorem State.setLen_mem (s : State) (n : Nat) : (s.setLen n).mem = s.mem := rfl
@[simp] theorem State.setLen_cfg (s : State) (n : Nat) : (s.setLen n).cfg = s.cfg := rfl
@[simp] theorem State.setLen_host (s : State) (n : Nat) : (s.setLen n).host = s.host := rfl
@[simp] theorem State.setLen_reg (s : State) (n : Nat) (r : Reg) : (s.setLen n).reg r = s.reg r := rfl

/-! ### `setKind` -/

@[simp] theorem State.setKind_x (s : State) (k : Kind) : (s.setKind k).x = s.x := rfl
@[simp] theorem State.setKind_status (s : State) (k : Kind) : (s.setKind k).status = s.status := rfl
@[simp] theorem State.setKind_len (s : State) (k : Kind) : (s.setKind k).len = s.len := rfl
@[simp] theorem State.setKind_kind (s : State) (k : Kind) : (s.setKind k).kind = k := rfl
@[simp] theorem State.setKind_num (s : State) (k : Kind) : (s.setKind k).num = s.num := rfl
@[simp] theorem State.setKind_namelen (s : State) (k : Kind) : (s.setKind k).namelen = s.namelen := rfl
@[simp] theorem State.setKind_nviol (s : State) (k : Kind) : (s.setKind k).nviol = s.nviol := rfl
@[simp] theorem State.setKind_fv (s : State) (k : Kind) : (s.setKind k).fv = s.fv := rfl
@[simp] theorem State.setKind_vl (s : State) (k : Kind) : (s.setKind k).vl = s.vl := rfl
@[simp] theorem State.setKind_mem (s : State) (k : Kind) : (s.setKind k).mem = s.mem := rfl
@[simp] theorem State.setKind_cfg (s : State) (k : Kind) : (s.setKind k).cfg = s.cfg := rfl
@[simp] theorem State.setKind_host (s : State) (k : Kind) : (s.setKind k).host = s.host := rfl
@[simp] theorem State.setKind_reg (s : State) (k : Kind) (r : Reg) : (s.setKind k).reg r = s.reg r := rfl

/-! ### `setMem` -/

@[simp] theorem State.setMem_x (s : State) (m : Memory) : (s.setMem m).x = s.x := rfl
@[simp] theorem State.setMem_status (s : State) (m : Memory) : (s.setMem m).status = s.status := rfl
@[simp] theorem State.setMem_len (s : State) (m : Memory) : (s.setMem m).len = s.len := rfl
@[simp] theorem State.setMem_kind (s : State) (m : Memory) : (s.setMem m).kind = s.kind := rfl
@[simp] theorem State.setMem_num (s : State) (m : Memory) : (s.setMem m).num = s.num := rfl
@[simp] theorem State.setMem_namelen (s : State) (m : Memory) : (s.setMem m).namelen = s.namelen := rfl
@[simp] theorem State.setMem_nviol (s : State) (m : Memory) : (s.setMem m).nviol = s.nviol := rfl
@[simp] theorem State.setMem_fv (s : State) (m : Memory) : (s.setMem m).fv = s.fv := rfl
@[simp] theorem State.setMem_vl (s : State) (m : Memory) : (s.setMem m).vl = s.vl := rfl
@[simp] theorem State.setMem_mem (s : State) (m : Memory) : (s.setMem m).mem = m := rfl
@[simp] theorem State.setMem_cfg (s : State) (m : Memory) : (s.setMem m).cfg = s.cfg := rfl
@[simp] theorem State.setMem_host (s : State) (m : Memory) : (s.setMem m).host = s.host := rfl
@[simp] theorem State.setMem_reg (s : State) (m : Memory) (r : Reg) : (s.setMem m).reg r = s.reg r := rfl

/-! ### `setNviol` -/

@[simp] theorem State.setNviol_x (s : State) (n : Nat) : (s.setNviol n).x = s.x := rfl
@[simp] theorem State.setNviol_status (s : State) (n : Nat) : (s.setNviol n).status = s.status := rfl
@[simp] theorem State.setNviol_len (s : State) (n : Nat) : (s.setNviol n).len = s.len := rfl
@[simp] theorem State.setNviol_kind (s : State) (n : Nat) : (s.setNviol n).kind = s.kind := rfl
@[simp] theorem State.setNviol_num (s : State) (n : Nat) : (s.setNviol n).num = s.num := rfl
@[simp] theorem State.setNviol_namelen (s : State) (n : Nat) : (s.setNviol n).namelen = s.namelen := rfl
@[simp] theorem State.setNviol_nviol (s : State) (n : Nat) : (s.setNviol n).nviol = BitVec.ofNat 8 n := rfl
@[simp] theorem State.setNviol_fv (s : State) (n : Nat) : (s.setNviol n).fv = s.fv := rfl
@[simp] theorem State.setNviol_vl (s : State) (n : Nat) : (s.setNviol n).vl = s.vl := rfl
@[simp] theorem State.setNviol_mem (s : State) (n : Nat) : (s.setNviol n).mem = s.mem := rfl
@[simp] theorem State.setNviol_cfg (s : State) (n : Nat) : (s.setNviol n).cfg = s.cfg := rfl
@[simp] theorem State.setNviol_host (s : State) (n : Nat) : (s.setNviol n).host = s.host := rfl
@[simp] theorem State.setNviol_reg (s : State) (n : Nat) (r : Reg) : (s.setNviol n).reg r = s.reg r := rfl

/-! ### `setVl` -/

@[simp] theorem State.setVl_x (s : State) (vl : List VRec) : (s.setVl vl).x = s.x := rfl
@[simp] theorem State.setVl_status (s : State) (vl : List VRec) : (s.setVl vl).status = s.status := rfl
@[simp] theorem State.setVl_len (s : State) (vl : List VRec) : (s.setVl vl).len = s.len := rfl
@[simp] theorem State.setVl_kind (s : State) (vl : List VRec) : (s.setVl vl).kind = s.kind := rfl
@[simp] theorem State.setVl_num (s : State) (vl : List VRec) : (s.setVl vl).num = s.num := rfl
@[simp] theorem State.setVl_namelen (s : State) (vl : List VRec) : (s.setVl vl).namelen = s.namelen := rfl
@[simp] theorem State.setVl_nviol (s : State) (vl : List VRec) : (s.setVl vl).nviol = s.nviol := rfl
@[simp] theorem State.setVl_fv (s : State) (vl : List VRec) : (s.setVl vl).fv = s.fv := rfl
@[simp] theorem State.setVl_vl (s : State) (vl : List VRec) : (s.setVl vl).vl = vl := rfl
@[simp] theorem State.setVl_mem (s : State) (vl : List VRec) : (s.setVl vl).mem = s.mem := rfl
@[simp] theorem State.setVl_cfg (s : State) (vl : List VRec) : (s.setVl vl).cfg = s.cfg := rfl
@[simp] theorem State.setVl_host (s : State) (vl : List VRec) : (s.setVl vl).host = s.host := rfl
@[simp] theorem State.setVl_reg (s : State) (vl : List VRec) (r : Reg) : (s.setVl vl).reg r = s.reg r := rfl

/-! ### `setDecoded` -/

@[simp] theorem State.setDecoded_x (s : State) (num : Byte) (nl : Nat) (fv : List Word) : (s.setDecoded num nl fv).x = s.x := rfl
@[simp] theorem State.setDecoded_status (s : State) (num : Byte) (nl : Nat) (fv : List Word) : (s.setDecoded num nl fv).status = s.status := rfl
@[simp] theorem State.setDecoded_len (s : State) (num : Byte) (nl : Nat) (fv : List Word) : (s.setDecoded num nl fv).len = s.len := rfl
@[simp] theorem State.setDecoded_kind (s : State) (num : Byte) (nl : Nat) (fv : List Word) : (s.setDecoded num nl fv).kind = s.kind := rfl
@[simp] theorem State.setDecoded_num (s : State) (num : Byte) (nl : Nat) (fv : List Word) : (s.setDecoded num nl fv).num = num := rfl
@[simp] theorem State.setDecoded_namelen (s : State) (num : Byte) (nl : Nat) (fv : List Word) : (s.setDecoded num nl fv).namelen = BitVec.ofNat 5 nl := rfl
@[simp] theorem State.setDecoded_nviol (s : State) (num : Byte) (nl : Nat) (fv : List Word) : (s.setDecoded num nl fv).nviol = s.nviol := rfl
@[simp] theorem State.setDecoded_fv (s : State) (num : Byte) (nl : Nat) (fv : List Word) : (s.setDecoded num nl fv).fv = fv := rfl
@[simp] theorem State.setDecoded_vl (s : State) (num : Byte) (nl : Nat) (fv : List Word) : (s.setDecoded num nl fv).vl = s.vl := rfl
@[simp] theorem State.setDecoded_mem (s : State) (num : Byte) (nl : Nat) (fv : List Word) : (s.setDecoded num nl fv).mem = s.mem := rfl
@[simp] theorem State.setDecoded_cfg (s : State) (num : Byte) (nl : Nat) (fv : List Word) : (s.setDecoded num nl fv).cfg = s.cfg := rfl
@[simp] theorem State.setDecoded_host (s : State) (num : Byte) (nl : Nat) (fv : List Word) : (s.setDecoded num nl fv).host = s.host := rfl
@[simp] theorem State.setDecoded_reg (s : State) (num : Byte) (nl : Nat) (fv : List Word) (r : Reg) : (s.setDecoded num nl fv).reg r = s.reg r := rfl

/-! ### `setHost` -/

@[simp] theorem State.setHost_x (s : State) (h : List HostAction) : (s.setHost h).x = s.x := rfl
@[simp] theorem State.setHost_status (s : State) (h : List HostAction) : (s.setHost h).status = s.status := rfl
@[simp] theorem State.setHost_len (s : State) (h : List HostAction) : (s.setHost h).len = s.len := rfl
@[simp] theorem State.setHost_kind (s : State) (h : List HostAction) : (s.setHost h).kind = s.kind := rfl
@[simp] theorem State.setHost_num (s : State) (h : List HostAction) : (s.setHost h).num = s.num := rfl
@[simp] theorem State.setHost_namelen (s : State) (h : List HostAction) : (s.setHost h).namelen = s.namelen := rfl
@[simp] theorem State.setHost_nviol (s : State) (h : List HostAction) : (s.setHost h).nviol = s.nviol := rfl
@[simp] theorem State.setHost_fv (s : State) (h : List HostAction) : (s.setHost h).fv = s.fv := rfl
@[simp] theorem State.setHost_vl (s : State) (h : List HostAction) : (s.setHost h).vl = s.vl := rfl
@[simp] theorem State.setHost_mem (s : State) (h : List HostAction) : (s.setHost h).mem = s.mem := rfl
@[simp] theorem State.setHost_cfg (s : State) (h : List HostAction) : (s.setHost h).cfg = s.cfg := rfl
@[simp] theorem State.setHost_host (s : State) (h : List HostAction) : (s.setHost h).host = h := rfl
@[simp] theorem State.setHost_reg (s : State) (h : List HostAction) (r : Reg) : (s.setHost h).reg r = s.reg r := rfl

/-! ### `rawWrite` -/

@[simp] theorem State.rawWrite_x (s : State) (m : Memory) : (s.rawWrite m).x = s.x := rfl
@[simp] theorem State.rawWrite_status (s : State) (m : Memory) : (s.rawWrite m).status = s.status := rfl
@[simp] theorem State.rawWrite_len (s : State) (m : Memory) : (s.rawWrite m).len = s.len := rfl
@[simp] theorem State.rawWrite_kind (s : State) (m : Memory) : (s.rawWrite m).kind = .none := rfl
@[simp] theorem State.rawWrite_num (s : State) (m : Memory) : (s.rawWrite m).num = s.num := rfl
@[simp] theorem State.rawWrite_namelen (s : State) (m : Memory) : (s.rawWrite m).namelen = s.namelen := rfl
@[simp] theorem State.rawWrite_nviol (s : State) (m : Memory) : (s.rawWrite m).nviol = s.nviol := rfl
@[simp] theorem State.rawWrite_fv (s : State) (m : Memory) : (s.rawWrite m).fv = s.fv := rfl
@[simp] theorem State.rawWrite_vl (s : State) (m : Memory) : (s.rawWrite m).vl = s.vl := rfl
@[simp] theorem State.rawWrite_mem (s : State) (m : Memory) : (s.rawWrite m).mem = m := rfl
@[simp] theorem State.rawWrite_cfg (s : State) (m : Memory) : (s.rawWrite m).cfg = s.cfg := rfl
@[simp] theorem State.rawWrite_host (s : State) (m : Memory) : (s.rawWrite m).host = s.host := rfl
@[simp] theorem State.rawWrite_reg (s : State) (m : Memory) (r : Reg) : (s.rawWrite m).reg r = s.reg r := rfl

/-! ### Reset -/

@[simp] theorem State.resetWith_x (c : Cfg) (h : List HostAction) : (State.resetWith c h).x = Vector.replicate 16 0 := rfl
@[simp] theorem State.resetWith_status (c : Cfg) (h : List HostAction) : (State.resetWith c h).status = 0 := rfl
@[simp] theorem State.resetWith_len (c : Cfg) (h : List HostAction) : (State.resetWith c h).len = 0 := rfl
@[simp] theorem State.resetWith_kind (c : Cfg) (h : List HostAction) : (State.resetWith c h).kind = .none := rfl
@[simp] theorem State.resetWith_num (c : Cfg) (h : List HostAction) : (State.resetWith c h).num = 0 := rfl
@[simp] theorem State.resetWith_namelen (c : Cfg) (h : List HostAction) : (State.resetWith c h).namelen = 0 := rfl
@[simp] theorem State.resetWith_nviol (c : Cfg) (h : List HostAction) : (State.resetWith c h).nviol = 0 := rfl
@[simp] theorem State.resetWith_fv (c : Cfg) (h : List HostAction) : (State.resetWith c h).fv = List.replicate c.nf 0 := rfl
@[simp] theorem State.resetWith_vl (c : Cfg) (h : List HostAction) : (State.resetWith c h).vl = List.replicate c.nf VRec.zero := rfl
@[simp] theorem State.resetWith_mem (c : Cfg) (h : List HostAction) : (State.resetWith c h).mem = [] := rfl
@[simp] theorem State.resetWith_cfg (c : Cfg) (h : List HostAction) : (State.resetWith c h).cfg = c := rfl
@[simp] theorem State.resetWith_host (c : Cfg) (h : List HostAction) : (State.resetWith c h).host = h := rfl
@[simp] theorem State.resetUnit_x (s : State) : s.resetUnit.x = Vector.replicate 16 0 := rfl
@[simp] theorem State.resetUnit_status (s : State) : s.resetUnit.status = 0 := rfl
@[simp] theorem State.resetUnit_len (s : State) : s.resetUnit.len = 0 := rfl
@[simp] theorem State.resetUnit_kind (s : State) : s.resetUnit.kind = .none := rfl
@[simp] theorem State.resetUnit_num (s : State) : s.resetUnit.num = 0 := rfl
@[simp] theorem State.resetUnit_namelen (s : State) : s.resetUnit.namelen = 0 := rfl
@[simp] theorem State.resetUnit_nviol (s : State) : s.resetUnit.nviol = 0 := rfl
@[simp] theorem State.resetUnit_fv (s : State) : s.resetUnit.fv = List.replicate s.cfg.nf 0 := rfl
@[simp] theorem State.resetUnit_vl (s : State) : s.resetUnit.vl = List.replicate s.cfg.nf VRec.zero := rfl
@[simp] theorem State.resetUnit_mem (s : State) : s.resetUnit.mem = [] := rfl
@[simp] theorem State.resetUnit_cfg (s : State) : s.resetUnit.cfg = s.cfg := rfl
@[simp] theorem State.resetUnit_host (s : State) : s.resetUnit.host = s.host := rfl

/-! ### Registers -/

@[simp] theorem State.setReg_reg_self (s : State) (i : Reg) (w : Word) : (s.setReg i w).reg i = w := by
  simp [State.reg, State.setReg]

theorem State.setReg_reg_of_ne (s : State) (i r : Reg) (w : Word) (h : r ≠ i) : (s.setReg i w).reg r = s.reg r := by
  have h' : i.val ≠ r.val := fun e => h (Fin.ext e.symm)
  simp [State.reg, State.setReg, h']

theorem State.setReg_reg (s : State) (i r : Reg) (w : Word) :
    (s.setReg i w).reg r = if r = i then w else s.reg r := by
  split
  · next h => subst h; simp
  · next h => exact State.setReg_reg_of_ne s i r w h

@[simp] theorem State.resetWith_reg (c : Cfg) (h : List HostAction) (r : Reg) : (State.resetWith c h).reg r = 0 := by
  simp [State.reg, State.resetWith]

@[simp] theorem State.resetUnit_reg (s : State) (r : Reg) : s.resetUnit.reg r = 0 := by
  simp [State.resetUnit]

end Sys2Proof.Machine
end

