-- ==== Sys2Proof/Laws/Status.lean ====
section
/-! SUPPORT. The fields of `STATUS` after a command completes, and what each shared way of ending a command does. -/

namespace Sys2Proof.Machine

@[simp] theorem statusEc_pack (stk a : Bool) (sc : BitVec 8) (ec : BitVec 4) :
    statusEc (packStatus stk a sc ec) = ec := by
  ext i hi
  have h1 : i < 13 := by omega
  have h2 : i < 12 := by omega
  have h3 : i < 14 := by omega
  simp [statusEc, packStatus, bitAt, hi, h1, h2, h3]

@[simp] theorem statusSc_pack (stk a : Bool) (sc : BitVec 8) (ec : BitVec 4) :
    statusSc (packStatus stk a sc ec) = sc := by
  ext i hi
  have h1 : 4 + i < 13 := by omega
  have h2 : 4 + i < 12 := by omega
  have h3 : 4 + i < 14 := by omega
  simp [statusSc, packStatus, bitAt, h1, h2, h3, BitVec.getLsbD_eq_getElem hi]

@[simp] theorem statusA_pack (stk a : Bool) (sc : BitVec 8) (ec : BitVec 4) :
    statusA (packStatus stk a sc ec) = a := by
  cases a <;> simp [statusA, packStatus, bitAt]

@[simp] theorem statusStk_pack (stk a : Bool) (sc : BitVec 8) (ec : BitVec 4) :
    statusStk (packStatus stk a sc ec) = stk := by
  cases stk <;> simp [statusStk, packStatus, bitAt]

@[simp] theorem statusEc_ok (old : BitVec 14) (a : Bool) : statusEc (statusOk old a) = 0 := by simp [statusOk]
@[simp] theorem statusSc_ok (old : BitVec 14) (a : Bool) : statusSc (statusOk old a) = 0 := by simp [statusOk]
@[simp] theorem statusA_ok (old : BitVec 14) (a : Bool) : statusA (statusOk old a) = a := by simp [statusOk]
@[simp] theorem statusStk_ok (old : BitVec 14) (a : Bool) : statusStk (statusOk old a) = statusStk old := by
  simp [statusOk]

@[simp] theorem statusEc_err (c : ErrClass) (sc : BitVec 8) : statusEc (statusErr c sc) = errCode c := by
  simp [statusErr]
@[simp] theorem statusSc_err (c : ErrClass) (sc : BitVec 8) : statusSc (statusErr c sc) = sc := by simp [statusErr]
@[simp] theorem statusA_err (c : ErrClass) (sc : BitVec 8) : statusA (statusErr c sc) = false := by
  simp [statusErr]
@[simp] theorem statusStk_err (c : ErrClass) (sc : BitVec 8) : statusStk (statusErr c sc) = true := by
  simp [statusErr]

/-- An error class never has the code of `OK`. -/
theorem errCode_ne_zero (c : ErrClass) : errCode c ≠ 0 := by cases c <;> decide

/-- Different classes have different codes. -/
theorem errCode_injective {c d : ErrClass} (h : errCode c = errCode d) : c = d := by
  cases c <;> cases d <;> first | rfl | (exact absurd h (by decide))

/-- `STATUS` is its four fields. -/
theorem packStatus_fields (st : BitVec 14) :
    packStatus (statusStk st) (statusA st) (statusSc st) (statusEc st) = st := by
  revert st
  decide +kernel

/-! ### The shared ways to end a command -/

theorem okFlag_eq (s : State) (a : Bool) : okFlag s a = .next (s.setStatus (statusOk s.status a)) := rfl
theorem ok_eq (s : State) : ok s = .next (s.setStatus (statusOk s.status false)) := rfl
theorem raise_eq (s : State) (c : ErrClass) (sc : BitVec 8) : raise s c sc = .next (s.setStatus (statusErr c sc)) := rfl
theorem writeReg_eq (s : State) (i : Reg) (w : Word) :
    writeReg s i w = .next ((s.setReg i w).setStatus (statusOk s.status false)) := rfl

/-- A command that ends `ok` in the state it has written ends `ok` seen from where it began, if it left `STK`. -/
theorem endsOk_setStatus (s t : State) (a : Bool) (h : t.status = s.status) :
    EndsOk s (t.setStatus (statusOk t.status a)) a where
  ec := by simp
  sc := by simp
  a := by simp
  stk := by simp [h]

theorem endsErr_setStatus (t : State) (c : ErrClass) (sc : BitVec 8) : EndsErr (t.setStatus (statusErr c sc)) c sc where
  ec := by simp
  sc := by simp
  a := by simp
  stk := by simp

/-- What `raise` does: the class and sub-code in `STATUS`, nothing else. -/
theorem raise_failedOnly (s : State) (c : ErrClass) (sc : BitVec 8) :
    ∃ t, raise s c sc = .next t ∧ FailedOnly s t c sc :=
  ⟨_, rfl, endsErr_setStatus s c sc, fun _ _ => rfl, fun _ => rfl, ⟨rfl, rfl⟩, ⟨rfl, rfl, rfl, rfl, rfl⟩, ⟨rfl, rfl⟩⟩

/-- What a register write that ends `ok` does. -/
theorem writeReg_wroteRegs (s : State) (i : Reg) (w : Word) :
    ∃ t, writeReg s i w = .next t ∧ WroteRegs s t [(i, w)] false := by
  refine ⟨_, writeReg_eq s i w, endsOk_setStatus s (s.setReg i w) false rfl, ?_, ?_, fun _ => rfl, ⟨rfl, rfl⟩,
    ⟨rfl, rfl, rfl, rfl, rfl⟩, ⟨rfl, rfl⟩⟩
  · intro p hp
    rw [List.mem_singleton.1 hp]
    simp
  · intro r hr
    have : r ≠ i := by simpa using hr
    simp [State.setReg_reg_of_ne s i r w this]

end Sys2Proof.Machine
end

