-- ==== Sys2Proof/Laws/Ops.lean ====
section
/-! SUPPORT. One lemma per shared operation that says all it can do, so that a proof cites it and never unfolds the
operation. -/

namespace Sys2Proof.Machine

theorem State.admits_eq_true {s : State} {a n : Nat} : s.admits a n = true ↔ n = 0 ∨ a + n ≤ s.len.toNat := by
  simp [State.admits]

/-- A raw four-byte write: the bytes stored and the latch cleared, or `BOUNDS` and nothing. -/
theorem rawWriteQuad_cases (s : State) (a : Nat) (q : Quad) :
    (a + 4 ≤ s.len.toNat ∧
      rawWriteQuad s a q = .next ((s.rawWrite (writeQuad s.mem a q)).setStatus (statusOk s.status false))) ∨
    (s.len.toNat < a + 4 ∧ rawWriteQuad s a q = .next (s.setStatus (statusErr .bounds 0))) := by
  unfold rawWriteQuad
  split
  · next h =>
    rw [State.admits_eq_true] at h
    exact .inl ⟨by omega, rfl⟩
  · next h =>
    rw [State.admits_eq_true] at h
    exact .inr ⟨by omega, rfl⟩

/-- A table update of four bytes: the bytes and the checksum byte stored, the latch kept, or `BOUNDS` and nothing. -/
theorem updateQuad_cases (s : State) (a : Nat) (q : Quad) :
    (a + 4 ≤ s.len.toNat ∧
      updateQuad s a q = .next ((sysfix (s.setMem (writeQuad s.mem a q))).setStatus (statusOk s.status false))) ∨
    (s.len.toNat < a + 4 ∧ updateQuad s a q = .next (s.setStatus (statusErr .bounds 0))) := by
  unfold updateQuad
  split
  · next h =>
    rw [State.admits_eq_true] at h
    exact .inl ⟨by omega, rfl⟩
  · next h =>
    rw [State.admits_eq_true] at h
    exact .inr ⟨by omega, rfl⟩

theorem covers_eq_true {s : State} {p : Payload} : covers s p = true ↔ p.hi < s.len.toNat ∧ p.pos < s.len.toNat := by
  simp only [covers, decide_eq_true_eq]
  omega

/-- A verification: 1 or 0 in the register, or `BOUNDS` and nothing. -/
theorem verifyCommand_cases (s : State) (ra : Reg) (p : Payload) :
    (p.hi < s.len.toNat ∧ p.pos < s.len.toNat ∧
      verifyCommand s ra p = .next ((s.setReg ra (verifySum s.mem p)).setStatus (statusOk s.status false))) ∨
    (¬ (p.hi < s.len.toNat ∧ p.pos < s.len.toNat) ∧
      verifyCommand s ra p = .next (s.setStatus (statusErr .bounds 0))) := by
  unfold verifyCommand
  split
  · next h => exact .inl ⟨(covers_eq_true.1 h).1, (covers_eq_true.1 h).2, rfl⟩
  · next h => exact .inr ⟨fun hc => h (covers_eq_true.2 hc), rfl⟩

/-- A checksum store: one byte stored and the latch cleared, or `BOUNDS` and nothing. -/
theorem fixCommand_cases (s : State) (p : Payload) :
    (p.hi < s.len.toNat ∧ p.pos < s.len.toNat ∧
      fixCommand s p = .next ((s.rawWrite (storeSum s.mem p)).setStatus (statusOk s.status false))) ∨
    (¬ (p.hi < s.len.toNat ∧ p.pos < s.len.toNat) ∧ fixCommand s p = .next (s.setStatus (statusErr .bounds 0))) := by
  unfold fixCommand
  split
  · next h => exact .inl ⟨(covers_eq_true.1 h).1, (covers_eq_true.1 h).2, rfl⟩
  · next h => exact .inr ⟨fun hc => h (covers_eq_true.2 hc), rfl⟩

/-! ### The checksum store -/

theorem memoryWf_storeSum {m : Memory} (hm : memoryWf m = true) (p : Payload) : memoryWf (storeSum m p) = true :=
  memoryWf_writeCell hm _ _

/-- A checksum store changes the one cell. -/
theorem readCell_storeSum_of_ne {m : Memory} (hm : memoryWf m = true) (p : Payload) {c : Nat} (h : c ≠ p.pos) :
    readCell (storeSum m p) c = readCell m c :=
  readCell_writeCell_of_ne hm _ h

/-- The byte a checksum store leaves is the checksum of the window as it was. -/
theorem readCell_storeSum_self {m : Memory} (hm : memoryWf m = true) (p : Payload) (h : p.pos < 528) :
    readCell (storeSum m p) p.pos = byteOf (windowSum m p) :=
  readCell_writeCell_self hm h _

/-- A window that does not hold the checksum byte sums as before after the store. -/
theorem windowSum_storeSum {m : Memory} (hm : memoryWf m = true) (p : Payload) (h : p.pos < p.lo ∨ p.hi < p.pos) :
    windowSum (storeSum m p) p = windowSum m p := by
  unfold windowSum
  rw [readWindow_congr fun c h1 h2 => readCell_storeSum_of_ne hm p (by omega)]

/-! ### `sysfix` -/

@[simp] theorem sysfix_mem (s : State) : (sysfix s).mem = storeSum s.mem (systemPayload s.cfg) := rfl
@[simp] theorem sysfix_reg (s : State) (r : Reg) : (sysfix s).reg r = s.reg r := rfl
@[simp] theorem sysfix_status (s : State) : (sysfix s).status = s.status := rfl
@[simp] theorem sysfix_len (s : State) : (sysfix s).len = s.len := rfl
@[simp] theorem sysfix_kind (s : State) : (sysfix s).kind = s.kind := rfl
@[simp] theorem sysfix_num (s : State) : (sysfix s).num = s.num := rfl
@[simp] theorem sysfix_namelen (s : State) : (sysfix s).namelen = s.namelen := rfl
@[simp] theorem sysfix_nviol (s : State) : (sysfix s).nviol = s.nviol := rfl
@[simp] theorem sysfix_fv (s : State) : (sysfix s).fv = s.fv := rfl
@[simp] theorem sysfix_vl (s : State) : (sysfix s).vl = s.vl := rfl
@[simp] theorem sysfix_cfg (s : State) : (sysfix s).cfg = s.cfg := rfl
@[simp] theorem sysfix_host (s : State) : (sysfix s).host = s.host := rfl

/-! ### What `PDEC` leaves -/

@[simp] theorem acceptPreset_mem (s : State) : (acceptPreset s).mem = s.mem := rfl
@[simp] theorem acceptPreset_reg (s : State) (r : Reg) : (acceptPreset s).reg r = s.reg r := rfl
@[simp] theorem acceptPreset_status (s : State) : (acceptPreset s).status = s.status := rfl
@[simp] theorem acceptPreset_kind (s : State) : (acceptPreset s).kind = .preset := rfl
@[simp] theorem acceptPreset_len (s : State) : (acceptPreset s).len = 520 := rfl
@[simp] theorem acceptPreset_nviol (s : State) : (acceptPreset s).nviol = 0 := rfl
@[simp] theorem acceptPreset_vl (s : State) : (acceptPreset s).vl = s.vl := rfl
@[simp] theorem acceptPreset_num (s : State) : (acceptPreset s).num = readCell s.mem 8 := rfl
@[simp] theorem acceptPreset_cfg (s : State) : (acceptPreset s).cfg = s.cfg := rfl
@[simp] theorem acceptPreset_host (s : State) : (acceptPreset s).host = s.host := rfl

@[simp] theorem rejectPreset_mem (s : State) (v : List VRec) : (rejectPreset s v).mem = s.mem := rfl
@[simp] theorem rejectPreset_reg (s : State) (v : List VRec) (r : Reg) : (rejectPreset s v).reg r = s.reg r := rfl
@[simp] theorem rejectPreset_status (s : State) (v : List VRec) : (rejectPreset s v).status = s.status := rfl
@[simp] theorem rejectPreset_kind (s : State) (v : List VRec) : (rejectPreset s v).kind = .none := rfl
@[simp] theorem rejectPreset_len (s : State) (v : List VRec) : (rejectPreset s v).len = s.len := rfl
@[simp] theorem rejectPreset_num (s : State) (v : List VRec) : (rejectPreset s v).num = readCell s.mem 8 := rfl
@[simp] theorem rejectPreset_cfg (s : State) (v : List VRec) : (rejectPreset s v).cfg = s.cfg := rfl
@[simp] theorem rejectPreset_host (s : State) (v : List VRec) : (rejectPreset s v).host = s.host := rfl

/-- `PDEC` in its three ways to end. -/
theorem execPdec_cases (s : State) :
    (∃ sc, firstFailure (presetChecks s) = some sc ∧
      execPdec s = .next (((s.setKind .none).setNviol 0).setStatus (statusErr .structural sc))) ∨
    (firstFailure (presetChecks s) = none ∧ (decodeFields s.mem s.cfg.fieldTable).violations = [] ∧
      execPdec s = .next ((acceptPreset s).setStatus (statusOk s.status false))) ∨
    (firstFailure (presetChecks s) = none ∧ (decodeFields s.mem s.cfg.fieldTable).violations ≠ [] ∧
      execPdec s = .next ((rejectPreset s (decodeFields s.mem s.cfg.fieldTable).violations).setStatus
        (statusErr .fieldRange 0))) := by
  unfold execPdec
  split
  · next sc h => exact .inl ⟨sc, h, rfl⟩
  · next h =>
    split
    · next h2 => exact .inr (.inl ⟨h, h2, rfl⟩)
    · next v vs h2 => exact .inr (.inr ⟨h, by simp [h2], by rw [h2]; rfl⟩)

/-- `SDEC` in its two ways to end. -/
theorem execSdec_cases (s : State) :
    (∃ sc, firstFailure (systemChecks s) = some sc ∧
      execSdec s = .next ((s.setKind .none).setStatus (statusErr .structural sc))) ∨
    (firstFailure (systemChecks s) = none ∧
      execSdec s = .next ((s.setKind .system).setStatus (statusOk s.status false))) := by
  unfold execSdec
  split
  · next sc h => exact .inl ⟨sc, h, rfl⟩
  · next h => exact .inr ⟨h, rfl⟩

end Sys2Proof.Machine
end

