-- ==== Sys2Proof/Laws/Exec.lean ====
section
/-! SUPPORT. What any command but `PDEC`, `SDEC` and `SRST` can do, said once: the rules about all commands follow
from it by a short case analysis. -/

namespace Sys2Proof.Machine

-- one theorem at a time, so that few threads run side by side
set_option Elab.async false

/-- Register writes in order. -/
def State.setRegs (s : State) : List (Reg × Word) → State
  | [] => s
  | p :: ps => (s.setReg p.1 p.2).setRegs ps

@[simp] theorem State.setRegs_status (s : State) (ps : List (Reg × Word)) : (s.setRegs ps).status = s.status := by
  induction ps generalizing s with
  | nil => rfl
  | cons p ps ih => rw [setRegs, ih]; rfl
@[simp] theorem State.setRegs_len (s : State) (ps : List (Reg × Word)) : (s.setRegs ps).len = s.len := by
  induction ps generalizing s with
  | nil => rfl
  | cons p ps ih => rw [setRegs, ih]; rfl
@[simp] theorem State.setRegs_kind (s : State) (ps : List (Reg × Word)) : (s.setRegs ps).kind = s.kind := by
  induction ps generalizing s with
  | nil => rfl
  | cons p ps ih => rw [setRegs, ih]; rfl
@[simp] theorem State.setRegs_num (s : State) (ps : List (Reg × Word)) : (s.setRegs ps).num = s.num := by
  induction ps generalizing s with
  | nil => rfl
  | cons p ps ih => rw [setRegs, ih]; rfl
@[simp] theorem State.setRegs_namelen (s : State) (ps : List (Reg × Word)) : (s.setRegs ps).namelen = s.namelen := by
  induction ps generalizing s with
  | nil => rfl
  | cons p ps ih => rw [setRegs, ih]; rfl
@[simp] theorem State.setRegs_nviol (s : State) (ps : List (Reg × Word)) : (s.setRegs ps).nviol = s.nviol := by
  induction ps generalizing s with
  | nil => rfl
  | cons p ps ih => rw [setRegs, ih]; rfl
@[simp] theorem State.setRegs_fv (s : State) (ps : List (Reg × Word)) : (s.setRegs ps).fv = s.fv := by
  induction ps generalizing s with
  | nil => rfl
  | cons p ps ih => rw [setRegs, ih]; rfl
@[simp] theorem State.setRegs_vl (s : State) (ps : List (Reg × Word)) : (s.setRegs ps).vl = s.vl := by
  induction ps generalizing s with
  | nil => rfl
  | cons p ps ih => rw [setRegs, ih]; rfl
@[simp] theorem State.setRegs_mem (s : State) (ps : List (Reg × Word)) : (s.setRegs ps).mem = s.mem := by
  induction ps generalizing s with
  | nil => rfl
  | cons p ps ih => rw [setRegs, ih]; rfl
@[simp] theorem State.setRegs_cfg (s : State) (ps : List (Reg × Word)) : (s.setRegs ps).cfg = s.cfg := by
  induction ps generalizing s with
  | nil => rfl
  | cons p ps ih => rw [setRegs, ih]; rfl
@[simp] theorem State.setRegs_host (s : State) (ps : List (Reg × Word)) : (s.setRegs ps).host = s.host := by
  induction ps generalizing s with
  | nil => rfl
  | cons p ps ih => rw [setRegs, ih]; rfl

/-- A register that is not written keeps its pattern. -/
theorem State.setRegs_reg_of_not_mem {s : State} {ps : List (Reg × Word)} {r : Reg} (h : ∀ p ∈ ps, p.1 ≠ r) :
    (s.setRegs ps).reg r = s.reg r := by
  induction ps generalizing s with
  | nil => rfl
  | cons p ps ih =>
    rw [setRegs, ih fun q hq => h q (List.mem_cons_of_mem _ hq),
      State.setReg_reg_of_ne s p.1 r p.2 (Ne.symm (h p (List.mem_cons_self ..)))]

/-- The commands that set `A` (10_state.md R24). -/
def mayAssign : Instr → Bool
  | .ccget _ _ _ | .pmiget _ _ => true
  | _ => false

/-- No command is both a raw write and a system update. -/
theorem isSystemUpdate_of_isRawWrite {i : Instr} (h : isRawWrite i = true) : isSystemUpdate i = false := by
  cases i <;> first | rfl | exact absurd h Bool.false_ne_true

/-- The class a failing command may report: those of 60_exceptions.md R114, and what only an ill-formed term or an
update under an ill-formed configuration reaches. -/
def ErrClass.within (c : ErrClass) (i : Instr) : Prop :=
  mayRaise i c = true ∨ (c = .illegal ∧ i.wf = false) ∨ (c = .bounds ∧ isSystemUpdate i = true)

/-- The ways a command other than `PDEC`, `SDEC` and `SRST` can end. -/
inductive Ending (i : Instr) (s : State) : State → Prop where
  /-- with an error class: `STATUS` alone is written -/
  | failed (c : ErrClass) (sc : BitVec 8) (hc : c.within i) : Ending i s (s.setStatus (statusErr c sc))
  /-- `ok`, with registers written -/
  | regs (ps : List (Reg × Word)) (a : Bool) (hp : ∀ p ∈ ps, p.1 ∈ destinations i) (ha : a = true → mayAssign i = true)
      (hw : isRawWrite i = false) (hu : isSystemUpdate i = false) :
      Ending i s ((s.setRegs ps).setStatus (statusOk s.status a))
  /-- `ok`, after a raw write of cells -/
  | raw (m : Memory) (hw : isRawWrite i = true) (hb : writesBuffer i = true)
      (hm : memoryWf s.mem = true → memoryWf m = true) :
      Ending i s ((s.rawWrite m).setStatus (statusOk s.status false))
  /-- `ok`, after `WRCR LEN` -/
  | length (ra : Reg) (n : Nat) (hi : i = .wrcr ra) (hn : n ≤ 528) :
      Ending i s (((s.setLen n).setKind .none).setStatus (statusOk s.status false))
  /-- `ok`, after a system update, which needs `KIND = SYSTEM` -/
  | update (m : Memory) (hu : isSystemUpdate i = true) (hb : writesBuffer i = true) (hk : s.kind = .system)
      (hm : memoryWf s.mem = true → memoryWf m = true) :
      Ending i s ((sysfix (s.setMem m)).setStatus (statusOk s.status false))

theorem Ending.none (i : Instr) (s : State) (h : isRawWrite i = false) (hu : isSystemUpdate i = false) :
    Ending i s (s.setStatus (statusOk s.status false)) :=
  Ending.regs [] false (by simp) (by simp) h hu

theorem Ending.one (i : Instr) (s : State) (r : Reg) (w : Word) (a : Bool) (h : r ∈ destinations i)
    (ha : a = true → mayAssign i = true) (hw : isRawWrite i = false) (hu : isSystemUpdate i = false) :
    Ending i s ((s.setReg r w).setStatus (statusOk s.status a)) :=
  Ending.regs [(r, w)] a (by simpa using h) ha hw hu

theorem ending_rawWriteQuad {i : Instr} {s t : State} {a : Nat} {q : Quad} (h : rawWriteQuad s a q = .next t)
    (hw : isRawWrite i = true) (hb : writesBuffer i = true) (hc : mayRaise i .bounds = true) : Ending i s t := by
  rcases rawWriteQuad_cases s a q with ⟨-, e⟩ | ⟨-, e⟩ <;> rw [e] at h <;> injection h with h <;> subst h
  · exact .raw _ hw hb fun hm => memoryWf_writeQuad hm _ _
  · exact .failed _ _ (.inl hc)

theorem ending_updateQuad {i : Instr} {s t : State} {a : Nat} {q : Quad} (h : updateQuad s a q = .next t)
    (hu : isSystemUpdate i = true) (hb : writesBuffer i = true) (hk : s.kind = .system) : Ending i s t := by
  rcases updateQuad_cases s a q with ⟨-, e⟩ | ⟨-, e⟩ <;> rw [e] at h <;> injection h with h <;> subst h
  · exact .update _ hu hb hk fun hm => memoryWf_writeQuad hm _ _
  · exact .failed _ _ (.inr (.inr ⟨rfl, hu⟩))

theorem ending_verifyCommand {i : Instr} {s t : State} {ra : Reg} {p : Payload} (h : verifyCommand s ra p = .next t)
    (hd : ra ∈ destinations i) (hw : isRawWrite i = false) (hu : isSystemUpdate i = false)
    (hc : mayRaise i .bounds = true) : Ending i s t := by
  rcases verifyCommand_cases s ra p with ⟨-, -, e⟩ | ⟨-, e⟩ <;> rw [e] at h <;> injection h with h <;> subst h
  · exact .one _ _ _ _ _ hd (by simp) hw hu
  · exact .failed _ _ (.inl hc)

theorem ending_fixCommand {i : Instr} {s t : State} {p : Payload} (h : fixCommand s p = .next t)
    (hw : isRawWrite i = true) (hb : writesBuffer i = true) (hc : mayRaise i .bounds = true) : Ending i s t := by
  rcases fixCommand_cases s p with ⟨-, -, e⟩ | ⟨-, e⟩ <;> rw [e] at h <;> injection h with h <;> subst h
  · exact .raw _ hw hb fun hm => memoryWf_storeSum hm _
  · exact .failed _ _ (.inl hc)

theorem recordWord_eq_none {r : VRec} {w : BitVec 3} : recordWord r w = none ↔ wfRecordWord w = false := by
  revert w
  intro w
  have hw : w = 0 ∨ w = 1 ∨ w = 2 ∨ w = 3 ∨ w = 4 ∨ w = 5 ∨ w = 6 ∨ w = 7 := by revert w; decide
  rcases hw with rfl | rfl | rfl | rfl | rfl | rfl | rfl | rfl <;> simp [recordWord, wfRecordWord]

theorem controlRegister_eq_none {s : State} {crn : BitVec 3} :
    controlRegister s crn = none ↔ wfControlRegister crn = false := by
  have hw : crn = 0 ∨ crn = 1 ∨ crn = 2 ∨ crn = 3 ∨ crn = 4 ∨ crn = 5 ∨ crn = 6 ∨ crn = 7 := by revert crn; decide
  rcases hw with rfl | rfl | rfl | rfl | rfl | rfl | rfl | rfl <;> simp [controlRegister, wfControlRegister]

/-- What every command but the two decoders and `SRST` can do. -/
theorem exec_ending {i : Instr} {s t : State} (h : exec i s = .next t) (h1 : i ≠ .pdec) (h2 : i ≠ .sdec)
    (h3 : i ≠ .srst) : Ending i s t := by
  cases i with
  | nop => injection h with h; subst h; exact .none _ _ rfl rfl
  | ldi ra v => injection h with h; subst h; exact .one _ _ _ _ _ (by simp [destinations]) (by simp) rfl rfl
  | ldb ra off =>
    simp only [exec, execLdb] at h
    split at h <;> injection h with h <;> subst h
    · exact .one _ _ _ _ _ (by simp [destinations]) (by simp) rfl rfl
    · exact .failed _ _ (.inl rfl)
  | stb ra off =>
    simp only [exec, execStb] at h
    split at h
    · split at h <;> injection h with h <;> subst h
      · exact .raw _ rfl rfl fun hm => memoryWf_writeCell hm _ _
      · exact .failed _ _ (.inl rfl)
    · injection h with h; subst h; exact .failed _ _ (.inl rfl)
  | rdcr ra crn =>
    simp only [exec, execRdcr] at h
    split at h
    · injection h with h; subst h; exact .one _ _ _ _ _ (by simp [destinations]) (by simp) rfl rfl
    · next hc => injection h with h; subst h; exact .failed _ _ (.inr (.inl ⟨rfl, controlRegister_eq_none.1 hc⟩))
  | wrcr ra =>
    simp only [exec, execWrcr] at h
    split at h
    · next hr =>
      injection h with h; subst h
      have := (inRange_eq_true _ _ _).1 hr
      exact .length ra _ rfl (by simp only [Config.bufSize] at this; omega)
    · injection h with h; subst h; exact .failed _ _ (.inl rfl)
  | srst => exact absurd rfl h3
  | dec28 ra off =>
    simp only [exec, execDec28] at h
    split at h <;> injection h with h <;> subst h
    · exact .one _ _ _ _ _ (by simp [destinations]) (by simp) rfl rfl
    · exact .failed _ _ (.inl rfl)
  | enc28 ra off =>
    simp only [exec, execEnc28] at h
    split at h
    · exact ending_rawWriteQuad h rfl rfl rfl
    · injection h with h; subst h; exact .failed _ _ (.inl rfl)
  | decso ra rb rc off =>
    simp only [exec, execDecso] at h
    split at h <;> injection h with h <;> subst h
    · exact .one _ _ _ _ _ (by simp [destinations]) (by simp) rfl rfl
    · exact .failed _ _ (.inl rfl)
  | encso ra off =>
    simp only [exec, execEncso] at h
    split at h
    · exact ending_rawWriteQuad h rfl rfl rfl
    · injection h with h; subst h; exact .failed _ _ (.inl rfl)
  | csum ra lo hi =>
    simp only [exec, execCsum] at h
    split at h <;> injection h with h <;> subst h
    · exact .one _ _ _ _ _ (by simp [destinations]) (by simp) rfl rfl
    · exact .failed _ _ (.inl rfl)
  | csvp ra => exact ending_verifyCommand (p := presetPayload) h (by simp [destinations]) rfl rfl rfl
  | csvs ra => exact ending_verifyCommand (p := systemPayload s.cfg) h (by simp [destinations]) rfl rfl rfl
  | csfp => exact ending_fixCommand (p := presetPayload) h rfl rfl rfl
  | csfs => exact ending_fixCommand (p := systemPayload s.cfg) h rfl rfl rfl
  | pdec => exact absurd rfl h1
  | penc ra =>
    simp only [exec, execPenc] at h
    split at h <;> injection h with h <;> subst h
    · exact .one _ _ _ _ _ (by simp [destinations]) (by simp) rfl rfl
    · exact .failed _ _ (.inl rfl)
  | pfld ra fid =>
    simp only [exec, execPfld] at h
    split at h
    · split at h <;> injection h with h <;> subst h
      · exact .one _ _ _ _ _ (by simp [destinations]) (by simp) rfl rfl
      · exact .failed _ _ (.inl rfl)
    · injection h with h; subst h; exact .failed _ _ (.inl rfl)
  | rdvl ra n w =>
    simp only [exec, execRdvl] at h
    split at h
    · next hr => injection h with h; subst h; exact .failed _ _ (.inr (.inl ⟨rfl, recordWord_eq_none.1 hr⟩))
    · split at h <;> injection h with h <;> subst h
      · exact .one _ _ _ _ _ (by simp [destinations]) (by simp) rfl rfl
      · exact .failed _ _ (.inl rfl)
  | sdec => exact absurd rfl h2
  | senc ra =>
    simp only [exec, execSenc] at h
    split at h <;> injection h with h <;> subst h
    · exact .one _ _ _ _ _ (by simp [destinations]) (by simp) rfl rfl
    · exact .failed _ _ (.inl rfl)
  | ccget ra rb rc =>
    simp only [exec, execCcget] at h
    split at h
    · next he =>
      injection h with h; subst h
      exact .failed _ _ (.inr (.inl ⟨rfl, by simp [Instr.wf, wfTwoDestinations, he]⟩))
    split at h
    · injection h with h; subst h; exact .failed _ _ (.inl rfl)
    split at h <;> injection h with h <;> subst h
    · exact .regs [(ra, _), (rb, _)] _ (by simp [destinations]) (fun _ => rfl) rfl rfl
    · exact .failed _ _ (.inl rfl)
  | ccset ra rb rc =>
    simp only [exec, execCcset] at h
    split at h
    · injection h with h; subst h; exact .failed _ _ (.inl rfl)
    next hk =>
    split at h
    · split at h <;> injection h with h <;> subst h
      · exact .update _ rfl rfl (by simpa using hk) fun hm => memoryWf_writeCell (memoryWf_writeCell hm _ _) _ _
      · exact .failed _ _ (.inl rfl)
    · injection h with h; subst h; exact .failed _ _ (.inl rfl)
  | unpk3 ra rb rc off =>
    simp only [exec, execUnpk3] at h
    split at h
    · split at h <;> injection h with h <;> subst h
      · exact .regs [(ra, _), (rb, _), (rc, _)] _ (by simp [destinations]) (by simp) rfl rfl
      · exact .failed _ _ (.inl rfl)
    · next hd => injection h with h; subst h; exact .failed _ _ (.inr (.inl ⟨rfl, by simpa [Instr.wf] using hd⟩))
  | pk3 ra rb rc off =>
    simp only [exec, execPk3] at h
    split at h
    · exact ending_rawWriteQuad h rfl rfl rfl
    · injection h with h; subst h; exact .failed _ _ (.inl rfl)
  | pmiget ra rb =>
    simp only [exec, execPmiget] at h
    split at h
    · injection h with h; subst h; exact .failed _ _ (.inl rfl)
    split at h <;> injection h with h <;> subst h
    · exact .one _ _ _ _ _ (by simp [destinations]) (fun _ => rfl) rfl rfl
    · exact .failed _ _ (.inl rfl)
  | pmiset ra rb =>
    simp only [exec, execPmiset] at h
    split at h
    · injection h with h; subst h; exact .failed _ _ (.inl rfl)
    next hk =>
    split at h
    · split at h
      · exact ending_updateQuad h rfl rfl (by simpa using hk)
      · injection h with h; subst h; exact .failed _ _ (.inl rfl)
    · injection h with h; subst h; exact .failed _ _ (.inl rfl)
  | pmoget ra rb =>
    simp only [exec, execPmoget] at h
    split at h
    · injection h with h; subst h; exact .failed _ _ (.inl rfl)
    split at h <;> injection h with h <;> subst h
    · exact .one _ _ _ _ _ (by simp [destinations]) (by simp) rfl rfl
    · exact .failed _ _ (.inl rfl)
  | pmoset ra rb =>
    simp only [exec, execPmoset] at h
    split at h
    · injection h with h; subst h; exact .failed _ _ (.inl rfl)
    next hk =>
    split at h
    · split at h
      · exact ending_updateQuad h rfl rfl (by simpa using hk)
      · injection h with h; subst h; exact .failed _ _ (.inl rfl)
    · injection h with h; subst h; exact .failed _ _ (.inl rfl)
  | pedget ra k =>
    simp only [exec, execPedget] at h
    split at h <;> injection h with h <;> subst h
    · exact .failed _ _ (.inl rfl)
    · exact .one _ _ _ _ _ (by simp [destinations]) (by simp) rfl rfl
  | pedset ra k =>
    simp only [exec, execPedset] at h
    split at h
    · injection h with h; subst h; exact .failed _ _ (.inl rfl)
    next hk =>
    split at h
    · next hk0 =>
      split at h
      · exact ending_updateQuad h rfl rfl (by simpa using hk)
      · injection h with h; subst h; subst hk0; exact .failed _ _ (.inl rfl)
    · exact ending_updateQuad h rfl rfl (by simpa using hk)

end Sys2Proof.Machine
end

