-- ==== Sys2Proof/Laws/PerInstr.lean ====
section
/-! SUPPORT. Per instruction: the encoded word has exactly the bits its row fixes (30_encoding.md R42), that is
`w & mask = match`. One lemma per constructor. -/

namespace Sys2Proof.Laws.FixedBits

-- one theorem at a time, so that few threads run side by side
set_option Elab.async false

/-- The word of an instruction carries its row's opcode and matches its sub-format's fixed bits. -/
def Statement (i : Instr) : Prop :=
  ∃ row, opcodeRow (fieldOp (encode i)) = some row ∧
    encode i &&& subFormatMask row.format = matchWord (fieldOp (encode i)) row.format

/-- A register field leaves no trace under a mask that frees its place. -/
theorem reg_free (r : Reg) (p : Nat) (m : CommandWord) (h : ∀ f : BitVec 4, (f.setWidth 64 <<< p) &&& m = 0) :
    ((fieldOfReg r).setWidth 64 <<< p) &&& m = 0 := h _

/-- The fixed bits of a packed word: what the mask keeps of the opcode and what it keeps of the operands. -/
theorem packWord_and {op : BitVec 8} {ra rb rc : Reg} {imm : BitVec 32} {m low : CommandWord}
    (hop : (op.setWidth 64 <<< 56) &&& m = op.setWidth 64 <<< 56)
    (ha : ((fieldOfReg ra).setWidth 64 <<< 52) &&& m = 0) (hb : ((fieldOfReg rb).setWidth 64 <<< 48) &&& m = 0)
    (hc : ((fieldOfReg rc).setWidth 64 <<< 44) &&& m = 0) (hi : imm.setWidth 64 &&& m = low) :
    packWord op ra rb rc imm &&& m = (op.setWidth 64 <<< 56) ||| low := by
  simp [packWord, or_and, hop, ha, hb, hc, hi]

theorem off_free (off : BitVec 10) (m : CommandWord) (h : ∀ o : BitVec 10, (o.setWidth 32).setWidth 64 &&& m = 0) :
    (immOff off).setWidth 64 &&& m = 0 := h off

theorem window_free (lo hi : BitVec 10) (m : CommandWord)
    (h1 : ∀ o : BitVec 10, (o.setWidth 32 <<< 16).setWidth 64 &&& m = 0)
    (h2 : ∀ o : BitVec 10, (o.setWidth 32).setWidth 64 &&& m = 0) : (immWindow lo hi).setWidth 64 &&& m = 0 := by
  have e : (immWindow lo hi).setWidth 64 = (hi.setWidth 32 <<< 16).setWidth 64 ||| (lo.setWidth 32).setWidth 64 := by
    rw [immWindow, BitVec.setWidth_or]
  rw [e, or_and, h1, h2]
  rfl

theorem crn_free : ∀ crn : BitVec 3, (immCrn crn).setWidth 64 &&& subFormatMask .RC = 0 := by decide

theorem fid_free : ∀ fid : BitVec 8, (immFid fid).setWidth 64 &&& subFormatMask .RF = 0 := by decide +kernel

theorem k_free : ∀ k : BitVec 2, (immK k).setWidth 64 &&& subFormatMask .RK = 0 := by decide

theorem record_free : ∀ (n : BitVec 8) (w : BitVec 3), (immRecord n w).setWidth 64 &&& subFormatMask .RV = 0 := by
  decide +kernel

theorem ra_free_R : ∀ f : BitVec 4, (f.setWidth 64 <<< 52) &&& subFormatMask .R = 0 := by decide
theorem ra_free_RI : ∀ f : BitVec 4, (f.setWidth 64 <<< 52) &&& subFormatMask .RI = 0 := by decide
theorem ra_free_RO : ∀ f : BitVec 4, (f.setWidth 64 <<< 52) &&& subFormatMask .RO = 0 := by decide
theorem ra_free_RRRO : ∀ f : BitVec 4, (f.setWidth 64 <<< 52) &&& subFormatMask .RRRO = 0 := by decide
theorem rb_free_RRRO : ∀ f : BitVec 4, (f.setWidth 64 <<< 48) &&& subFormatMask .RRRO = 0 := by decide
theorem rc_free_RRRO : ∀ f : BitVec 4, (f.setWidth 64 <<< 44) &&& subFormatMask .RRRO = 0 := by decide
theorem ra_free_RW : ∀ f : BitVec 4, (f.setWidth 64 <<< 52) &&& subFormatMask .RW = 0 := by decide
theorem ra_free_RC : ∀ f : BitVec 4, (f.setWidth 64 <<< 52) &&& subFormatMask .RC = 0 := by decide
theorem ra_free_RC1 : ∀ f : BitVec 4, (f.setWidth 64 <<< 52) &&& subFormatMask .RC1 = 0 := by decide
theorem ra_free_RF : ∀ f : BitVec 4, (f.setWidth 64 <<< 52) &&& subFormatMask .RF = 0 := by decide
theorem ra_free_RV : ∀ f : BitVec 4, (f.setWidth 64 <<< 52) &&& subFormatMask .RV = 0 := by decide
theorem ra_free_RRR : ∀ f : BitVec 4, (f.setWidth 64 <<< 52) &&& subFormatMask .RRR = 0 := by decide
theorem rb_free_RRR : ∀ f : BitVec 4, (f.setWidth 64 <<< 48) &&& subFormatMask .RRR = 0 := by decide
theorem rc_free_RRR : ∀ f : BitVec 4, (f.setWidth 64 <<< 44) &&& subFormatMask .RRR = 0 := by decide
theorem ra_free_RR : ∀ f : BitVec 4, (f.setWidth 64 <<< 52) &&& subFormatMask .RR = 0 := by decide
theorem rb_free_RR : ∀ f : BitVec 4, (f.setWidth 64 <<< 48) &&& subFormatMask .RR = 0 := by decide
theorem ra_free_RK : ∀ f : BitVec 4, (f.setWidth 64 <<< 52) &&& subFormatMask .RK = 0 := by decide

theorem nop : Statement (.nop) := by
  refine ⟨_, by rw [encode, fieldOp_packWord]; rfl, ?_⟩
  rw [encode, fieldOp_packWord]
  exact packWord_and (by decide) (by decide) (by decide) (by decide) (by decide)

theorem ldi (ra : Reg) (imm32 : BitVec 32) : Statement (.ldi ra imm32) := by
  refine ⟨_, by rw [encode, fieldOp_packWord]; rfl, ?_⟩
  rw [encode, fieldOp_packWord]
  exact packWord_and (by decide) (reg_free ra _ _ ra_free_RI) (by decide) (by decide) (setWidth_and_high imm32 _ rfl)

theorem ldb (ra : Reg) (off : BitVec 10) : Statement (.ldb ra off) := by
  refine ⟨_, by rw [encode, fieldOp_packWord]; rfl, ?_⟩
  rw [encode, fieldOp_packWord]
  exact packWord_and (by decide) (reg_free ra _ _ ra_free_RO) (by decide) (by decide) (off_free off _ (by decide +kernel))

theorem stb (ra : Reg) (off : BitVec 10) : Statement (.stb ra off) := by
  refine ⟨_, by rw [encode, fieldOp_packWord]; rfl, ?_⟩
  rw [encode, fieldOp_packWord]
  exact packWord_and (by decide) (reg_free ra _ _ ra_free_RO) (by decide) (by decide) (off_free off _ (by decide +kernel))

theorem rdcr (ra : Reg) (crn : BitVec 3) : Statement (.rdcr ra crn) := by
  refine ⟨_, by rw [encode, fieldOp_packWord]; rfl, ?_⟩
  rw [encode, fieldOp_packWord]
  exact packWord_and (by decide) (reg_free ra _ _ ra_free_RC) (by decide) (by decide) (crn_free crn)

theorem wrcr (ra : Reg) : Statement (.wrcr ra) := by
  refine ⟨_, by rw [encode, fieldOp_packWord]; rfl, ?_⟩
  rw [encode, fieldOp_packWord]
  exact packWord_and (by decide) (reg_free ra _ _ ra_free_RC1) (by decide) (by decide) (by decide)

theorem srst : Statement (.srst) := by
  refine ⟨_, by rw [encode, fieldOp_packWord]; rfl, ?_⟩
  rw [encode, fieldOp_packWord]
  exact packWord_and (by decide) (by decide) (by decide) (by decide) (by decide)

theorem dec28 (ra : Reg) (off : BitVec 10) : Statement (.dec28 ra off) := by
  refine ⟨_, by rw [encode, fieldOp_packWord]; rfl, ?_⟩
  rw [encode, fieldOp_packWord]
  exact packWord_and (by decide) (reg_free ra _ _ ra_free_RO) (by decide) (by decide) (off_free off _ (by decide +kernel))

theorem enc28 (ra : Reg) (off : BitVec 10) : Statement (.enc28 ra off) := by
  refine ⟨_, by rw [encode, fieldOp_packWord]; rfl, ?_⟩
  rw [encode, fieldOp_packWord]
  exact packWord_and (by decide) (reg_free ra _ _ ra_free_RO) (by decide) (by decide) (off_free off _ (by decide +kernel))

theorem decso (ra : Reg) (rb : Reg) (rc : Reg) (off : BitVec 10) : Statement (.decso ra rb rc off) := by
  refine ⟨_, by rw [encode, fieldOp_packWord]; rfl, ?_⟩
  rw [encode, fieldOp_packWord]
  exact packWord_and (by decide) (reg_free ra _ _ ra_free_RRRO) (reg_free rb _ _ rb_free_RRRO) (reg_free rc _ _ rc_free_RRRO) (off_free off _ (by decide +kernel))

theorem encso (ra : Reg) (off : BitVec 10) : Statement (.encso ra off) := by
  refine ⟨_, by rw [encode, fieldOp_packWord]; rfl, ?_⟩
  rw [encode, fieldOp_packWord]
  exact packWord_and (by decide) (reg_free ra _ _ ra_free_RO) (by decide) (by decide) (off_free off _ (by decide +kernel))

theorem csum (ra : Reg) (lo : BitVec 10) (hi : BitVec 10) : Statement (.csum ra lo hi) := by
  refine ⟨_, by rw [encode, fieldOp_packWord]; rfl, ?_⟩
  rw [encode, fieldOp_packWord]
  exact packWord_and (by decide) (reg_free ra _ _ ra_free_RW) (by decide) (by decide) (window_free lo hi _ (by decide +kernel) (by decide +kernel))

theorem csvp (ra : Reg) : Statement (.csvp ra) := by
  refine ⟨_, by rw [encode, fieldOp_packWord]; rfl, ?_⟩
  rw [encode, fieldOp_packWord]
  exact packWord_and (by decide) (reg_free ra _ _ ra_free_R) (by decide) (by decide) (by decide)

theorem csvs (ra : Reg) : Statement (.csvs ra) := by
  refine ⟨_, by rw [encode, fieldOp_packWord]; rfl, ?_⟩
  rw [encode, fieldOp_packWord]
  exact packWord_and (by decide) (reg_free ra _ _ ra_free_R) (by decide) (by decide) (by decide)

theorem csfp : Statement (.csfp) := by
  refine ⟨_, by rw [encode, fieldOp_packWord]; rfl, ?_⟩
  rw [encode, fieldOp_packWord]
  exact packWord_and (by decide) (by decide) (by decide) (by decide) (by decide)

theorem csfs : Statement (.csfs) := by
  refine ⟨_, by rw [encode, fieldOp_packWord]; rfl, ?_⟩
  rw [encode, fieldOp_packWord]
  exact packWord_and (by decide) (by decide) (by decide) (by decide) (by decide)

theorem pdec : Statement (.pdec) := by
  refine ⟨_, by rw [encode, fieldOp_packWord]; rfl, ?_⟩
  rw [encode, fieldOp_packWord]
  exact packWord_and (by decide) (by decide) (by decide) (by decide) (by decide)

theorem penc (ra : Reg) : Statement (.penc ra) := by
  refine ⟨_, by rw [encode, fieldOp_packWord]; rfl, ?_⟩
  rw [encode, fieldOp_packWord]
  exact packWord_and (by decide) (reg_free ra _ _ ra_free_R) (by decide) (by decide) (by decide)

theorem pfld (ra : Reg) (fid : BitVec 8) : Statement (.pfld ra fid) := by
  refine ⟨_, by rw [encode, fieldOp_packWord]; rfl, ?_⟩
  rw [encode, fieldOp_packWord]
  exact packWord_and (by decide) (reg_free ra _ _ ra_free_RF) (by decide) (by decide) (fid_free fid)

theorem rdvl (ra : Reg) (n : BitVec 8) (w : BitVec 3) : Statement (.rdvl ra n w) := by
  refine ⟨_, by rw [encode, fieldOp_packWord]; rfl, ?_⟩
  rw [encode, fieldOp_packWord]
  exact packWord_and (by decide) (reg_free ra _ _ ra_free_RV) (by decide) (by decide) (record_free n w)

theorem sdec : Statement (.sdec) := by
  refine ⟨_, by rw [encode, fieldOp_packWord]; rfl, ?_⟩
  rw [encode, fieldOp_packWord]
  exact packWord_and (by decide) (by decide) (by decide) (by decide) (by decide)

theorem senc (ra : Reg) : Statement (.senc ra) := by
  refine ⟨_, by rw [encode, fieldOp_packWord]; rfl, ?_⟩
  rw [encode, fieldOp_packWord]
  exact packWord_and (by decide) (reg_free ra _ _ ra_free_R) (by decide) (by decide) (by decide)

theorem ccget (ra : Reg) (rb : Reg) (rc : Reg) : Statement (.ccget ra rb rc) := by
  refine ⟨_, by rw [encode, fieldOp_packWord]; rfl, ?_⟩
  rw [encode, fieldOp_packWord]
  exact packWord_and (by decide) (reg_free ra _ _ ra_free_RRR) (reg_free rb _ _ rb_free_RRR) (reg_free rc _ _ rc_free_RRR) (by decide)

theorem ccset (ra : Reg) (rb : Reg) (rc : Reg) : Statement (.ccset ra rb rc) := by
  refine ⟨_, by rw [encode, fieldOp_packWord]; rfl, ?_⟩
  rw [encode, fieldOp_packWord]
  exact packWord_and (by decide) (reg_free ra _ _ ra_free_RRR) (reg_free rb _ _ rb_free_RRR) (reg_free rc _ _ rc_free_RRR) (by decide)

theorem unpk3 (ra : Reg) (rb : Reg) (rc : Reg) (off : BitVec 10) : Statement (.unpk3 ra rb rc off) := by
  refine ⟨_, by rw [encode, fieldOp_packWord]; rfl, ?_⟩
  rw [encode, fieldOp_packWord]
  exact packWord_and (by decide) (reg_free ra _ _ ra_free_RRRO) (reg_free rb _ _ rb_free_RRRO) (reg_free rc _ _ rc_free_RRRO) (off_free off _ (by decide +kernel))

theorem pk3 (ra : Reg) (rb : Reg) (rc : Reg) (off : BitVec 10) : Statement (.pk3 ra rb rc off) := by
  refine ⟨_, by rw [encode, fieldOp_packWord]; rfl, ?_⟩
  rw [encode, fieldOp_packWord]
  exact packWord_and (by decide) (reg_free ra _ _ ra_free_RRRO) (reg_free rb _ _ rb_free_RRRO) (reg_free rc _ _ rc_free_RRRO) (off_free off _ (by decide +kernel))

theorem pmiget (ra : Reg) (rb : Reg) : Statement (.pmiget ra rb) := by
  refine ⟨_, by rw [encode, fieldOp_packWord]; rfl, ?_⟩
  rw [encode, fieldOp_packWord]
  exact packWord_and (by decide) (reg_free ra _ _ ra_free_RR) (reg_free rb _ _ rb_free_RR) (by decide) (by decide)

theorem pmiset (ra : Reg) (rb : Reg) : Statement (.pmiset ra rb) := by
  refine ⟨_, by rw [encode, fieldOp_packWord]; rfl, ?_⟩
  rw [encode, fieldOp_packWord]
  exact packWord_and (by decide) (reg_free ra _ _ ra_free_RR) (reg_free rb _ _ rb_free_RR) (by decide) (by decide)

theorem pmoget (ra : Reg) (rb : Reg) : Statement (.pmoget ra rb) := by
  refine ⟨_, by rw [encode, fieldOp_packWord]; rfl, ?_⟩
  rw [encode, fieldOp_packWord]
  exact packWord_and (by decide) (reg_free ra _ _ ra_free_RR) (reg_free rb _ _ rb_free_RR) (by decide) (by decide)

theorem pmoset (ra : Reg) (rb : Reg) : Statement (.pmoset ra rb) := by
  refine ⟨_, by rw [encode, fieldOp_packWord]; rfl, ?_⟩
  rw [encode, fieldOp_packWord]
  exact packWord_and (by decide) (reg_free ra _ _ ra_free_RR) (reg_free rb _ _ rb_free_RR) (by decide) (by decide)

theorem pedget (ra : Reg) (k : BitVec 2) : Statement (.pedget ra k) := by
  refine ⟨_, by rw [encode, fieldOp_packWord]; rfl, ?_⟩
  rw [encode, fieldOp_packWord]
  exact packWord_and (by decide) (reg_free ra _ _ ra_free_RK) (by decide) (by decide) (k_free k)

theorem pedset (ra : Reg) (k : BitVec 2) : Statement (.pedset ra k) := by
  refine ⟨_, by rw [encode, fieldOp_packWord]; rfl, ?_⟩
  rw [encode, fieldOp_packWord]
  exact packWord_and (by decide) (reg_free ra _ _ ra_free_RK) (by decide) (by decide) (k_free k)

end Sys2Proof.Laws.FixedBits
end

