-- ==== Sys2Proof/Laws/Step.lean ====
section
/-! SUPPORT. A step, said once: the configuration passes and the host's next action is performed. -/

namespace Sys2Proof.Machine

/-- Under a configuration that passes `wfCfg`, a step is the host's next action. -/
theorem step_of_wfCfg {s : State} (h : wfCfg s.cfg = true) : step s = runHost s := if_pos h

/-- Under any other, it is refused. -/
theorem step_of_not_wfCfg {s : State} (h : wfCfg s.cfg = false) : step s = .refused .illFormedConfig :=
  if_neg (by rw [h]; exact Bool.false_ne_true)

theorem runHost_nil {s : State} (h : s.host = []) : runHost s = .next s := by rw [runHost, h]

theorem runHost_cons {s : State} {a : HostAction} {rest : List HostAction} (h : s.host = a :: rest) :
    runHost s = performAction a (s.setHost rest) := by rw [runHost, h]

/-- All a step can do: nothing when the host issues nothing, else its next action. -/
theorem step_cases {s t : State} (h : step s = .next t) :
    wfCfg s.cfg = true ∧
      ((s.host = [] ∧ t = s) ∨ ∃ a rest, s.host = a :: rest ∧ performAction a (s.setHost rest) = .next t) := by
  cases hw : wfCfg s.cfg with
  | false => rw [step_of_not_wfCfg hw] at h; cases h
  | true =>
    refine ⟨rfl, ?_⟩
    rw [step_of_wfCfg hw] at h
    cases hh : s.host with
    | nil =>
      rw [runHost_nil hh] at h
      injection h with h
      exact .inl ⟨rfl, h.symm⟩
    | cons a rest => exact .inr ⟨a, rest, rfl, runHost_cons hh ▸ h⟩

/-- A word that decodes runs its command. -/
theorem issueWord_of_ok {w : CommandWord} {i : Instr} (h : decode w = .ok i) (s : State) : issueWord w s = exec i s := by
  rw [issueWord, h]

/-- A word that does not ends `ILLEGAL`. -/
theorem issueWord_of_error {w : CommandWord} {e : IllegalWord} (h : decode w = .error e) (s : State) :
    issueWord w s = raiseIllegal s := by
  rw [issueWord, h]

end Sys2Proof.Machine
end

