-- ==== Sys2Proof/Laws/Stores.lean ====
section
/-! SUPPORT. What the shared storing operations leave, in the terms of Safety.lean. -/

namespace Sys2Proof.Machine

/-- The bytes of a four-byte store. -/
theorem readCell_writeQuad_bytes {m : Memory} (hm : memoryWf m = true) {a : Nat} (ha : a + 4 ≤ 528) (q : Quad) (j : Nat)
    (hj : j < (quadBytes q).length) : readCell (writeQuad m a q) (a + j) = (quadBytes q)[j] := by
  have hj' : j < 4 := hj
  rw [readCell_writeQuad hm ha]
  have h : j = 0 ∨ j = 1 ∨ j = 2 ∨ j = 3 := by omega
  rcases h with rfl | rfl | rfl | rfl
  · rw [if_pos (by omega)]; rfl
  · rw [if_neg (by omega), if_pos (by omega)]; rfl
  · rw [if_neg (by omega), if_neg (by omega), if_pos (by omega)]; rfl
  · rw [if_neg (by omega), if_neg (by omega), if_neg (by omega), if_pos (by omega)]; rfl

/-- A raw store that ends `ok`: what it wrote is a memory that has the bytes and keeps every other cell. -/
theorem storedBytes_rawWrite {s : State} {a : Nat} {bytes : List Byte} {m : Memory}
    (hb : ∀ j (h : j < bytes.length), readCell m (a + j) = bytes[j])
    (ho : ∀ c, ¬ InRun a bytes.length c → readCell m c = readCell s.mem c) :
    StoredBytes s ((s.rawWrite m).setStatus (statusOk s.status false)) a bytes (fun _ => False) .none where
  ends := endsOk_setStatus s (s.rawWrite m) false rfl
  stored := hb
  others := fun c hc => ho c fun h => hc (.inl h)
  kind := rfl
  len := rfl
  regs := fun _ _ => rfl
  results := ⟨rfl, rfl, rfl, rfl, rfl⟩
  outside := ⟨rfl, rfl⟩

/-- A raw four-byte write inside the valid region. -/
theorem rawWriteQuad_storedBytes {s : State} {a : Nat} (q : Quad) (hs : BufferLegal s) (ha : a + 4 ≤ s.len.toNat) :
    ∃ t, rawWriteQuad s a q = .next t ∧ StoredBytes s t a (quadBytes q) (fun _ => False) .none := by
  have hl := hs.len
  rcases rawWriteQuad_cases s a q with ⟨-, e⟩ | ⟨h, -⟩
  · refine ⟨_, e, storedBytes_rawWrite (readCell_writeQuad_bytes hs.mem (by omega) q) ?_⟩
    intro c hc
    refine readCell_writeQuad_of_not_mem hs.mem q ?_
    have : ¬ (a ≤ c ∧ c < a + 4) := hc
    omega
  · omega

/-- A checksum store inside the valid region. -/
theorem fixCommand_storedBytes {s : State} {p : Payload} (hs : BufferLegal s) (h1 : p.hi < s.len.toNat)
    (h2 : p.pos < s.len.toNat) :
    ∃ t, fixCommand s p = .next t ∧ StoredBytes s t p.pos [byteOf (windowSum s.mem p)] (fun _ => False) .none := by
  have hl := hs.len
  rcases fixCommand_cases s p with ⟨-, -, e⟩ | ⟨h, -⟩
  · refine ⟨_, e, storedBytes_rawWrite ?_ ?_⟩
    · intro j hj
      have hj0 : j = 0 := by
        have : j < 1 := hj
        omega
      subst hj0
      exact readCell_storeSum_self hs.mem p (by omega)
    · intro c hc
      refine readCell_storeSum_of_ne hs.mem p ?_
      have : ¬ (p.pos ≤ c ∧ c < p.pos + 1) := hc
      omega
  · exact absurd ⟨h1, h2⟩ h

/-- A system update: the table bytes stay in front of the checksum byte, every other cell is kept, and the checksum of
the window is right. -/
theorem storedBytes_update {s : State} {a : Nat} {bytes : List Byte} {m : Memory} (hc : wfCfg s.cfg = true)
    (hk : s.kind = .system) (hm : memoryWf m = true) (hp : ¬ InRun a bytes.length s.cfg.sysCsumPos)
    (hb : ∀ j (h : j < bytes.length), readCell m (a + j) = bytes[j])
    (ho : ∀ c, ¬ InRun a bytes.length c → readCell m c = readCell s.mem c) :
    StoredBytes s ((sysfix (s.setMem m)).setStatus (statusOk s.status false)) a bytes
      (fun b => b = s.cfg.sysCsumPos) .system ∧
    SystemSumRight ((sysfix (s.setMem m)).setStatus (statusOk s.status false)) := by
  have hpos := wfCfg_sumByte hc
  have hwin := wfCfg_window hc
  have hkeep : ∀ c, c ≠ s.cfg.sysCsumPos → readCell (sysfix (s.setMem m)).mem c = readCell m c := fun c h =>
    readCell_storeSum_of_ne hm (systemPayload s.cfg) h
  refine ⟨⟨endsOk_setStatus s (sysfix (s.setMem m)) false rfl, ?_, ?_, hk, rfl, fun _ _ => rfl,
    ⟨rfl, rfl, rfl, rfl, rfl⟩, ⟨rfl, rfl⟩⟩, ?_⟩
  · intro j hj
    refine (hkeep _ fun h => hp ?_).trans (hb j hj)
    rw [← h]
    exact ⟨by omega, by omega⟩
  · intro c hc
    exact (hkeep c fun h => hc (.inr h)).trans (ho c fun h => hc (.inl h))
  · have hsum : windowSum (storeSum m (systemPayload s.cfg)) (systemPayload s.cfg) = windowSum m (systemPayload s.cfg) :=
      windowSum_storeSum hm _ hwin.2.2.2
    have hself : readCell (storeSum m (systemPayload s.cfg)) s.cfg.sysCsumPos
        = byteOf (windowSum m (systemPayload s.cfg)) := readCell_storeSum_self hm (systemPayload s.cfg) (by
          simp only [systemPayload]
          omega)
    show (readCell (storeSum m (systemPayload s.cfg)) s.cfg.sysCsumPos).toNat
      = windowSum (storeSum m (systemPayload s.cfg)) (systemPayload s.cfg)
    rw [hsum, hself, byteOf_toNat_of_lt]
    have : windowSum m (systemPayload s.cfg) < 128 := csum_lt _
    omega

/-- A four-byte table update inside the valid region. -/
theorem updateQuad_storedBytes {s : State} {a : Nat} (q : Quad) (hs : BufferLegal s) (hc : wfCfg s.cfg = true)
    (hk : s.kind = .system) (ha : a + 4 ≤ s.len.toNat) (hp : ¬ InRun a 4 s.cfg.sysCsumPos) :
    ∃ t, updateQuad s a q = .next t ∧
      StoredBytes s t a (quadBytes q) (fun b => b = s.cfg.sysCsumPos) .system ∧ SystemSumRight t := by
  have hl := hs.len
  rcases updateQuad_cases s a q with ⟨-, e⟩ | ⟨h, -⟩
  · refine ⟨_, e, storedBytes_update hc hk (memoryWf_writeQuad hs.mem _ _) hp
      (readCell_writeQuad_bytes hs.mem (by omega) q) ?_⟩
    intro c hc
    refine readCell_writeQuad_of_not_mem hs.mem q ?_
    have : ¬ (a ≤ c ∧ c < a + 4) := hc
    omega
  · omega

end Sys2Proof.Machine
end

