-- ==== Sys2Proof/Machine/Assembly.lean ====
section
/-! DEFINITION. The assembler's text (30_encoding.md R47): one line read as the command it writes. No step reads text;
this is the notation the spec writes programs in. What R47 leaves open of spaces and empty lines is fixed in log 21. -/

namespace Sys2Proof.Machine

/-- What one line of assembler text is. -/
inductive AsmLine where
  /-- nothing but spaces and a comment -/
  | blank
  /-- a command -/
  | command (i : Instr)
  /-- no command of 30_encoding.md R43, R47 -/
  | unreadable
  deriving DecidableEq, Repr

/-! ### Splitting a line -/

/-- The text before the first `;`, which starts a comment. -/
def stripComment : List Char → List Char
  | [] => []
  | c :: cs => if c = ';' then [] else c :: stripComment cs

/-- A space or a tab. -/
def isBlank (c : Char) : Bool := c = ' ' || c = '\t'

/-- Blanks dropped at the front. -/
def trimFront : List Char → List Char
  | [] => []
  | c :: cs => if isBlank c then trimFront cs else c :: cs

/-- Blanks dropped at both ends. -/
def trimEnds (cs : List Char) : List Char := (trimFront (trimFront cs).reverse).reverse

/-- The characters before the first blank, and those from it on. -/
def takeWord : List Char → List Char × List Char
  | [] => ([], [])
  | c :: cs => if isBlank c then ([], c :: cs) else ((c :: (takeWord cs).1), (takeWord cs).2)

/-- The parts between commas, each without the blanks around it; `acc` is the part read so far, reversed. -/
def splitCommas : List Char → List Char → List (List Char)
  | acc, [] => [trimEnds acc.reverse]
  | acc, c :: cs => if c = ',' then trimEnds acc.reverse :: splitCommas [] cs else splitCommas (c :: acc) cs

/-- The operand texts of what follows the mnemonic; none when nothing does. -/
def operandTexts (cs : List Char) : List (List Char) :=
  if trimEnds cs = [] then [] else splitCommas [] cs

/-! ### Numbers, registers and names -/

/-- The value of a digit below `base`. -/
def digitValue (base : Nat) (c : Char) : Option Nat :=
  let n := c.toNat
  let v := if 48 ≤ n ∧ n ≤ 57 then n - 48 else if 97 ≤ n ∧ n ≤ 102 then n - 87
    else if 65 ≤ n ∧ n ≤ 70 then n - 55 else 16
  if v < base then some v else none

/-- A run of digits as a number. -/
def readDigits (base : Nat) : Nat → List Char → Option Nat
  | acc, [] => some acc
  | acc, c :: cs =>
    match digitValue base c with
    | some d => readDigits base (acc * base + d) cs
    | none => none

/-- A number: decimal, or hexadecimal with `0x`. -/
def readNumber : List Char → Option Nat
  | [] => none
  | '0' :: 'x' :: [] => none
  | '0' :: 'x' :: cs => readDigits 16 0 cs
  | cs => readDigits 10 0 cs

/-- An immediate of `n` bits. -/
def readImmediate (n : Nat) (cs : List Char) : Option (BitVec n) :=
  match readNumber cs with
  | some v => if v < 2 ^ n then some (BitVec.ofNat n v) else none
  | none => none

/-- The immediate of `LDI`: also a negative decimal `-n` with `n <= 2^31`, the pattern `2^32 - n`. -/
def readPattern : List Char → Option (BitVec 32)
  | '-' :: [] => none
  | '-' :: cs =>
    match readDigits 10 0 cs with
    | some v => if v ≤ 2147483648 then some (BitVec.ofInt 32 (-v)) else none
    | none => none
  | cs => readImmediate 32 cs

/-- A register, `x0` .. `x15`. -/
def readRegister : List Char → Option Reg
  | ['x', c] => (digitValue 10 c).map (Fin.ofNat 16)
  | ['x', '1', c] =>
    match digitValue 10 c with
    | some d => if d < 6 then some (Fin.ofNat 16 (10 + d)) else none
    | none => none
  | _ => none

/-- The place of a name in a list of names. -/
def nameIndex (cs : List Char) : List String → Nat → Option Nat
  | [], _ => none
  | s :: ss, k => if s.toList = cs then some k else nameIndex cs ss (k + 1)

/-- An immediate that may be written by name: the names stand for 0, 1, 2, ... -/
def readNamed (n : Nat) (names : List String) (cs : List Char) : Option (BitVec n) :=
  match nameIndex cs names 0 with
  | some k => some (BitVec.ofNat n k)
  | none => readImmediate n cs

/-- The names of the control registers 0..6. -/
def controlNames : List String := ["STATUS", "LEN", "KIND", "NUM", "NAMELEN", "NVIOL", "NFLD"]

/-- The names of the words 0..4 of a violation record. -/
def recordNames : List String := ["FID", "VAL", "KIND", "LO", "HI"]

/-- The names of the pedal fields 0..3. -/
def pedalNames : List String := ["PARAM", "MIN", "MID", "MAX"]

/-! ### Operand forms -/

/-- No operand. -/
def asmNone (i : Instr) : List (List Char) → Option Instr
  | [] => some i
  | _ => none

/-- One register. -/
def asmReg (f : Reg → Instr) : List (List Char) → Option Instr
  | [a] => (readRegister a).map f
  | _ => none

/-- Two registers. -/
def asmRegReg (f : Reg → Reg → Instr) : List (List Char) → Option Instr
  | [a, b] => do some (f (← readRegister a) (← readRegister b))
  | _ => none

/-- Three registers. -/
def asmRegRegReg (f : Reg → Reg → Reg → Instr) : List (List Char) → Option Instr
  | [a, b, c] => do some (f (← readRegister a) (← readRegister b) (← readRegister c))
  | _ => none

/-- One register and an immediate read by `imm`. -/
def asmRegImm {n : Nat} (imm : List Char → Option (BitVec n)) (f : Reg → BitVec n → Instr) :
    List (List Char) → Option Instr
  | [a, b] => do some (f (← readRegister a) (← imm b))
  | _ => none

/-- One register and two immediates. -/
def asmRegImmImm {n m : Nat} (imm : List Char → Option (BitVec n)) (imm' : List Char → Option (BitVec m))
    (f : Reg → BitVec n → BitVec m → Instr) : List (List Char) → Option Instr
  | [a, b, c] => do some (f (← readRegister a) (← imm b) (← imm' c))
  | _ => none

/-- Three registers and an offset. -/
def asmRegRegRegOff (f : Reg → Reg → Reg → BitVec 10 → Instr) : List (List Char) → Option Instr
  | [a, b, c, d] => do some (f (← readRegister a) (← readRegister b) (← readRegister c) (← readImmediate 10 d))
  | _ => none

/-- `WRCR LEN, xN`. -/
def asmWrcr : List (List Char) → Option Instr
  | [a, b] => if a = "LEN".toList then (readRegister b).map .wrcr else none
  | _ => none

/-! ### Lines -/

/-- The operand form of each mnemonic, in the order of 30_encoding.md R43. -/
def asmTable : List (String × (List (List Char) → Option Instr)) :=
  [ ("NOP", asmNone .nop), ("LDI", asmRegImm readPattern .ldi),
    ("LDB", asmRegImm (readImmediate 10) .ldb), ("STB", asmRegImm (readImmediate 10) .stb),
    ("RDCR", asmRegImm (readNamed 3 controlNames) .rdcr), ("WRCR", asmWrcr), ("SRST", asmNone .srst),
    ("DEC28", asmRegImm (readImmediate 10) .dec28), ("ENC28", asmRegImm (readImmediate 10) .enc28),
    ("DECSO", asmRegRegRegOff .decso), ("ENCSO", asmRegImm (readImmediate 10) .encso),
    ("CSUM", asmRegImmImm (readImmediate 10) (readImmediate 10) .csum), ("CSVP", asmReg .csvp),
    ("CSVS", asmReg .csvs), ("CSFP", asmNone .csfp), ("CSFS", asmNone .csfs) ]
  ++ [ ("PDEC", asmNone .pdec), ("PENC", asmReg .penc), ("PFLD", asmRegImm (readImmediate 8) .pfld),
    ("RDVL", asmRegImmImm (readImmediate 8) (readNamed 3 recordNames) .rdvl), ("SDEC", asmNone .sdec),
    ("SENC", asmReg .senc), ("CCGET", asmRegRegReg .ccget), ("CCSET", asmRegRegReg .ccset),
    ("UNPK3", asmRegRegRegOff .unpk3), ("PK3", asmRegRegRegOff .pk3), ("PMIGET", asmRegReg .pmiget),
    ("PMISET", asmRegReg .pmiset), ("PMOGET", asmRegReg .pmoget), ("PMOSET", asmRegReg .pmoset),
    ("PEDGET", asmRegImm (readNamed 2 pedalNames) .pedget),
    ("PEDSET", asmRegImm (readNamed 2 pedalNames) .pedset) ]

/-- The operand form of a mnemonic. -/
def asmForm (m : List Char) : List (String × (List (List Char) → Option Instr)) → Option (List (List Char) → Option Instr)
  | [] => none
  | (s, f) :: rest => if s.toList = m then some f else asmForm m rest

/-- One line of assembler text. A text whose operands make no command (30_encoding.md R44 d) is unreadable. -/
def assembleLine (line : List Char) : AsmLine :=
  let text := trimEnds (stripComment line)
  if text = [] then .blank
  else
    match asmForm (takeWord text).1 asmTable with
    | none => .unreadable
    | some f =>
      match f (operandTexts (takeWord text).2) with
      | some i => if i.wf then .command i else .unreadable
      | none => .unreadable

/-- The command word a line of assembler text stands for. -/
def assembleWord (line : List Char) : Option CommandWord :=
  match assembleLine line with
  | .command i => some (encode i)
  | .blank | .unreadable => none

end Sys2Proof.Machine
end

