-- ==== Sys2Proof/Tests/Slice0.lean ====
section
/-! SUPPORT. The model's own tests: what a syntax check, the decoder and one step do on small cases, each expected
result taken from spec/95_test_vectors.md or worked out by hand from the rule named; and for every obligation with
hypotheses a witness that meets them together (theorems named witness_...). -/

namespace Sys2Proof.Tests

-- one theorem at a time: theorems waiting for the kernel side by side take more memory than the check allows
set_option Elab.async false

open Sys2Proof Sys2Proof.Machine

/-! ### Helpers -/

/-- A part of the state a command leaves. -/
def after {α : Type} (i : Instr) (s : State) (f : State → α) : Option α :=
  match exec i s with
  | .next t => some (f t)
  | .fault _ | .refused _ => none

/-- A part of the state a command word leaves, issued by the host as the next step. -/
def afterWord {α : Type} (w : Nat) (s : State) (f : State → α) : Option α :=
  match step (s.withFetchWord 64 w) with
  | .next t => some (f t)
  | .fault _ | .refused _ => none

/-- Bytes stored from an address on. -/
def put (m : Memory) (a : Nat) : List Byte → Memory
  | [] => m
  | b :: bs => put (writeCell m a b) (a + 1) bs

/-- Bytes read from an address on. -/
def bytesAt (s : State) (a n : Nat) : List Nat := (readBytes s.mem a n).map BitVec.toNat

/-- Registers set in order. -/
def withRegs (s : State) : List (Reg × Int) → State
  | [] => s
  | p :: ps => withRegs (s.setReg p.1 (patternOf p.2)) ps

/-- The reset state with a length, bytes from an address on, and registers. -/
def raw (len a : Nat) (bytes : List Byte) (ps : List (Reg × Int)) : State :=
  withRegs ((State.reset.setLen len).setMem (put [] a bytes)) ps

/-- The message P(num, "", fields) of 95_test_vectors.md section 1; `fields` are the raw values of the five fields. -/
def presetMemory (num : Byte) (fields : List Nat) : Memory :=
  put (put (put [] 0 [0xF0, 0x00, 0x20, 0x1F, 0x00, 0x63, 0x20, 0x01, num, 0x00]) 519 [0xF7]) 34
    (fields.flatMap fun v => quadBytes (enc28 v))

/-- The reset state holding such a message. -/
def preset (len : Nat) (num : Byte) (fields : List Nat) : State :=
  (State.reset.setLen len).setMem (presetMemory num fields)

/-- The message S(527) of 95_test_vectors.md section 1 with all-zero CC slots, so that tests stay small: 128 bytes
`FF` add 0 to a checksum. -/
def dumpMemory : Memory :=
  put (put [] 0 [0xF0, 0x00, 0x20, 0x1F, 0x00, 0x63, 0x20, 0x02]) 525 [0xF7, 0xF7]

/-- That message loaded, the latch not yet set, with registers. -/
def dump (ps : List (Reg × Int)) : State := withRegs ((State.reset.setLen 527).setMem dumpMemory) ps

/-- That message after `SDEC`. -/
def systemBase : State := ((State.reset.setLen 527).setMem dumpMemory).setKind .system

/-- The same with registers. -/
def system (ps : List (Reg × Int)) : State := withRegs systemBase ps

/-- The message of 95_test_vectors.md section 5.1 after `PDEC`. -/
def latched : State := acceptPreset (preset 520 31 [120])

/-- That message with `tapTempo` 0 after `PDEC`: one record. -/
def rejected : State :=
  rejectPreset (preset 520 31 [0]) (decodeFields (presetMemory 31 [0]) tc1Table).violations

/-- A configuration that passes no check: the CC stride is 1 (00_scope.md R6 e). -/
def badCfg : Cfg := { Cfg.tc1 with ccStride := 1 }

/-! ### Well-formedness: an ill-formed term for each check (30_encoding.md R43) -/

theorem test_wf_control_register : (Instr.rdcr 1 7).wf = false ∧ (Instr.rdcr 1 6).wf = true := by decide
theorem test_wf_record_word : (Instr.rdvl 3 0 5).wf = false ∧ (Instr.rdvl 3 255 4).wf = true := by decide
theorem test_wf_two_destinations : (Instr.ccget 1 1 0).wf = false ∧ (Instr.ccget 1 2 1).wf = true := by decide
theorem test_wf_three_destinations :
    (Instr.unpk3 1 2 2 0).wf = false ∧ (Instr.unpk3 1 1 2 0).wf = false ∧ (Instr.unpk3 1 2 1 0).wf = false ∧
    (Instr.unpk3 1 2 3 0).wf = true := by decide

/-! ### Configurations (00_scope.md R6, 42_preset.md R69) -/

theorem test_cfg_tc1 : wfCfg Cfg.tc1 = true := by decide
theorem test_cfg_stride : wfCfg badCfg = false := by decide
theorem test_cfg_overlap : wfCfg { Cfg.tc1 with pmapInBase := 160 } = false := by decide
theorem test_cfg_window_holds_sum : wfCfg { Cfg.tc1 with sysCsumHi := 524 } = false := by decide
theorem test_cfg_unmapped_is_a_preset : wfCfg { Cfg.tc1 with pmapUnmapped := 31 } = false := by decide
theorem test_table_field_too_high : wfTable [⟨"a", 515, ⟨.plain, .range 0 1⟩, .none⟩] = false := by decide
theorem test_table_later_discriminator :
    wfTable [⟨"a", 34, ⟨.plain, .range 0 1⟩, .by 0 []⟩] = false := by decide
theorem test_table_signed_below_minimum :
    wfTable [⟨"a", 34, ⟨.signed, .range (-777216) 0⟩, .none⟩] = false := by decide

/-! ### Decoding: every command's word (95_test_vectors.md section 10) and its assembler text (30_encoding.md R47) -/

theorem test_decode_housekeeping :
    decode 0x0000000000000000#64 = .ok (.nop) ∧
    decode 0x01100000FFFFFF9C#64 = .ok (.ldi 1 0xFFFFFF9C) ∧
    decode 0x0250000000000206#64 = .ok (.ldb 5 518) ∧
    decode 0x0310000000000008#64 = .ok (.stb 1 8) ∧
    decode 0x0420000000000005#64 = .ok (.rdcr 2 5) ∧
    decode 0x0500000000000001#64 = .ok (.wrcr 0) ∧
    decode 0x0600000000000000#64 = .ok (.srst) := by decide +kernel

theorem test_assemble_housekeeping :
    assembleWord "NOP".toList = some 0x0000000000000000#64 ∧
    assembleWord "LDI x1, -100".toList = some 0x01100000FFFFFF9C#64 ∧
    assembleWord "LDB x5, 518".toList = some 0x0250000000000206#64 ∧
    assembleWord "STB x1, 8".toList = some 0x0310000000000008#64 ∧
    assembleWord "RDCR x2, NVIOL".toList = some 0x0420000000000005#64 ∧
    assembleWord "WRCR LEN, x0".toList = some 0x0500000000000001#64 ∧
    assembleWord "SRST".toList = some 0x0600000000000000#64 := by decide +kernel

theorem test_decode_varint :
    decode 0x1050000000000028#64 = .ok (.dec28 5 40) ∧
    decode 0x116000000000002C#64 = .ok (.enc28 6 44) ∧
    decode 0x1242300000000028#64 = .ok (.decso 4 2 3 40) ∧
    decode 0x1310000000000028#64 = .ok (.encso 1 40) := by decide +kernel

theorem test_assemble_varint :
    assembleWord "DEC28 x5, 40".toList = some 0x1050000000000028#64 ∧
    assembleWord "ENC28 x6, 44".toList = some 0x116000000000002C#64 ∧
    assembleWord "DECSO x4, x2, x3, 40".toList = some 0x1242300000000028#64 ∧
    assembleWord "ENCSO x1, 40".toList = some 0x1310000000000028#64 := by decide +kernel

theorem test_decode_checksum :
    decode 0x2010000002040008#64 = .ok (.csum 1 8 516) ∧
    decode 0x2130000000000000#64 = .ok (.csvp 3) ∧
    decode 0x2200000000000000#64 = .ok (.csvs 0) ∧
    decode 0x2300000000000000#64 = .ok (.csfp) ∧
    decode 0x2400000000000000#64 = .ok (.csfs) := by decide +kernel

theorem test_assemble_checksum :
    assembleWord "CSUM x1, 8, 516".toList = some 0x2010000002040008#64 ∧
    assembleWord "CSVP x3".toList = some 0x2130000000000000#64 ∧
    assembleWord "CSVS x0".toList = some 0x2200000000000000#64 ∧
    assembleWord "CSFP".toList = some 0x2300000000000000#64 ∧
    assembleWord "CSFS".toList = some 0x2400000000000000#64 := by decide +kernel

theorem test_decode_preset :
    decode 0x3000000000000000#64 = .ok (.pdec) ∧
    decode 0x31F0000000000000#64 = .ok (.penc 15) ∧
    decode 0x3230000000000001#64 = .ok (.pfld 3 1) ∧
    decode 0x3330000000000100#64 = .ok (.rdvl 3 0 1) := by decide +kernel

theorem test_assemble_preset :
    assembleWord "PDEC".toList = some 0x3000000000000000#64 ∧
    assembleWord "PENC x15".toList = some 0x31F0000000000000#64 ∧
    assembleWord "PFLD x3, 1".toList = some 0x3230000000000001#64 ∧
    assembleWord "RDVL x3, 0, VAL".toList = some 0x3330000000000100#64 := by decide +kernel

theorem test_decode_system :
    decode 0x4000000000000000#64 = .ok (.sdec) ∧
    decode 0x4150000000000000#64 = .ok (.senc 5) ∧
    decode 0x4212300000000000#64 = .ok (.ccget 1 2 3) ∧
    decode 0x4315600000000000#64 = .ok (.ccset 1 5 6) ∧
    decode 0x444560000000000C#64 = .ok (.unpk3 4 5 6 12) ∧
    decode 0x4512300000000000#64 = .ok (.pk3 1 2 3 0) ∧
    decode 0x4697000000000000#64 = .ok (.pmiget 9 7) ∧
    decode 0x4712000000000000#64 = .ok (.pmiset 1 2) ∧
    decode 0x48EC000000000000#64 = .ok (.pmoget 14 12) ∧
    decode 0x49CD000000000000#64 = .ok (.pmoset 12 13) ∧
    decode 0x4AF0000000000003#64 = .ok (.pedget 15 3) ∧
    decode 0x4B10000000000003#64 = .ok (.pedset 1 3) := by decide +kernel

theorem test_assemble_system :
    assembleWord "SDEC".toList = some 0x4000000000000000#64 ∧
    assembleWord "SENC x5".toList = some 0x4150000000000000#64 ∧
    assembleWord "CCGET x1, x2, x3".toList = some 0x4212300000000000#64 ∧
    assembleWord "CCSET x1, x5, x6".toList = some 0x4315600000000000#64 ∧
    assembleWord "UNPK3 x4, x5, x6, 12".toList = some 0x444560000000000C#64 ∧
    assembleWord "PK3 x1, x2, x3, 0".toList = some 0x4512300000000000#64 ∧
    assembleWord "PMIGET x9, x7".toList = some 0x4697000000000000#64 ∧
    assembleWord "PMISET x1, x2".toList = some 0x4712000000000000#64 ∧
    assembleWord "PMOGET x14, x12".toList = some 0x48EC000000000000#64 ∧
    assembleWord "PMOSET x12, x13".toList = some 0x49CD000000000000#64 ∧
    assembleWord "PEDGET x15, MAX".toList = some 0x4AF0000000000003#64 ∧
    assembleWord "PEDSET x1, MAX".toList = some 0x4B10000000000003#64 := by decide +kernel

theorem test_assemble_other_spellings :
    assembleLine "LDI x15, 0xFFFFFFFF ; all ones".toList = .command (.ldi 15 0xFFFFFFFF) ∧
    assembleLine "  PEDGET x1, 2".toList = .command (.pedget 1 2) ∧
    assembleLine "; nothing".toList = .blank ∧ assembleLine "LDB x1, 1024".toList = .unreadable ∧
    assembleLine "LDB x16, 0".toList = .unreadable ∧ assembleLine "RDVL x1, 0, 5".toList = .unreadable ∧
    assembleLine "LDI x1, -2147483649".toList = .unreadable := by decide +kernel

/-! ### Illegal words (95_test_vectors.md section 8) -/

theorem test_illegal_reserved_opcodes :
    decode 0x0700000000000000#64 = .error .reservedOpcode ∧
    decode 0xFF00000000000000#64 = .error .reservedOpcode := by decide +kernel

theorem test_illegal_fixed_bits :
    decode 0x0000000000000001#64 = .error .fixedBits ∧
    decode 0x0601000000000000#64 = .error .fixedBits ∧
    decode 0x0100100000000005#64 = .error .fixedBits ∧
    decode 0x0510000000000002#64 = .error .fixedBits ∧
    decode 0x0510000000000000#64 = .error .fixedBits ∧
    decode 0x1050000100000028#64 = .error .fixedBits ∧
    decode 0x1050000000000428#64 = .error .fixedBits ∧
    decode 0x2010000004000008#64 = .error .fixedBits ∧
    decode 0x4A10000000000004#64 = .error .fixedBits := by decide +kernel

theorem test_illegal_constraints :
    decode 0x0410000000000007#64 = .error .constraint ∧
    decode 0x3310000000000500#64 = .error .constraint ∧
    decode 0x4211000000000000#64 = .error .constraint ∧
    decode 0x4412200000000000#64 = .error .constraint := by decide +kernel

theorem test_illegal_step :
    afterWord 0x0700000000000000 (raw 64 0 [0xF0] []) (fun t => (t.status, t.len, t.mem)) =
      some (0x2006, 64, [(0, 0xF0)]) := by decide +kernel

/-! ### Housekeeping (95_test_vectors.md section 7) -/

theorem test_nop_keeps_sticky :
    after .nop (State.reset.setStatus 0x2005) (·.status) = some 0x2000 := by decide +kernel
theorem test_ldi : after (.ldi 1 0xFFFFFFFF) State.reset (fun t => sval (t.reg 1)) = some (-1) := by decide +kernel
theorem test_ldb_last : after (.ldb 8 45) (raw 46 44 [0x74, 0x03] []) (·.reg 8) = some 3 := by decide +kernel
theorem test_ldb_bounds :
    after (.ldb 1 0) State.reset (fun t => (t.reg 1, t.status)) = some (0, 0x2005) := by decide +kernel
theorem test_stb :
    after (.stb 1 519) (raw 520 0 [] [(1, 255)]) (fun t => (bytesAt t 519 1, t.status)) = some ([255], 0) := by
  decide +kernel
theorem test_stb_operand_before_bounds :
    after (.stb 1 520) (raw 520 0 [] [(1, 256)]) (fun t => (t.status, t.mem)) = some (0x2017, []) := by decide +kernel
theorem test_rdcr_status :
    after (.rdcr 2 0) (State.reset.setStatus 0x2005) (fun t => (t.reg 2, t.status)) = some (0x2005, 0x2000) := by
  decide +kernel
theorem test_rdcr_nfld : after (.rdcr 1 6) State.reset (·.reg 1) = some 5 := by decide +kernel
theorem test_wrcr :
    after (.wrcr 1) (withRegs latched [(1, 528)]) (fun t => (t.len, t.kind, t.status)) = some (528, .none, 0) := by
  decide +kernel
theorem test_wrcr_too_long :
    after (.wrcr 1) (withRegs latched [(1, 529)]) (fun t => (t.len, t.kind, t.status)) =
      some (520, .preset, 0x2017) := by decide +kernel
theorem test_srst : after .srst (withRegs rejected [(3, 7)]) id = some State.reset := by decide +kernel

/-! ### VarEncoding (95_test_vectors.md section 3) -/

theorem test_dec28_values :
    dec28 ⟨0x01, 0x02, 0x03, 0x04⟩ = 8438017 ∧ dec28 ⟨0x81, 0x82, 0x83, 0x84⟩ = 8438017 ∧
    dec28 ⟨0x7F, 0x7F, 0x7F, 0x7F⟩ = 268435455 ∧ dec28 ⟨0x1C, 0x7F, 0x7F, 0x07⟩ = 16777116 := by decide
theorem test_enc28_values :
    enc28 3000 = ⟨0x38, 0x17, 0x00, 0x00⟩ ∧ enc28 16000001 = ⟨0x01, 0x48, 0x50, 0x07⟩ ∧
    enc28 268435455 = ⟨0x7F, 0x7F, 0x7F, 0x7F⟩ := by decide
theorem test_decSO_values :
    decSO 0 (-100) 0 = -100 ∧ decSO 0 (-50) 50 = 0 ∧ decSO 0 5 (-5) = 0 ∧ decSO 16000000 0 0 = 16000000 ∧
    decSO 16000001 0 0 = -777215 ∧ decSO 268435455 0 0 = 251658239 := by decide
theorem test_encSO_values :
    encSO (-100) = ⟨0x1C, 0x7F, 0x7F, 0x07⟩ ∧ encSO 0 = ⟨0x00, 0x00, 0x00, 0x08⟩ ∧
    encSO (-16777216) = ⟨0x00, 0x00, 0x00, 0x00⟩ := by decide

/-- The buffer of section 3.5. -/
def field40 (ps : List (Reg × Int)) : State := raw 64 40 [0x1C, 0x7F, 0x7F, 0x07] ps

theorem test_dec28_step : after (.dec28 5 40) (field40 []) (·.reg 5) = some 16777116 := by decide +kernel
theorem test_dec28_last_address :
    after (.dec28 5 60) (field40 []) (·.status) = some 0 ∧ after (.dec28 5 61) (field40 []) (·.status) = some 0x2005 := by
  decide +kernel
theorem test_decso_step :
    after (.decso 2 2 3 40) (field40 [(2, -100), (3, 0)]) (fun t => sval (t.reg 2)) = some (-100) := by decide +kernel
theorem test_enc28_step :
    after (.enc28 6 44) (field40 [(6, 500)]) (fun t => bytesAt t 40 8) =
      some [0x1C, 0x7F, 0x7F, 0x07, 0x74, 0x03, 0x00, 0x00] := by decide +kernel
theorem test_enc28_refuses :
    after (.enc28 9 48) (field40 [(9, -1)]) (fun t => (t.status, bytesAt t 48 4)) = some (0x2017, [0, 0, 0, 0]) := by
  decide +kernel
theorem test_encso_step :
    after (.encso 1 40) (raw 64 0 [] [(1, -50)]) (fun t => bytesAt t 40 4) = some [0x4E, 0x7F, 0x7F, 0x07] := by
  decide +kernel
theorem test_encso_refuses :
    after (.encso 1 40) (raw 64 0 [] [(1, -16777217)]) (·.status) = some 0x2017 ∧
    after (.encso 1 40) (raw 64 0 [] [(1, 251658240)]) (·.status) = some 0x2017 := by decide +kernel

/-! ### ChecksumEngine (95_test_vectors.md section 4) -/

theorem test_csum_values :
    csum [] = 0 ∧ csum [0x7F, 0x01] = 0 ∧ csum [0xFF] = 127 ∧ csum [0xF0, 0x00, 0x20, 0x1F] = 47 := by decide

/-- The buffer of section 4: zero but for byte 8. -/
def sum31 : State := raw 520 8 [0x1F] []

theorem test_csum_step :
    after (.csum 2 8 516) sum31 (·.reg 2) = some 31 ∧ after (.csum 2 9 516) sum31 (·.reg 2) = some 0 := by
  decide +kernel
theorem test_csum_bounds_and_empty :
    after (.csum 2 8 520) sum31 (·.status) = some 0x2005 ∧
    after (.csum 2 9 8) (raw 0 0 [] []) (fun t => (t.reg 2, t.status)) = some (0, 0) := by decide +kernel
theorem test_csvp_step :
    after (.csvp 3) sum31 (·.reg 3) = some 0 ∧
    after (.csvp 3) (sum31.setMem (put sum31.mem 518 [0x1F])) (·.reg 3) = some 1 := by decide +kernel
theorem test_csvp_full_byte :
    after (.csvp 3) (sum31.setMem (put sum31.mem 518 [0x9F])) (·.reg 3) = some 0 := by decide +kernel
theorem test_csfp_step : after .csfp sum31 (fun t => bytesAt t 518 1) = some [0x1F] := by decide +kernel
theorem test_csfp_length :
    after .csfp (sum31.setLen 518) (·.status) = some 0x2005 ∧ after .csfp (sum31.setLen 519) (·.status) = some 0 := by
  decide +kernel
theorem test_csvs_step :
    after (.csvs 0) (system []) (·.reg 0) = some 1 ∧
    after (.csvs 0) ((system []).setMem (put dumpMemory 300 [1])) (·.reg 0) = some 0 := by decide +kernel
theorem test_csfs_step :
    after .csfs ((system []).setMem (put dumpMemory 300 [1])) (fun t => (bytesAt t 524 1, t.kind)) =
      some ([1], .none) := by decide +kernel

/-! ### PresetCodec (95_test_vectors.md section 5) -/

theorem test_pdec_ok_and_structural :
    after .pdec (preset 521 31 [120]) (fun t => (t.len, t.kind, t.num, t.namelen, t.fv.map sval)) =
      some (520, .preset, 31, 0, [120, -100, 0, 0, 0]) ∧
    after .pdec ((preset 520 31 [120]).setMem (put (presetMemory 31 [120]) 0 [0xF1])) (·.status) = some 0x2021 ∧
    after .pdec (preset 519 31 [120]) (·.status) = some 0x2011 := by decide +kernel
theorem test_pdec_field_range_and_mux :
    after .pdec (preset 520 200 [99, 16777217, 51, 6, 501])
      (fun t => (t.status, t.nviol, t.num, t.vl.map fun r => [sval r.fid, sval r.val, sval r.kind, sval r.lo, sval r.hi])) =
      some (0x2002, 5, 200, [[0, 99, 0, 100, 3000], [1, 1, 0, -100, 0], [2, 51, 0, -50, 50], [3, 6, 0, 0, 5],
        [4, 501, 0, 0, 500]]) ∧
    after .pdec (preset 520 31 [120, 16777210, 16777226, 2, 2]) (fun t => (t.status, t.vl.head?)) =
      some (0x2002, some ⟨4, 2, 1, 0, 0⟩) := by decide +kernel
theorem test_name_lengths :
    nameLength (put [] 10 [0x48, 0x69, 0x00, 0x00, 0x20, 0x00, 0x20]) 24 = 2 ∧
    nameLength (put [] 10 [0x61, 0x00, 0x62, 0x20]) 24 = 3 ∧ nameLength (put [] 10 (List.replicate 24 0x41)) 24 = 24 := by
  decide +kernel
theorem test_penc_step :
    after (.penc 1) latched (·.reg 1) = some 520 ∧ after (.penc 1) rejected (·.status) = some 0x2018 := by
  decide +kernel
theorem test_pfld_step :
    after (.pfld 1 1) latched (fun t => sval (t.reg 1)) = some (-100) ∧
    after (.pfld 1 5) latched (·.status) = some 0x2003 := by decide +kernel
theorem test_pfld_state_first : after (.pfld 1 200) State.reset (·.status) = some 0x2018 := by decide +kernel
theorem test_rdvl_step :
    after (.rdvl 1 0 4) rejected (·.reg 1) = some 3000 ∧ after (.rdvl 1 1 0) rejected (·.status) = some 0x2003 := by
  decide +kernel

/-! ### SystemDumpCodec (95_test_vectors.md section 6) -/

theorem test_sdec_ok : after .sdec (dump []) (fun t => (t.kind, t.len, t.status)) = some (.system, 527, 0) := by
  decide +kernel
theorem test_sdec_frame_end :
    after .sdec ((dump []).setMem (put dumpMemory 526 [0x00])) (·.status) = some 0x2031 ∧
    after .sdec ((dump []).setLen 528) (·.status) = some 0x2011 := by decide +kernel
theorem test_senc_step : after (.senc 5) (system []) (·.reg 5) = some 527 := by decide +kernel
theorem test_ccget_step :
    after (.ccget 2 3 1) ((system [(1, 3)]).setMem (put dumpMemory 40 [0xFF, 0xFF])) 
      (fun t => (t.reg 2, t.reg 3, t.status)) = some (255, 255, 0) := by decide +kernel
theorem test_ccget_assigned :
    after (.ccget 2 3 1) ((system [(1, 3)]).setMem (put dumpMemory 40 [0x07, 0x2A]))
      (fun t => (t.reg 2, t.reg 3, t.status)) = some (7, 42, 0x1000) := by decide +kernel
theorem test_ccset_step :
    after (.ccset 1 5 6) (system [(1, 63), (5, 255), (6, 9)]) (fun t => (bytesAt t 160 2, t.kind)) =
      some ([0xFF, 0x09], .system) := by decide +kernel
theorem test_ccset_refuses :
    after (.ccset 1 5 6) (system [(1, 3), (5, 128), (6, -1)]) (·.status) = some 0x2062 ∧
    after (.ccset 1 5 6) (system [(1, 64), (5, 128), (6, 9)]) (·.status) = some 0x2003 := by decide +kernel
theorem test_pack3_values :
    pack3 ⟨31, 90, 45⟩ = ⟨0x2D, 0x34, 0x7D, 0x00⟩ ∧ pack3 ⟨127, 0, 31⟩ = ⟨0x1F, 0x00, 0x7C, 0x03⟩ ∧
    pack3 ⟨64, 64, 64⟩ = ⟨0x40, 0x00, 0x01, 0x02⟩ := by decide
theorem test_unpack3_values :
    unpack3 ⟨0x2D, 0x34, 0x7D, 0x00⟩ = ⟨31, 90, 45⟩ ∧ unpack3 ⟨0xFF, 0xFF, 0xFF, 0xFF⟩ = ⟨127, 127, 127⟩ ∧
    unpack3 ⟨0x80, 0x01, 0x02, 0x04⟩ = ⟨0, 0, 0⟩ := by decide
theorem test_pk3_step :
    after (.pk3 3 3 3 12) (raw 16 0 [] [(3, 5)]) (fun t => (bytesAt t 12 4, t.kind)) =
      some ([0x05, 0x0A, 0x14, 0x00], .none) := by decide +kernel
theorem test_pk3_refuses :
    after (.pk3 1 2 3 0) (raw 16 0 [] [(1, 128), (2, -1), (3, 5)]) (·.status) = some 0x2037 ∧
    after (.pk3 3 3 1 0) (raw 16 0 [] [(1, 128), (3, 5)]) (·.status) = some 0x2047 := by decide +kernel
theorem test_unpk3_step :
    after (.unpk3 4 5 6 12) (raw 16 12 [0x2D, 0x34, 0x7D, 0x00] []) (fun t => (t.reg 4, t.reg 5, t.reg 6)) =
      some (31, 90, 45) := by decide +kernel
theorem test_pmiget_unmapped :
    after (.pmiget 9 7) (system [(7, 5)]) (fun t => (t.reg 9, t.status)) = some (0, 0) := by decide +kernel
theorem test_pmiget_mapped :
    after (.pmiget 9 7) ((system [(7, 5)]).setMem (put dumpMemory 166 [0x00, 0x5A, 0x00, 0x00]))
      (fun t => (t.reg 9, t.status)) = some (45, 0x1000) := by decide +kernel
theorem test_pmiset_step :
    after (.pmiset 7 8) (system [(7, 5), (8, 45)]) (fun t => bytesAt t 166 4) = some [0x00, 0x5A, 0x00, 0x00] := by
  decide +kernel
theorem test_pmiset_high_first :
    after (.pmiset 7 8) { (system [(7, 4), (8, 31)]) with
      cfg := { Cfg.tc1 with laneOrder := .highFirst }, mem := put dumpMemory 166 [0x5A, 0x5A, 0x00, 0x00] }
      (fun t => bytesAt t 166 4) = some [0x5A, 0x5A, 0x7C, 0x00] := by decide +kernel
theorem test_pmoget_step :
    after (.pmoget 14 12) ((system [(12, 90)]).setMem (put dumpMemory 410 [0x00, 0x00, 0x7C, 0x03])) (·.reg 14) =
      some 127 := by decide +kernel
theorem test_pmoset_step :
    after (.pmoset 12 13) (system [(12, 90), (13, 127)]) (fun t => bytesAt t 410 4) =
      some [0x00, 0x00, 0x7C, 0x03] := by decide +kernel
theorem test_pmoset_refuses :
    after (.pmoset 12 13) (system [(12, 91), (13, 127)]) (·.status) = some 0x2003 ∧
    after (.pmoset 12 13) (system [(12, 90), (13, 128)]) (·.status) = some 0x2022 := by decide +kernel
theorem test_pedget_clamps :
    after (.pedget 1 2) ((system []).setMem (put dumpMemory 422 [0x16, 0x01, 0x00, 0x00])) (·.reg 1) = some 100 := by
  decide +kernel
theorem test_pedset_clamps :
    after (.pedset 15 3) (system [(15, 150)]) (fun t => bytesAt t 426 4) = some [0x64, 0x00, 0x00, 0x00] ∧
    after (.pedset 8 1) (system [(8, -1)]) (fun t => bytesAt t 418 4) = some [0x00, 0x00, 0x00, 0x00] := by
  decide +kernel
theorem test_pedset_param :
    after (.pedset 8 0) (system [(8, -1)]) (·.status) = some 0x2017 ∧
    after (.pedset 8 0) (system [(8, 268435455)]) (fun t => bytesAt t 414 4) = some [0x7F, 0x7F, 0x7F, 0x7F] := by
  decide +kernel

/-! ### Steps -/

theorem test_fetch_runs_first : afterWord 0x01100000FFFFFF9C State.reset (·.reg 1) = some 0xFFFFFF9C := by
  decide +kernel
theorem test_table_word : decodeTableWord 64 0x0250000000000206 = some (.ldb 5 518) ∧ decodeTableWord 64 1 = none := by
  decide +kernel


/-! ### The device's own table (42_preset.md R70): a table of 80 entries that agrees, and two that do not -/

/-- An entry the delay type of `deviceTable` governs: unused by the type `dynamic`. -/
def delayEntry (off : Nat) : FieldEntry :=
  ⟨"", off, ⟨.plain, .range 0 9⟩,
    .by 3 [⟨[0], ⟨.plain, .range 0 1⟩⟩, ⟨[1], ⟨.plain, .range 0 2⟩⟩, ⟨[2], ⟨.plain, .range 0 3⟩⟩, ⟨[3], ⟨.plain, .equal 0⟩⟩]⟩

/-- An entry the pitch type of `deviceTable` governs: one range on the codes of `sel`, one on the others. -/
def pitchEntry (off : Nat) (sel : List Int) : FieldEntry :=
  ⟨"", off, ⟨.signed, .range (-100) 100⟩, .by 9 [⟨sel, ⟨.plain, .range 0 13⟩⟩]⟩

/-- A table of the form of 42_preset.md R70; addresses, codes and most ranges are this test's own. -/
def deviceTable : List FieldEntry :=
  [ ⟨"tapTempo", 34, ⟨.plain, .range 100 3000⟩, .none⟩, ⟨"modType", 38, ⟨.plain, .range 0 5⟩, .none⟩,
    ⟨"modDelayOrRange", 42, ⟨.plain, .range 0 500⟩,
      .by 1 [⟨[0, 1], ⟨.plain, .range 0 500⟩⟩, ⟨[3, 4], ⟨.plain, .range 0 1⟩⟩, ⟨[2, 5], ⟨.plain, .equal 0⟩⟩]⟩,
    ⟨"delayType", 46, ⟨.plain, .range 0 3⟩, .none⟩ ]
  ++ [delayEntry 50, delayEntry 54, delayEntry 58, delayEntry 62, delayEntry 66]
  ++ [⟨"pitchType", 70, ⟨.plain, .range 0 3⟩, .none⟩]
  ++ [pitchEntry 74 [0], pitchEntry 78 [0], pitchEntry 82 [1, 2], pitchEntry 86 [0], pitchEntry 90 [1, 2], pitchEntry 94 [0]]
  ++ List.replicate 64 ⟨"level", 98, ⟨.signed, .range (-100) 0⟩, .none⟩

/-- The claim that goes with it. -/
def deviceClaim : DeviceClaim where
  blocks          := [.tempo, .modulation, .modulation, .delay, .delay, .delay, .delay, .delay, .delay]
    ++ [.pitch, .pitch, .pitch, .pitch, .pitch, .pitch, .pitch]
    ++ [.routing, .outputLevels, .pedalMapping, .compressor, .drive, .boost, .reverb, .gate] ++ List.replicate 56 .eq
  tapTempo        := 0
  modType         := 1
  modCodes        := ⟨0, 1, 3, 4, 2, 5⟩
  modDelayOrRange := 2
  delayType       := 3
  delayCodes      := ⟨0, 1, 2, 3⟩
  delayFields     := ⟨4, 5, 6, 7, 8⟩
  pitchType       := 9
  pitchCodes      := ⟨0, 1, 2, [3]⟩
  pitchFields     := ⟨[10, 11], [12], [13], [14], [15]⟩
  signedFields    := [16, 17]

theorem test_device_rows : DeviceRows 0 deviceTable deviceClaim :=
  ⟨by decide +kernel, by decide +kernel, by decide +kernel, by decide +kernel, by decide +kernel, by decide +kernel,
    by decide +kernel⟩
theorem test_device_table_wf : wfTable deviceTable = true := by decide +kernel
theorem test_device_rows_refused :
    pitchAgrees deviceTable { deviceClaim with pitchType := 3 } = false ∧
    modTypeAgrees deviceTable { deviceClaim with modCodes := ⟨0, 1, 3, 4, 2, 6⟩ } = false ∧
    blocksAgree 0 (deviceTable.take 79) deviceClaim = false := by decide +kernel

/-! ### Witnesses: for every obligation with hypotheses a case that meets them together -/

/-- Setting registers keeps the invariant. -/
theorem inv_setReg {s : State} (i : Reg) (v : Word) (h : Inv s) : Inv (s.setReg i v) where
  cfg := h.cfg
  buffer := ⟨h.buffer.mem, h.buffer.len⟩
  status := h.status
  namelen := h.namelen
  nviol := h.nviol
  fv := h.fv
  vl := h.vl
  preset := fun hk => ⟨(h.preset hk).len, (h.preset hk).structural, (h.preset hk).valid, (h.preset hk).fv,
    (h.preset hk).num, (h.preset hk).namelen⟩
  system := fun hk => ⟨(h.system hk).len, (h.system hk).structural⟩

theorem inv_withRegs {s : State} (h : Inv s) (ps : List (Reg × Int)) : Inv (withRegs s ps) := by
  induction ps generalizing s with
  | nil => exact h
  | cons p ps ih => exact ih (inv_setReg p.1 (patternOf p.2) h)

/-- So does changing what the host still has to do. -/
theorem inv_setHost {s : State} (r : List HostAction) (h : Inv s) : Inv (s.setHost r) where
  cfg := h.cfg
  buffer := ⟨h.buffer.mem, h.buffer.len⟩
  status := h.status
  namelen := h.namelen
  nviol := h.nviol
  fv := h.fv
  vl := h.vl
  preset := fun hk => ⟨(h.preset hk).len, (h.preset hk).structural, (h.preset hk).valid, (h.preset hk).fv,
    (h.preset hk).num, (h.preset hk).namelen⟩
  system := fun hk => ⟨(h.system hk).len, (h.system hk).structural⟩

theorem inv_systemBase : Inv systemBase where
  cfg := test_cfg_tc1
  buffer := ⟨by decide +kernel, by decide +kernel⟩
  status := .inl (by decide +kernel)
  namelen := by decide +kernel
  nviol := by decide +kernel
  fv := by decide +kernel
  vl := by decide +kernel
  preset := fun h => by cases h
  system := fun _ => ⟨.inr (by decide +kernel), by decide +kernel⟩

/-- The invariant holds of a loaded and latched system dump, whatever the registers. -/
theorem inv_system (ps : List (Reg × Int)) : Inv (system ps) := inv_withRegs inv_systemBase ps

theorem inv_latched : Inv latched where
  cfg := test_cfg_tc1
  buffer := ⟨by decide +kernel, by decide +kernel⟩
  status := .inl (by decide +kernel)
  namelen := by decide +kernel
  nviol := by decide +kernel
  fv := by decide +kernel
  vl := by decide +kernel
  preset := fun _ => ⟨by decide +kernel, by decide +kernel, by decide +kernel, by decide +kernel, by decide +kernel,
    by decide +kernel⟩
  system := fun h => by cases h

/-- A state whose next host action is the one given. -/
def issuing (a : HostAction) : State := State.reset.setHost [a, .read]

theorem witness_DecodeInvertsEncode :
    (Instr.unpk3 15 0 14 1023).wf = true ∧ (Instr.rdvl 15 255 4).wf = true := by decide
theorem witness_EncodeInvertsDecode : ∃ i, decode 0x44F0E000000003FF#64 = .ok i := ⟨_, rfl⟩
theorem witness_ReservedWordsRefused :
    (fieldOp 0x0700000000000000#64).toNat = 0x07 ∧ (fieldOp 0x0F00000000000000#64).toNat = 0x0F ∧
    (fieldOp 0x1400000000000000#64).toNat = 0x14 ∧ (fieldOp 0x1F00000000000000#64).toNat = 0x1F ∧
    (fieldOp 0x2500000000000000#64).toNat = 0x25 ∧ (fieldOp 0x2F00000000000000#64).toNat = 0x2F ∧
    (fieldOp 0x3400000000000000#64).toNat = 0x34 ∧ (fieldOp 0x3F00000000000000#64).toNat = 0x3F ∧
    (fieldOp 0x4C00000000000000#64).toNat = 0x4C ∧ (fieldOp 0xFF00000000000000#64).toNat = 0xFF ∧
    wordField 0x0000000100000000#64 32 12 ≠ 0 ∧ wordField 0x4B10080000000003#64 32 12 ≠ 0 := by decide +kernel
theorem witness_StepRunsDecodedCommand :
    wfCfg (issuing (.issue 0x4B10000000000003)).cfg = true ∧
    (issuing (.issue 0x4B10000000000003)).host = .issue 0x4B10000000000003 :: [.read] ∧
    decode 0x4B10000000000003 = .ok (.pedset 1 3) ∧
    decodeTableWord 64 0x4B10000000000003 = some (.pedset 1 3) := by decide +kernel
theorem witness_IllegalWordWritesOnlyStatus :
    wfCfg (issuing (.issue 0x4C00000000000000)).cfg = true ∧
    (issuing (.issue 0x4C00000000000000)).host = .issue 0x4C00000000000000 :: [.read] ∧
    decode 0x4C00000000000000 = .error .reservedOpcode := by decide +kernel
theorem witness_HostWritesDoWhatTheySay_writeBuf :
    wfCfg (issuing (.writeBuf 527 0xFF)).cfg = true ∧ BufferLegal (issuing (.writeBuf 527 0xFF)) ∧
    (issuing (.writeBuf 527 0xFF)).host = .writeBuf 527 0xFF :: [.read] :=
  ⟨test_cfg_tc1, ⟨rfl, by decide +kernel⟩, rfl⟩
theorem witness_HostWritesDoWhatTheySay_writeLen :
    wfCfg (issuing (.writeLen 528)).cfg = true ∧ (issuing (.writeLen 528)).host = .writeLen 528 :: [.read] :=
  ⟨test_cfg_tc1, rfl⟩
theorem witness_HostWritesDoWhatTheySay_writeReg :
    wfCfg (issuing (.writeReg 15 7)).cfg = true ∧ (issuing (.writeReg 15 7)).host = .writeReg 15 7 :: [.read] :=
  ⟨test_cfg_tc1, rfl⟩
theorem witness_ReadingAndIdlingChangeNothing :
    wfCfg (issuing .read).cfg = true ∧ (issuing .read).host = .read :: [.read] ∧ wfCfg State.reset.cfg = true ∧
    State.reset.host = [] := ⟨test_cfg_tc1, rfl, test_cfg_tc1, rfl⟩
theorem witness_OnlyIllFormedConfigurationsStop :
    wfCfg (State.resetWith badCfg []).cfg = false ∧ wfCfg State.reset.cfg = true := ⟨test_cfg_stride, test_cfg_tc1⟩
theorem witness_ResetMeetsInvariant : wfCfg Cfg.tc1 = true := test_cfg_tc1
theorem witness_StepKeepsInvariant :
    ∃ t, Inv ((system [(1, 5), (2, 45)]).setHost [.issue 0x4712000000000000]) ∧
      step ((system [(1, 5), (2, 45)]).setHost [.issue 0x4712000000000000]) = .next t ∧ t.kind = .system :=
  ⟨_, inv_setHost _ (inv_system _), (step_of_wfCfg test_cfg_tc1).trans rfl, by decide +kernel⟩
theorem witness_FailedCommandsLeaveStateAlone_others :
    ∃ t, exec (.ldb 1 0) State.reset = .next t ∧ statusEc t.status ≠ 0 := ⟨_, rfl, by decide +kernel⟩
theorem witness_FailedCommandsLeaveStateAlone_structural :
    ∃ t, exec .pdec State.reset = .next t ∧ statusEc t.status = errCode .structural := ⟨_, rfl, by decide +kernel⟩
theorem witness_FailedCommandsLeaveStateAlone_fieldRange :
    after .pdec (preset 520 31 [0]) (fun t => statusEc t.status) = some (errCode .fieldRange) := by decide +kernel
theorem witness_FailedCommandsLeaveStateAlone_sdec :
    ∃ t, exec .sdec State.reset = .next t ∧ statusEc t.status ≠ 0 := ⟨_, rfl, by decide +kernel⟩
theorem witness_ErrorClassTable :
    ∃ t, Inv (system []) ∧ (Instr.pmiset 1 2).wf = true ∧ exec (.pmiset 1 2) (system []) = .next t ∧
      statusEc t.status = errCode .index := ⟨_, inv_system [], rfl, rfl, by decide +kernel⟩
theorem witness_OnlyWritersChangeBuffer :
    ∃ t, exec (.ldi 1 7) (system []) = .next t ∧ writesBuffer (.ldi 1 7) = false := ⟨_, rfl, rfl⟩
theorem witness_OnlyDestinationsChange :
    ∃ t, exec (.ccget 1 2 3) (system []) = .next t ∧ statusEc t.status = 0 := ⟨_, rfl, by decide +kernel⟩
theorem witness_LengthAndLatchWriters_len :
    ∃ t, exec (.ldi 1 7) latched = .next t ∧ Instr.ldi 1 7 ≠ .pdec ∧ Instr.ldi 1 7 ≠ .srst ∧
      (∀ ra, Instr.ldi 1 7 ≠ .wrcr ra) := ⟨_, rfl, by decide, by decide, by decide⟩
theorem witness_LengthAndLatchWriters_preset :
    after .pdec (preset 520 31 [120]) Machine.State.kind = some .preset ∧ (preset 520 31 [120]).kind ≠ .preset := by
  decide +kernel
theorem witness_LengthAndLatchWriters_system :
    after .sdec (dump []) Machine.State.kind = some .system ∧ (dump []).kind ≠ .system := by decide +kernel
theorem witness_OnlyDecodeWritesResults :
    ∃ t, exec .sdec (dump []) = .next t ∧ Instr.sdec ≠ .pdec ∧ Instr.sdec ≠ .srst := ⟨_, rfl, by decide, by decide⟩
theorem witness_AssignedFlagWriters :
    ∃ t, exec (.ccget 2 3 1) (system []) = .next t ∧ statusA t.status = true := ⟨_, rfl, by decide +kernel⟩
theorem witness_StickyErrorRule_set :
    ∃ t, exec (.ldb 1 0) State.reset = .next t ∧ statusEc t.status ≠ 0 := ⟨_, rfl, by decide +kernel⟩
theorem witness_StickyErrorRule_kept :
    ∃ t, exec .nop (State.reset.setStatus 0x2005) = .next t ∧ Instr.nop ≠ .srst ∧
      statusStk (State.reset.setStatus 0x2005).status = true ∧ statusEc t.status = 0 :=
  ⟨_, rfl, by decide, by decide +kernel, by decide +kernel⟩
theorem witness_StickyErrorRule_resets :
    ∃ t u, exec .srst (State.reset.setStatus 0x2005) = .next t ∧
      performAction .reset (State.reset.setStatus 0x2005) = .next u := ⟨_, _, rfl, rfl⟩
theorem witness_RawWritesClearLatch_ok :
    ∃ t, isRawWrite (.stb 1 8) = true ∧ exec (.stb 1 8) latched = .next t ∧ statusEc t.status = 0 :=
  ⟨_, rfl, rfl, by decide +kernel⟩
theorem witness_RawWritesClearLatch_failed :
    ∃ t, isRawWrite (.stb 1 520) = true ∧ exec (.stb 1 520) latched = .next t ∧ statusEc t.status ≠ 0 :=
  ⟨_, rfl, rfl, by decide +kernel⟩
theorem witness_RawWritesClearLatch_host :
    ∃ t u, performAction (.writeBuf 527 1) latched = .next t ∧ performAction (.writeLen 528) latched = .next u :=
  ⟨_, _, rfl, rfl⟩
theorem witness_RawWritesClearLatch_update :
    ∃ t, isSystemUpdate (.ccset 1 2 3) = true ∧ exec (.ccset 1 2 3) (system []) = .next t ∧ statusEc t.status = 0 :=
  ⟨_, rfl, rfl, by decide +kernel⟩
theorem witness_StatusSteersNoCommand : (∀ ra, Instr.csvp 3 ≠ .rdcr ra 0) ∧ (∀ ra, Instr.rdcr 1 1 ≠ .rdcr ra 0) := by
  decide
theorem witness_ConfigurationNeverChanges :
    ∃ t u, exec .nop State.reset = .next t ∧ step (State.reset.setHost [.read]) = .next u :=
  ⟨_, _, rfl, (step_of_wfCfg test_cfg_tc1).trans rfl⟩
theorem witness_Dec28SevenBitGroups : dec28 ⟨0x7F, 0x7F, 0x7F, 0x7F⟩ = 268435455 := by decide
theorem witness_SignedOffsetCases :
    (-50 : Int) + 50 = 0 ∧ (-100 : Int) + 0 ≠ 0 ∧ 16000000 < 16000001 ∧ 16000000 ≤ 16000000 := by decide
theorem witness_VarintLaws :
    dec28 ⟨0x7F, 0x7F, 0x7F, 0x7F⟩ ≤ 268435455 ∧ (-16777216 : Int) ≤ -16777216 ∧ (251658239 : Int) ≤ 251658239 ∧
    (-16777215 : Int) ≤ -777216 ∧ 1 ≤ 1 ∧ 16000000 + 16777216 ≤ 268435455 ∧ 16000000 < 16000001 ∧
    wfVariant ⟨.signed, .range (-777215) 251658239⟩ = true := by decide
theorem witness_ChecksumLaws : ([0x1F, 0x7F] : List Byte).Perm [0x7F, 0x1F] := List.Perm.swap _ _ _
theorem witness_GroupLaws : (unpack3 ⟨0xFF, 0xFF, 0xFF, 0xFF⟩) = ⟨127, 127, 127⟩ ∧ 127 ≤ 127 := by decide
theorem witness_RegisterLoadsComplete : State.reset.cfg.nf ≤ 255 := by decide
theorem witness_BufferReadsComplete :
    (527 : BitVec 10).toNat + 1 ≤ (raw 528 0 [] []).len.toNat ∧
    (524 : BitVec 10).toNat + 4 ≤ (raw 528 0 [] []).len.toNat := by decide +kernel
theorem witness_ChecksumReadsComplete :
    (8 : BitVec 10).toNat < (9 : BitVec 10).toNat ∧ (527 : BitVec 10).toNat ≤ (527 : BitVec 10).toNat ∧
    (527 : BitVec 10).toNat < (raw 528 0 [] []).len.toNat ∧ 519 ≤ (raw 519 0 [] []).len.toNat ∧
    max (raw 525 0 [] []).cfg.sysCsumHi (raw 525 0 [] []).cfg.sysCsumPos < (raw 525 0 [] []).len.toNat := by
  decide +kernel
theorem witness_UnpackCompletes :
    (0 : Reg) ≠ 1 ∧ (0 : Reg) ≠ 15 ∧ (1 : Reg) ≠ 15 ∧ (12 : BitVec 10).toNat + 4 ≤ (raw 16 0 [] []).len.toNat := by
  decide +kernel
theorem witness_RawStoresComplete_stb :
    BufferLegal (raw 1 0 [] [(1, 255)]) ∧ 0 ≤ ((raw 1 0 [] [(1, 255)]).reg 1).toInt ∧
    ((raw 1 0 [] [(1, 255)]).reg 1).toInt ≤ 255 ∧ (0 : BitVec 10).toNat + 1 ≤ (raw 1 0 [] [(1, 255)]).len.toNat :=
  ⟨⟨rfl, by decide +kernel⟩, by decide +kernel, by decide +kernel, by decide +kernel⟩
theorem witness_RawStoresComplete_enc28 :
    BufferLegal (raw 4 0 [] [(1, 268435455)]) ∧ 0 ≤ ((raw 4 0 [] [(1, 268435455)]).reg 1).toInt ∧
    ((raw 4 0 [] [(1, 268435455)]).reg 1).toInt ≤ 268435455 ∧
    (0 : BitVec 10).toNat + 4 ≤ (raw 4 0 [] [(1, 268435455)]).len.toNat :=
  ⟨⟨rfl, by decide +kernel⟩, by decide +kernel, by decide +kernel, by decide +kernel⟩
theorem witness_RawStoresComplete_encso :
    BufferLegal (raw 4 0 [] [(1, -16777216)]) ∧ -16777216 ≤ ((raw 4 0 [] [(1, -16777216)]).reg 1).toInt ∧
    ((raw 4 0 [] [(1, -16777216)]).reg 1).toInt ≤ 251658239 ∧
    (0 : BitVec 10).toNat + 4 ≤ (raw 4 0 [] [(1, -16777216)]).len.toNat :=
  ⟨⟨rfl, by decide +kernel⟩, by decide +kernel, by decide +kernel, by decide +kernel⟩
theorem witness_RawStoresComplete_pk3 :
    BufferLegal (raw 528 0 [] [(1, 127)]) ∧ ((raw 528 0 [] [(1, 127)]).reg 1).toNat ≤ 127 ∧
    ((raw 528 0 [] [(1, 127)]).reg 2).toNat ≤ 127 ∧
    (524 : BitVec 10).toNat + 4 ≤ (raw 528 0 [] [(1, 127)]).len.toNat :=
  ⟨⟨rfl, by decide +kernel⟩, by decide +kernel, by decide +kernel, by decide +kernel⟩
theorem witness_ChecksumStoresComplete :
    BufferLegal (raw 525 0 [] []) ∧ 519 ≤ (raw 525 0 [] []).len.toNat ∧
    max (raw 525 0 [] []).cfg.sysCsumHi (raw 525 0 [] []).cfg.sysCsumPos < (raw 525 0 [] []).len.toNat :=
  ⟨⟨rfl, by decide +kernel⟩, by decide +kernel, by decide +kernel⟩
theorem witness_WriteLengthCompletes :
    0 ≤ ((raw 0 0 [] [(1, 528)]).reg 1).toInt ∧ ((raw 0 0 [] [(1, 528)]).reg 1).toInt ≤ 528 := by decide +kernel

/-- An entry governed by entry 0 with two cases that both hold the value 1. -/
def governed : FieldEntry :=
  ⟨"b", 38, ⟨.plain, .range 0 9⟩, .by 0 [⟨[2], ⟨.plain, .equal 0⟩⟩, ⟨[1], ⟨.signed, .equal 0⟩⟩, ⟨[1], ⟨.plain, .equal 3⟩⟩]⟩

theorem witness_MuxTakesFirstMatch :
    (tc1Table.head?.map FieldEntry.disc) = some .none ∧
    governed.disc = .by 0 ([⟨[2], ⟨.plain, .equal 0⟩⟩] ++ ⟨[1], ⟨.signed, .equal 0⟩⟩ :: [⟨[1], ⟨.plain, .equal 3⟩⟩]) ∧
    ([1] : List Int)[0]? = some 1 ∧ (1 : Int) ∉ [2] ∧ (1 : Int) ∈ [1] ∧ (7 : Int) ∉ [2] ∧ (7 : Int) ∉ [1] := by decide
theorem witness_FieldsDecodedInOrder : tc1Table[4]?.isSome = true ∧ tc1Table.length ≤ 255 := by decide

/-- The seven conditions of a preset message, each on its bytes. -/
theorem presetCondition_all {s : State} (h1 : s.len.toNat = 520 ∨ s.len.toNat = 521)
    (h : bytesAt s 0 8 = [0xF0, 0x00, 0x20, 0x1F, 0x00, 0x63, 0x20, 0x01]) (h3 : readCell s.mem 519 = 0xF7) :
    ∀ sc, 1 ≤ sc → sc ≤ 7 → presetCondition s sc := by
  simp only [bytesAt, readBytes, List.map_cons, List.map_nil, List.cons.injEq] at h
  have e : ∀ (a : Nat) (b : Byte), (readCell s.mem a).toNat = b.toNat → readCell s.mem a = b := fun _ _ =>
    BitVec.eq_of_toNat_eq
  intro sc a b
  have hs : sc = 1 ∨ sc = 2 ∨ sc = 3 ∨ sc = 4 ∨ sc = 5 ∨ sc = 6 ∨ sc = 7 := by omega
  rcases hs with rfl | rfl | rfl | rfl | rfl | rfl | rfl
  · exact h1
  · exact e 0 0xF0 h.1
  · exact h3
  · exact ⟨e 1 0x00 h.2.1, e 2 0x20 h.2.2.1, e 3 0x1F h.2.2.2.1⟩
  · exact e 5 0x63 h.2.2.2.2.2.1
  · exact e 6 0x20 h.2.2.2.2.2.2.1
  · exact e 7 0x01 h.2.2.2.2.2.2.2.1

/-- The seven conditions of a system dump, each on its bytes. -/
theorem systemCondition_all {s : State} (h1 : s.len.toNat = 527 ∨ s.len.toNat = 526)
    (h : bytesAt s 0 8 = [0xF0, 0x00, 0x20, 0x1F, 0x00, 0x63, 0x20, 0x02])
    (h3 : readCell s.mem (s.len.toNat - 1) = 0xF7) : ∀ sc, 1 ≤ sc → sc ≤ 7 → systemCondition s sc := by
  simp only [bytesAt, readBytes, List.map_cons, List.map_nil, List.cons.injEq] at h
  have e : ∀ (a : Nat) (b : Byte), (readCell s.mem a).toNat = b.toNat → readCell s.mem a = b := fun _ _ =>
    BitVec.eq_of_toNat_eq
  intro sc a b
  have hs : sc = 1 ∨ sc = 2 ∨ sc = 3 ∨ sc = 4 ∨ sc = 5 ∨ sc = 6 ∨ sc = 7 := by omega
  rcases hs with rfl | rfl | rfl | rfl | rfl | rfl | rfl
  · exact h1
  · exact e 0 0xF0 h.1
  · exact h3
  · exact ⟨e 1 0x00 h.2.1, e 2 0x20 h.2.2.1, e 3 0x1F h.2.2.2.1⟩
  · exact e 5 0x63 h.2.2.2.2.2.1
  · exact e 6 0x20 h.2.2.2.2.2.2.1
  · exact e 7 0x02 h.2.2.2.2.2.2.2.1

theorem witness_PresetDecodeSucceeds :
    (∀ sc, 1 ≤ sc → sc ≤ 7 → presetCondition (preset 521 31 [120]) sc) ∧
    (decodeFields (preset 521 31 [120]).mem (preset 521 31 [120]).cfg.fieldTable).violations = [] :=
  ⟨presetCondition_all (.inr (by decide +kernel)) (by decide +kernel) (by decide +kernel), by decide +kernel⟩
theorem witness_PresetDecodeRejectsFields :
    wfCfg (preset 520 31 [0]).cfg = true ∧ (∀ sc, 1 ≤ sc → sc ≤ 7 → presetCondition (preset 520 31 [0]) sc) ∧
    (decodeFields (preset 520 31 [0]).mem (preset 520 31 [0]).cfg.fieldTable).violations ≠ [] :=
  ⟨test_cfg_tc1, presetCondition_all (.inl (by decide +kernel)) (by decide +kernel) (by decide +kernel),
    by decide +kernel⟩
theorem witness_FirstStructuralFailureReported_preset :
    (∀ k, 1 ≤ k → k < 2 → presetCondition (raw 520 0 [0xF1] []) k) ∧
    ¬ presetCondition (raw 520 0 [0xF1] []) 2 ∧ ¬ presetCondition State.reset 1 := by
  refine ⟨fun k h1 h2 => ?_, ?_, ?_⟩
  · have hk : k = 1 := by omega
    subst hk
    exact .inl (by decide +kernel)
  · show ¬ (readCell _ 0 = 0xF0)
    decide +kernel
  · show ¬ (State.reset.len.toNat = 520 ∨ State.reset.len.toNat = 521)
    decide +kernel
theorem witness_FirstStructuralFailureReported_last :
    (∀ k, 1 ≤ k → k < 7 → presetCondition (preset 520 31 []) k) ∧
    ¬ presetCondition ((preset 520 31 []).setMem (put (presetMemory 31 []) 7 [0x02])) 7 := by
  refine ⟨fun k h1 h2 => presetCondition_all (.inl (by decide +kernel)) (by decide +kernel) (by decide +kernel) k h1
    (by omega), ?_⟩
  show ¬ (readCell _ 7 = 0x01)
  decide +kernel
theorem witness_FirstStructuralFailureReported_system :
    (∀ k, 1 ≤ k → k < 2 → systemCondition (raw 526 0 [0xF1] []) k) ∧ ¬ systemCondition (raw 526 0 [0xF1] []) 2 := by
  refine ⟨fun k h1 h2 => ?_, ?_⟩
  · have hk : k = 1 := by omega
    subst hk
    exact .inr (by decide +kernel)
  · show ¬ (readCell _ 0 = 0xF0)
    decide +kernel
theorem witness_ResultReadsComplete_preset :
    latched.kind = .preset ∧ (4 : BitVec 8).toNat < latched.cfg.nf ∧ latched.fv[(4 : BitVec 8).toNat]? = some 0 := by
  decide +kernel
theorem witness_ResultReadsComplete_record :
    (0 : BitVec 8).toNat < rejected.nviol.toNat ∧ rejected.vl[(0 : BitVec 8).toNat]? = some ⟨0, 0, 0, 100, 3000⟩ := by
  decide +kernel
theorem witness_ResultReadsComplete_system : (system []).kind = .system := by decide +kernel
theorem witness_LegacyLengthTolerated :
    (preset 521 31 [120]).len.toNat = 521 ∧
    after .pdec (preset 521 31 [120]) (fun t => statusEc t.status) = some 0 ∧
    after .pdec ((preset 521 31 [120]).setLen 520) (fun t => statusEc t.status) = some 0 := by decide +kernel

/-- The message with byte 520, outside it, different. -/
def presetTail : State := (preset 521 31 [120]).setMem (writeCell (presetMemory 31 [120]) 520 0xF7)

theorem presetTail_read (a : Nat) (h : a < 520) : readCell presetTail.mem a = readCell (preset 521 31 [120]).mem a := by
  rw [presetTail, preset, State.setMem_mem, State.setMem_mem, readCell_writeCell_of_ne (by decide +kernel) _ (by omega)]

theorem witness_PresetDecodeReadsOnlyMessage :
    wfCfg (preset 521 31 [120]).cfg = true ∧ presetTail.cfg = (preset 521 31 [120]).cfg ∧
    presetTail.len = (preset 521 31 [120]).len ∧
    (∀ a, a < 520 → readCell presetTail.mem a = readCell (preset 521 31 [120]).mem a) ∧
    after .pdec presetTail (·.kind) = some .preset ∧ after .pdec (preset 521 31 [120]) (·.kind) = some .preset :=
  ⟨test_cfg_tc1, rfl, rfl, presetTail_read, by decide +kernel,
    by decide +kernel⟩
/-- The unit with an earlier preset's results, and then the message with `tapTempo` 0 loaded. -/
def reloaded : State := (latched.setMem (presetMemory 31 [0])).setLen 521

theorem witness_PresetDecodeReadsOnlyMessage_fieldRange :
    wfCfg (preset 521 31 [0]).cfg = true ∧ reloaded.cfg = (preset 521 31 [0]).cfg ∧
    reloaded.len = (preset 521 31 [0]).len ∧ (∀ a, a < 520 → readCell reloaded.mem a = readCell (preset 521 31 [0]).mem a) ∧
    after .pdec reloaded (statusEc ·.status) = some (errCode .fieldRange) ∧
    after .pdec (preset 521 31 [0]) (statusEc ·.status) = some (errCode .fieldRange) :=
  ⟨test_cfg_tc1, rfl, rfl, fun _ _ => rfl, by decide +kernel, by decide +kernel⟩
/-- What 42_preset.md R70 (d) claims of TC1's table; the rest of the claim is not looked at here. -/
def tc1Claim : DeviceClaim :=
  { deviceClaim with
    blocks := [.tempo, .outputLevels, .outputLevels, .modulation, .modulation], modType := 3,
    modCodes := ⟨0, 1, 3, 4, 2, 5⟩, modDelayOrRange := 4 }

theorem witness_RangeFollowsModulationType (code : Nat) (h : code = 3 ∨ code = 0) :
    wfCfg (preset 520 31 [120, 0, 0, code, 2]).cfg = true ∧
    modDelayOrRangeAgrees (preset 520 31 [120, 0, 0, code, 2]).cfg.fieldTable tc1Claim = true ∧
    (preset 520 31 [120, 0, 0, code, 2]).cfg.fieldTable[tc1Claim.modDelayOrRange]? = some tc1Table[4] ∧
    dec28 (readQuad (preset 520 31 [120, 0, 0, code, 2]).mem tc1Table[4].off) = 2 ∧
    (∀ sc, 1 ≤ sc → sc ≤ 7 → presetCondition (preset 520 31 [120, 0, 0, code, 2]) sc) ∧
    (decodeFields (preset 520 31 [120, 0, 0, code, 2]).mem tc1Table).values[tc1Claim.modType]? = some (code : Int) := by
  rcases h with rfl | rfl <;>
    exact ⟨test_cfg_tc1, by decide +kernel, rfl, by decide +kernel,
      presetCondition_all (.inl (by decide +kernel)) (by decide +kernel) (by decide +kernel), by decide +kernel⟩
theorem witness_SystemDecodeSucceeds : ∀ sc, 1 ≤ sc → sc ≤ 7 → systemCondition (dump []) sc :=
  systemCondition_all (.inl (by decide +kernel)) (by decide +kernel) (by decide +kernel)
theorem witness_CcReadCompletes :
    (2 : Reg) ≠ 3 ∧ (system [(1, 63)]).kind = .system ∧ ((system [(1, 63)]).reg 1).toInt = (63 : Nat) ∧ 63 ≤ 63 := by
  decide +kernel
theorem witness_CcWriteCompletes :
    Inv (system [(1, 63), (2, 127), (3, 255)]) ∧ (system [(1, 63), (2, 127), (3, 255)]).kind = .system ∧
    ((system [(1, 63), (2, 127), (3, 255)]).reg 1).toInt = (63 : Nat) ∧
    ((system [(1, 63), (2, 127), (3, 255)]).reg 2).toInt = (127 : Nat) ∧
    ((system [(1, 63), (2, 127), (3, 255)]).reg 3).toInt = (255 : Nat) :=
  ⟨inv_system _, by decide +kernel, by decide +kernel, by decide +kernel, by decide +kernel⟩
theorem witness_MapReadsComplete :
    (system [(1, 127), (2, 31)]).kind = .system ∧ ((system [(1, 127), (2, 31)]).reg 1).toInt = (127 : Nat) ∧
    ((system [(1, 127), (2, 31)]).reg 2).toInt = (31 : Nat) := by decide +kernel
theorem witness_MapWritesComplete_incoming :
    Inv (system [(1, 127), (2, 90)]) ∧ (system [(1, 127), (2, 90)]).kind = .system ∧
    ((system [(1, 127), (2, 90)]).reg 1).toInt = (127 : Nat) ∧
    ((system [(1, 127), (2, 90)]).reg 2).toInt = (90 : Nat) :=
  ⟨inv_system _, by decide +kernel, by decide +kernel, by decide +kernel⟩
theorem witness_MapWritesComplete_outgoing :
    Inv (system [(1, 90), (2, 127)]) ∧ (system [(1, 90), (2, 127)]).kind = .system ∧
    ((system [(1, 90), (2, 127)]).reg 1).toInt = (90 : Nat) ∧
    ((system [(1, 90), (2, 127)]).reg 2).toInt = (127 : Nat) :=
  ⟨inv_system _, by decide +kernel, by decide +kernel, by decide +kernel⟩
theorem witness_MapUpdateChangesOneEntry :
    ∃ t u, Inv (system [(1, 127), (2, 90)]) ∧ exec (.pmiset 1 2) (system [(1, 127), (2, 90)]) = .next t ∧
      Inv (system [(1, 90), (2, 127)]) ∧ exec (.pmoset 1 2) (system [(1, 90), (2, 127)]) = .next u ∧
      statusEc t.status = 0 ∧ statusEc u.status = 0 :=
  ⟨_, _, inv_system _, rfl, inv_system _, rfl, by decide +kernel, by decide +kernel⟩
theorem witness_PedalReadCompletes : (3 : BitVec 2) ≠ 0 ∧ (system []).kind = .system := by decide +kernel
theorem witness_PedalWriteCompletes :
    Inv (system [(1, 268435455)]) ∧ (system [(1, 268435455)]).kind = .system ∧
    ((system [(1, 268435455)]).reg 1).toInt = (268435455 : Nat) ∧ (3 : BitVec 2) ≠ 0 :=
  ⟨inv_system _, by decide +kernel, by decide +kernel, by decide⟩
theorem witness_UpdateLeavesChecksumRight :
    ∃ t, Inv (system []) ∧ isSystemUpdate (.ccset 1 2 3) = true ∧ exec (.ccset 1 2 3) (system []) = .next t ∧
      statusEc t.status = 0 := ⟨_, inv_system [], rfl, rfl, by decide +kernel⟩
theorem witness_AccessesPastLengthRefused_reads :
    (raw 528 0 [] []).len.toNat < (528 : BitVec 10).toNat + 1 ∧
    (raw 528 0 [] []).len.toNat < (525 : BitVec 10).toNat + 4 ∧
    (8 : BitVec 10).toNat ≤ (528 : BitVec 10).toNat ∧ (raw 528 0 [] []).len.toNat ≤ (528 : BitVec 10).toNat ∧
    (raw 518 0 [] []).len.toNat < 519 ∧
    (raw 524 0 [] []).len.toNat ≤ max (raw 524 0 [] []).cfg.sysCsumHi (raw 524 0 [] []).cfg.sysCsumPos := by
  decide +kernel
theorem witness_AccessesPastLengthRefused_stores :
    0 ≤ ((raw 3 0 [] [(1, 127)]).reg 1).toInt ∧ ((raw 3 0 [] [(1, 127)]).reg 1).toInt ≤ 127 ∧
    ((raw 3 0 [] [(1, 127)]).reg 1).toNat ≤ 127 ∧ (raw 3 0 [] [(1, 127)]).len.toNat < (3 : BitVec 10).toNat + 1 ∧
    (raw 3 0 [] [(1, 127)]).len.toNat < (0 : BitVec 10).toNat + 4 := by decide +kernel
theorem witness_UnencodableValuesRefused_values :
    255 < ((raw 0 0 [] [(1, 256)]).reg 1).toInt ∧ ((raw 0 0 [] [(1, -1)]).reg 1).toInt < 0 ∧
    268435455 < ((raw 0 0 [] [(1, 268435456)]).reg 1).toInt ∧
    ((raw 0 0 [] [(1, -16777217)]).reg 1).toInt < -16777216 ∧
    251658239 < ((raw 0 0 [] [(1, 251658240)]).reg 1).toInt ∧ 528 < ((raw 0 0 [] [(1, 529)]).reg 1).toInt ∧
    (system [(1, -1)]).kind = .system ∧ ((system [(1, -1)]).reg 1).toInt < 0 := by decide +kernel
theorem witness_UnencodableValuesRefused_mask :
    (true = true ↔ 127 < ((raw 0 0 [] [(1, 128), (2, -1)]).reg 1).toNat) ∧
    (true = true ↔ 127 < ((raw 0 0 [] [(1, 128), (2, -1)]).reg 2).toNat) ∧
    (false = true ↔ 127 < ((raw 0 0 [] [(1, 128), (2, -1)]).reg 3).toNat) ∧ (true || true || false) = true := by
  decide +kernel
theorem witness_MissingLatchRefused : (system []).kind ≠ .preset ∧ latched.kind ≠ .system ∧ (2 : Reg) ≠ 3 := by
  decide +kernel
theorem witness_IndicesOutsideListsRefused_preset :
    latched.kind = .preset ∧ latched.cfg.nf ≤ (5 : BitVec 8).toNat ∧ (4 : BitVec 3).toNat ≤ 4 ∧
    latched.nviol.toNat ≤ (0 : BitVec 8).toNat := by decide +kernel
theorem witness_IndicesOutsideListsRefused_system :
    (system [(1, 64), (2, 128), (3, 91)]).kind = .system ∧
    63 < ((system [(1, 64), (2, 128), (3, 91)]).reg 1).toInt ∧
    127 < ((system [(1, 64), (2, 128), (3, 91)]).reg 2).toInt ∧
    90 < ((system [(1, 64), (2, 128), (3, 91)]).reg 3).toInt ∧ ((system [(1, -1)]).reg 1).toInt < 0 := by
  decide +kernel
theorem witness_UpdateValuesOutsideWindowRefused_cc :
    (system [(1, 63), (2, 128), (3, -1)]).kind = .system ∧ 0 ≤ ((system [(1, 63), (2, 128), (3, -1)]).reg 1).toInt ∧
    ((system [(1, 63), (2, 128), (3, -1)]).reg 1).toInt ≤ 63 ∧
    (true = true ↔ ¬ (((system [(1, 63), (2, 128), (3, -1)]).reg 2).toNat ≤ 127 ∨
      ((system [(1, 63), (2, 128), (3, -1)]).reg 2).toNat = 255)) ∧
    (true = true ↔ ¬ (((system [(1, 63), (2, 128), (3, -1)]).reg 3).toNat ≤ 127 ∨
      ((system [(1, 63), (2, 128), (3, -1)]).reg 3).toNat = 255)) ∧ (true || true) = true := by decide +kernel
theorem witness_UpdateValuesOutsideWindowRefused_maps :
    (system [(1, 31), (2, 30), (3, 128)]).kind = .system ∧ 31 ≤ ((system [(1, 31), (2, 30), (3, 128)]).reg 1).toInt ∧
    ((system [(1, 31), (2, 30), (3, 128)]).reg 1).toInt ≤ 90 ∧
    ((system [(1, 31), (2, 30), (3, 128)]).reg 2).toInt < 31 ∧
    127 < ((system [(1, 31), (2, 30), (3, 128)]).reg 3).toInt := by decide +kernel
theorem witness_IllegalFormsRefused : (Instr.rdcr 1 7).wf = false ∧ (Instr.unpk3 1 2 2 0).wf = false := by decide


end Sys2Proof.Tests
end

/-! Scope (00_scope.md): what no command and no step writes, how a step runs the command its word decodes to, and that
only a configuration failing `wfCfg` stops the unit. -/

namespace Sys2Proof.Machine

/-! ### Nothing outside the unit is written (00_scope.md R10) -/

/-- However a command other than the two decoders and `SRST` ends, it leaves the configuration and the host's list. -/
theorem Ending.outsideKept {i : Instr} {s t : State} (h : Ending i s t) : OutsideKept s t := by
  cases h with
  | failed c sc hc => exact ⟨rfl, rfl⟩
  | regs ps a hp ha hw hu => exact ⟨by simp, by simp⟩
  | raw m hw hb hm => exact ⟨rfl, rfl⟩
  | length ra n hi hn => exact ⟨rfl, rfl⟩
  | update m hu hb hk hm => exact ⟨rfl, rfl⟩

theorem execPdec_outsideKept {s t : State} (h : execPdec s = .next t) : OutsideKept s t := by
  rcases execPdec_cases s with ⟨sc, -, e⟩ | ⟨-, -, e⟩ | ⟨-, -, e⟩ <;> rw [e] at h <;> injection h with h <;> subst h
  · exact ⟨rfl, rfl⟩
  · exact ⟨rfl, rfl⟩
  · exact ⟨rfl, rfl⟩

theorem execSdec_outsideKept {s t : State} (h : execSdec s = .next t) : OutsideKept s t := by
  rcases execSdec_cases s with ⟨sc, -, e⟩ | ⟨-, e⟩ <;> rw [e] at h <;> injection h with h <;> subst h
  · exact ⟨rfl, rfl⟩
  · exact ⟨rfl, rfl⟩

theorem execSrst_outsideKept {s t : State} (h : execSrst s = .next t) : OutsideKept s t := by
  injection h with h
  subst h
  exact ⟨rfl, rfl⟩

/-- No command writes the configuration or the host's list. -/
theorem exec_outsideKept {i : Instr} {s t : State} (h : exec i s = .next t) : OutsideKept s t := by
  by_cases h1 : i = .pdec
  · subst h1; exact execPdec_outsideKept h
  by_cases h2 : i = .sdec
  · subst h2; exact execSdec_outsideKept h
  by_cases h3 : i = .srst
  · subst h3; exact execSrst_outsideKept h
  exact (exec_ending h h1 h2 h3).outsideKept

theorem issueWord_outsideKept {w : CommandWord} {s t : State} (h : issueWord w s = .next t) : OutsideKept s t := by
  cases hd : decode w with
  | ok i => exact exec_outsideKept (issueWord_of_ok hd s ▸ h)
  | error e =>
    obtain ⟨u, hu, failed⟩ := raise_failedOnly s .illegal 0
    rw [issueWord_of_error hd, raiseIllegal, hu] at h
    injection h with h
    exact h ▸ failed.outside

/-- No host action writes the configuration or the actions still to come. -/
theorem performAction_outsideKept {a : HostAction} {s t : State} (h : performAction a s = .next t) :
    OutsideKept s t := by
  cases a with
  | issue w => exact issueWord_outsideKept h
  | writeBuf a b => injection h with h; subst h; exact ⟨rfl, rfl⟩
  | writeLen n => injection h with h; subst h; exact ⟨rfl, rfl⟩
  | writeReg i v => injection h with h; subst h; exact ⟨rfl, rfl⟩
  | read => injection h with h; subst h; exact ⟨rfl, rfl⟩
  | reset => injection h with h; subst h; exact ⟨rfl, rfl⟩

/-- A step keeps the configuration and takes one action off the host's list. -/
theorem step_cfg_host {s t : State} (h : step s = .next t) : t.cfg = s.cfg ∧ t.host = s.host.tail := by
  obtain ⟨-, ⟨hnil, rfl⟩ | ⟨a, rest, hcons, ha⟩⟩ := step_cases h
  · simp [hnil]
  · obtain ⟨hcfg, hhost⟩ := performAction_outsideKept ha
    exact ⟨hcfg, by rw [hhost, hcons]; rfl⟩

/-- Settles O24: the frame of every command (`Ending` for all but the decoders and `SRST`), carried through the host
actions to the step. -/
theorem configurationNeverChanges : Obligations.ConfigurationNeverChanges :=
  ⟨fun _ _ _ => exec_outsideKept, fun _ _ => step_cfg_host⟩

/-! ### A step runs the decoded command (00_scope.md R10, 30_encoding.md R46) -/

/-- A step whose next action is the word of a command is that command. -/
theorem step_issue_of_decode {s : State} {w : CommandWord} {rest : List HostAction} {i : Instr}
    (hc : wfCfg s.cfg = true) (hh : s.host = .issue w :: rest) (hd : decode w = .ok i) :
    step s = exec i (s.setHost rest) :=
  calc step s = runHost s := step_of_wfCfg hc
    _ = issueWord w (s.setHost rest) := runHost_cons hh
    _ = exec i (s.setHost rest) := issueWord_of_ok hd _

theorem decodeTableWord_eq_some {nbits w : Nat} {i : Instr} :
    decodeTableWord nbits w = some i ↔ decode (tableWord nbits w) = .ok i := by
  unfold decodeTableWord
  cases decode (tableWord nbits w) <;> simp [Except.toOption]

@[simp] theorem State.withFetchWord_cfg (s : State) (nbits w : Nat) : (s.withFetchWord nbits w).cfg = s.cfg := rfl
@[simp] theorem State.withFetchWord_host (s : State) (nbits w : Nat) :
    (s.withFetchWord nbits w).host = .issue (tableWord nbits w) :: s.host := rfl

/-- Taking the placed word off the host's list gives back the state it was placed in. -/
@[simp] theorem State.withFetchWord_setHost (s : State) (nbits w : Nat) :
    (s.withFetchWord nbits w).setHost s.host = s := rfl

/-- Settles O5: the second half is the first at the state `withFetchWord` makes. -/
theorem stepRunsDecodedCommand : Obligations.StepRunsDecodedCommand := by
  refine ⟨fun s w rest i => step_issue_of_decode, fun s nbits w i hc hd => ?_⟩
  rw [step_issue_of_decode (by simpa using hc) (s.withFetchWord_host nbits w) (decodeTableWord_eq_some.1 hd),
    State.withFetchWord_setHost]

/-! ### Every command completes (60_exceptions.md R116) -/

/-- The outcome is a next state, neither a fault nor a refusal. -/
def Completes (o : Host.Outcome State Fault Refusal) : Prop := ∃ t, o = .next t

theorem completes_okFlag (s : State) (a : Bool) : Completes (okFlag s a) := ⟨_, rfl⟩
theorem completes_ok (s : State) : Completes (ok s) := ⟨_, rfl⟩
theorem completes_raise (s : State) (c : ErrClass) (sc : BitVec 8) : Completes (raise s c sc) := ⟨_, rfl⟩
theorem completes_raiseIllegal (s : State) : Completes (raiseIllegal s) := ⟨_, rfl⟩
theorem completes_writeReg (s : State) (i : Reg) (w : Word) : Completes (writeReg s i w) := ⟨_, rfl⟩

/-- A check completes when what it guards and what it answers on failure do. -/
theorem completes_ite {c : Prop} [Decidable c] {o p : Host.Outcome State Fault Refusal} (ho : Completes o)
    (hp : Completes p) : Completes (if c then o else p) := by
  split
  · exact ho
  · exact hp

theorem completes_rawWriteQuad (s : State) (a : Nat) (q : Quad) : Completes (rawWriteQuad s a q) :=
  completes_ite (completes_ok _) (completes_raise ..)
theorem completes_updateQuad (s : State) (a : Nat) (q : Quad) : Completes (updateQuad s a q) :=
  completes_ite (completes_ok _) (completes_raise ..)
theorem completes_mapUpdate (s : State) (base q v : Nat) : Completes (mapUpdate s base q v) :=
  completes_updateQuad ..
theorem completes_verifyCommand (s : State) (ra : Reg) (p : Payload) : Completes (verifyCommand s ra p) :=
  completes_ite (completes_writeReg ..) (completes_raise ..)
theorem completes_fixCommand (s : State) (p : Payload) : Completes (fixCommand s p) :=
  completes_ite (completes_ok _) (completes_raise ..)

theorem completes_execRdcr (ra : Reg) (crn : BitVec 3) (s : State) : Completes (execRdcr ra crn s) := by
  unfold execRdcr
  split
  · exact completes_writeReg ..
  · exact completes_raiseIllegal _

theorem completes_execRdvl (ra : Reg) (n : BitVec 8) (w : BitVec 3) (s : State) : Completes (execRdvl ra n w s) := by
  unfold execRdvl
  split
  · exact completes_raiseIllegal _
  · exact completes_ite (completes_writeReg ..) (completes_raise ..)

theorem completes_execPdec (s : State) : Completes (execPdec s) := by
  rcases execPdec_cases s with ⟨sc, -, e⟩ | ⟨-, -, e⟩ | ⟨-, -, e⟩
  · exact ⟨_, e⟩
  · exact ⟨_, e⟩
  · exact ⟨_, e⟩

theorem completes_execSdec (s : State) : Completes (execSdec s) := by
  rcases execSdec_cases s with ⟨sc, -, e⟩ | ⟨-, e⟩
  · exact ⟨_, e⟩
  · exact ⟨_, e⟩

/-- No command stops the unit: each arm is a nest of checks whose leaves complete. -/
theorem completes_exec (i : Instr) (s : State) : Completes (exec i s) := by
  cases i with
  | nop => exact completes_ok _
  | ldi ra imm32 => exact completes_writeReg ..
  | ldb ra off => exact completes_ite (completes_writeReg ..) (completes_raise ..)
  | stb ra off => exact completes_ite (completes_ite (completes_ok _) (completes_raise ..)) (completes_raise ..)
  | rdcr ra crn => exact completes_execRdcr ra crn s
  | wrcr ra => exact completes_ite (completes_ok _) (completes_raise ..)
  | srst => exact completes_ok _
  | dec28 ra off => exact completes_ite (completes_writeReg ..) (completes_raise ..)
  | enc28 ra off => exact completes_ite (completes_rawWriteQuad ..) (completes_raise ..)
  | decso ra rb rc off => exact completes_ite (completes_writeReg ..) (completes_raise ..)
  | encso ra off => exact completes_ite (completes_rawWriteQuad ..) (completes_raise ..)
  | csum ra lo hi => exact completes_ite (completes_writeReg ..) (completes_raise ..)
  | csvp ra => exact completes_verifyCommand ..
  | csvs ra => exact completes_verifyCommand ..
  | csfp => exact completes_fixCommand ..
  | csfs => exact completes_fixCommand ..
  | pdec => exact completes_execPdec s
  | penc ra => exact completes_ite (completes_writeReg ..) (completes_raise ..)
  | pfld ra fid => exact completes_ite (completes_ite (completes_writeReg ..) (completes_raise ..)) (completes_raise ..)
  | rdvl ra n w => exact completes_execRdvl ra n w s
  | sdec => exact completes_execSdec s
  | senc ra => exact completes_ite (completes_writeReg ..) (completes_raise ..)
  | ccget ra rb rc =>
    exact completes_ite (completes_raiseIllegal _)
      (completes_ite (completes_raise ..) (completes_ite (completes_okFlag ..) (completes_raise ..)))
  | ccset ra rb rc =>
    exact completes_ite (completes_raise ..)
      (completes_ite (completes_ite (completes_ok _) (completes_raise ..)) (completes_raise ..))
  | unpk3 ra rb rc off =>
    exact completes_ite (completes_ite (completes_ok _) (completes_raise ..)) (completes_raiseIllegal _)
  | pk3 ra rb rc off => exact completes_ite (completes_rawWriteQuad ..) (completes_raise ..)
  | pmiget ra rb =>
    exact completes_ite (completes_raise ..) (completes_ite (completes_okFlag ..) (completes_raise ..))
  | pmiset ra rb =>
    exact completes_ite (completes_raise ..)
      (completes_ite (completes_ite (completes_mapUpdate ..) (completes_raise ..)) (completes_raise ..))
  | pmoget ra rb =>
    exact completes_ite (completes_raise ..) (completes_ite (completes_writeReg ..) (completes_raise ..))
  | pmoset ra rb =>
    exact completes_ite (completes_raise ..)
      (completes_ite (completes_ite (completes_mapUpdate ..) (completes_raise ..)) (completes_raise ..))
  | pedget ra k => exact completes_ite (completes_raise ..) (completes_writeReg ..)
  | pedset ra k =>
    exact completes_ite (completes_raise ..)
      (completes_ite (completes_ite (completes_updateQuad ..) (completes_raise ..)) (completes_updateQuad ..))

theorem completes_issueWord (w : CommandWord) (s : State) : Completes (issueWord w s) := by
  cases hd : decode w with
  | ok i => rw [issueWord_of_ok hd]; exact completes_exec i s
  | error e => rw [issueWord_of_error hd]; exact completes_raiseIllegal s

theorem completes_performAction (a : HostAction) (s : State) : Completes (performAction a s) := by
  cases a with
  | issue w => exact completes_issueWord w s
  | writeBuf a b => exact ⟨_, rfl⟩
  | writeLen n => exact ⟨_, rfl⟩
  | writeReg i v => exact ⟨_, rfl⟩
  | read => exact ⟨_, rfl⟩
  | reset => exact ⟨_, rfl⟩

theorem completes_runHost (s : State) : Completes (runHost s) := by
  cases hh : s.host with
  | nil => exact ⟨s, runHost_nil hh⟩
  | cons a rest => rw [runHost_cons hh]; exact completes_performAction a _

/-- Settles O9: a step is refused by its own check of `wfCfg` or completes with the host's next action. -/
theorem onlyIllFormedConfigurationsStop : Obligations.OnlyIllFormedConfigurationsStop := by
  refine ⟨fun s => step_of_not_wfCfg, fun s hc => ?_⟩
  rw [step_of_wfCfg hc]
  exact completes_runHost s

end Sys2Proof.Machine

/-! State (10_state.md): which command writes which register, the reset state, and the invariant every step keeps. -/

namespace Sys2Proof.Machine

/-! ### The ways every command can end -/

/-- `PDEC`, by the state it leaves (42_preset.md R75). -/
theorem execPdec_next {s t : State} (h : execPdec s = .next t) :
    (∃ sc, firstFailure (presetChecks s) = some sc ∧
      t = ((s.setKind .none).setNviol 0).setStatus (statusErr .structural sc)) ∨
    (firstFailure (presetChecks s) = none ∧ (decodeFields s.mem s.cfg.fieldTable).violations = [] ∧
      t = (acceptPreset s).setStatus (statusOk s.status false)) ∨
    (∃ viol, viol = (decodeFields s.mem s.cfg.fieldTable).violations ∧
      t = (rejectPreset s viol).setStatus (statusErr .fieldRange 0)) := by
  rcases execPdec_cases s with ⟨sc, hf, e⟩ | ⟨hf, hv, e⟩ | ⟨-, -, e⟩ <;> rw [e] at h <;> injection h with h
  · exact .inl ⟨sc, hf, h.symm⟩
  · exact .inr (.inl ⟨hf, hv, h.symm⟩)
  · exact .inr (.inr ⟨_, rfl, h.symm⟩)

/-- `SDEC`, by the state it leaves (43_system.md R82). -/
theorem execSdec_next {s t : State} (h : execSdec s = .next t) :
    (∃ sc, t = (s.setKind .none).setStatus (statusErr .structural sc)) ∨
    (firstFailure (systemChecks s) = none ∧ t = (s.setKind .system).setStatus (statusOk s.status false)) := by
  rcases execSdec_cases s with ⟨sc, -, e⟩ | ⟨hf, e⟩ <;> rw [e] at h <;> injection h with h
  · exact .inl ⟨sc, h.symm⟩
  · exact .inr ⟨hf, h.symm⟩

/-- `SRST` leaves the reset state, `STATUS` with it: there is no `STK` left to keep. -/
theorem execSrst_eq (s : State) : execSrst s = .next s.resetUnit := by
  have hst : statusOk 0 false = 0 := by decide
  show Host.Outcome.next (s.resetUnit.setStatus (statusOk 0 false)) = _
  rw [hst]
  rfl

/-- Every command is one of the two decoders or `SRST`, or ends in one of the five ways of `Ending`. -/
theorem exec_cases {i : Instr} {s t : State} (h : exec i s = .next t) :
    (i = .pdec ∧ execPdec s = .next t) ∨ (i = .sdec ∧ execSdec s = .next t) ∨ (i = .srst ∧ t = s.resetUnit) ∨
      Ending i s t := by
  by_cases h1 : i = .pdec
  · subst h1; exact .inl ⟨rfl, h⟩
  by_cases h2 : i = .sdec
  · subst h2; exact .inr (.inl ⟨rfl, h⟩)
  by_cases h3 : i = .srst
  · subst h3
    have hn : Host.Outcome.next s.resetUnit = .next t := (execSrst_eq s).symm.trans h
    injection hn with hn
    exact .inr (.inr (.inl ⟨rfl, hn.symm⟩))
  exact .inr (.inr (.inr (exec_ending h h1 h2 h3)))

/-! ### What the decoders leave alone -/

theorem execPdec_mem {s t : State} (h : execPdec s = .next t) : t.mem = s.mem := by
  rcases execPdec_next h with ⟨sc, -, rfl⟩ | ⟨-, -, rfl⟩ | ⟨viol, -, rfl⟩
  · rfl
  · rfl
  · rfl

theorem execPdec_reg {s t : State} (h : execPdec s = .next t) (r : Reg) : t.reg r = s.reg r := by
  rcases execPdec_next h with ⟨sc, -, rfl⟩ | ⟨-, -, rfl⟩ | ⟨viol, -, rfl⟩
  · rfl
  · rfl
  · rfl

/-- `PDEC` sets the latch to `PRESET` and ends `ok`, or clears it. -/
theorem execPdec_kind {s t : State} (h : execPdec s = .next t) :
    (t.kind = .preset ∧ statusEc t.status = 0) ∨ t.kind = .none := by
  rcases execPdec_next h with ⟨sc, -, rfl⟩ | ⟨-, -, rfl⟩ | ⟨viol, -, rfl⟩
  · exact .inr rfl
  · exact .inl ⟨rfl, by simp⟩
  · exact .inr rfl

theorem execPdec_statusA {s t : State} (h : execPdec s = .next t) : statusA t.status = false := by
  rcases execPdec_next h with ⟨sc, -, rfl⟩ | ⟨-, -, rfl⟩ | ⟨viol, -, rfl⟩
  · simp
  · simp
  · simp

/-- `SDEC` writes the latch and `STATUS`, and nothing else. -/
theorem execSdec_frame {s t : State} (h : execSdec s = .next t) :
    t.mem = s.mem ∧ (∀ r, t.reg r = s.reg r) ∧ t.len = s.len ∧ ResultsKept s t := by
  rcases execSdec_next h with ⟨sc, rfl⟩ | ⟨-, rfl⟩
  · exact ⟨rfl, fun _ => rfl, rfl, rfl, rfl, rfl, rfl, rfl⟩
  · exact ⟨rfl, fun _ => rfl, rfl, rfl, rfl, rfl, rfl, rfl⟩

/-- `SDEC` sets the latch to `SYSTEM` and ends `ok`, or clears it. -/
theorem execSdec_kind {s t : State} (h : execSdec s = .next t) :
    (t.kind = .system ∧ statusEc t.status = 0) ∨ t.kind = .none := by
  rcases execSdec_next h with ⟨sc, rfl⟩ | ⟨-, rfl⟩
  · exact .inr rfl
  · exact .inl ⟨rfl, by simp⟩

theorem execSdec_statusA {s t : State} (h : execSdec s = .next t) : statusA t.status = false := by
  rcases execSdec_next h with ⟨sc, rfl⟩ | ⟨-, rfl⟩
  · simp
  · simp

/-! ### What each way of ending leaves alone -/

theorem Ending.mem {i : Instr} {s t : State} (h : Ending i s t) (hb : writesBuffer i = false) : t.mem = s.mem := by
  cases h with
  | failed c sc hc => rfl
  | regs ps a hp ha hw hu => simp
  | raw m hw hb' hm => rw [hb] at hb'; cases hb'
  | length ra n hi hn => rfl
  | update m hu hb' hk hm => rw [hb] at hb'; cases hb'

theorem Ending.regsKept {i : Instr} {s t : State} (h : Ending i s t) : RegsKept s t (destinations i) := by
  intro r hr
  cases h with
  | failed c sc hc => rfl
  | regs ps a hp ha hw hu =>
    have hne : ∀ p ∈ ps, p.1 ≠ r := fun p hmem heq => hr (heq ▸ hp p hmem)
    simp [State.setRegs_reg_of_not_mem hne]
  | raw m hw hb hm => rfl
  | length ra n hi hn => rfl
  | update m hu hb hk hm => rfl

theorem Ending.len {i : Instr} {s t : State} (h : Ending i s t) (hw : ∀ ra, i ≠ .wrcr ra) : t.len = s.len := by
  cases h with
  | failed c sc hc => rfl
  | regs ps a hp ha hw' hu => simp
  | raw m hw' hb hm => rfl
  | length ra n hi hn => exact absurd hi (hw ra)
  | update m hu hb hk hm => rfl

/-- No command but the decoders sets the latch. -/
theorem Ending.kind {i : Instr} {s t : State} (h : Ending i s t) : t.kind = s.kind ∨ t.kind = .none := by
  cases h with
  | failed c sc hc => exact .inl rfl
  | regs ps a hp ha hw hu => exact .inl (by simp)
  | raw m hw hb hm => exact .inr rfl
  | length ra n hi hn => exact .inr rfl
  | update m hu hb hk hm => exact .inl rfl

theorem Ending.resultsKept {i : Instr} {s t : State} (h : Ending i s t) : ResultsKept s t := by
  cases h with
  | failed c sc hc => exact ⟨rfl, rfl, rfl, rfl, rfl⟩
  | regs ps a hp ha hw hu => exact ⟨by simp, by simp, by simp, by simp, by simp⟩
  | raw m hw hb hm => exact ⟨rfl, rfl, rfl, rfl, rfl⟩
  | length ra n hi hn => exact ⟨rfl, rfl, rfl, rfl, rfl⟩
  | update m hu hb hk hm => exact ⟨rfl, rfl, rfl, rfl, rfl⟩

theorem Ending.statusA {i : Instr} {s t : State} (h : Ending i s t) (ha : statusA t.status = true) :
    mayAssign i = true := by
  cases h with
  | failed c sc hc => simp at ha
  | regs ps a hp hassign hw hu => exact hassign (by simpa using ha)
  | raw m hw hb hm => simp at ha
  | length ra n hi hn => simp at ha
  | update m hu hb hk hm => simp at ha

theorem ccget_or_pmiget_of_mayAssign {i : Instr} (h : mayAssign i = true) :
    (∃ ra rb rc, i = .ccget ra rb rc) ∨ (∃ ra rb, i = .pmiget ra rb) := by
  match i, h with
  | .ccget ra rb rc, _ => exact .inl ⟨ra, rb, rc, rfl⟩
  | .pmiget ra rb, _ => exact .inr ⟨ra, rb, rfl⟩

/-! ### Who writes what (10_state.md R12 to R24) -/

/-- Settles O16: the two decoders leave the buffer, and so does every other ending that is no store. -/
theorem onlyWritersChangeBuffer : Obligations.OnlyWritersChangeBuffer := by
  intro i s t h hb
  rcases exec_cases h with ⟨-, h⟩ | ⟨-, h⟩ | ⟨rfl, -⟩ | h
  · exact execPdec_mem h
  · obtain ⟨hmem, -, -, -⟩ := execSdec_frame h
    exact hmem
  · cases hb
  · exact h.mem hb

/-- Settles O17: the decoders write no register, `SRST` has all as destinations. -/
theorem onlyDestinationsChange : Obligations.OnlyDestinationsChange := by
  intro i s t h
  rcases exec_cases h with ⟨-, h⟩ | ⟨-, h⟩ | ⟨rfl, -⟩ | h
  · exact fun r _ => execPdec_reg h r
  · obtain ⟨-, hreg, -, -⟩ := execSdec_frame h
    exact fun r _ => hreg r
  · exact fun r hr => absurd (List.mem_finRange r) hr
  · exact h.regsKept

theorem exec_len {i : Instr} {s t : State} (h : exec i s = .next t) (h1 : i ≠ .pdec) (h2 : i ≠ .srst)
    (h3 : ∀ ra, i ≠ .wrcr ra) : t.len = s.len := by
  rcases exec_cases h with ⟨hi, -⟩ | ⟨-, h⟩ | ⟨hi, -⟩ | h
  · exact absurd hi h1
  · obtain ⟨-, -, hlen, -⟩ := execSdec_frame h
    exact hlen
  · exact absurd hi h2
  · exact h.len h3

/-- The latch after a command: as it was, cleared, or set by the decoder of its kind, which then ends `ok`. -/
theorem exec_kind {i : Instr} {s t : State} (h : exec i s = .next t) :
    t.kind = s.kind ∨ t.kind = .none ∨ (i = .pdec ∧ t.kind = .preset ∧ statusEc t.status = 0) ∨
      (i = .sdec ∧ t.kind = .system ∧ statusEc t.status = 0) := by
  rcases exec_cases h with ⟨hi, h⟩ | ⟨hi, h⟩ | ⟨-, rfl⟩ | h
  · rcases execPdec_kind h with hk | hk
    · exact .inr (.inr (.inl ⟨hi, hk⟩))
    · exact .inr (.inl hk)
  · rcases execSdec_kind h with hk | hk
    · exact .inr (.inr (.inr ⟨hi, hk⟩))
    · exact .inr (.inl hk)
  · exact .inr (.inl rfl)
  · rcases h.kind with hk | hk
    · exact .inl hk
    · exact .inr (.inl hk)

theorem exec_sets_preset {i : Instr} {s t : State} (h : exec i s = .next t) (ht : t.kind = .preset)
    (hs : s.kind ≠ .preset) : i = .pdec ∧ statusEc t.status = 0 := by
  rcases exec_kind h with hk | hk | ⟨hi, -, hec⟩ | ⟨-, hk, -⟩
  · exact absurd (hk ▸ ht) hs
  · rw [hk] at ht; cases ht
  · exact ⟨hi, hec⟩
  · rw [hk] at ht; cases ht

theorem exec_sets_system {i : Instr} {s t : State} (h : exec i s = .next t) (ht : t.kind = .system)
    (hs : s.kind ≠ .system) : i = .sdec ∧ statusEc t.status = 0 := by
  rcases exec_kind h with hk | hk | ⟨-, hk, -⟩ | ⟨hi, -, hec⟩
  · exact absurd (hk ▸ ht) hs
  · rw [hk] at ht; cases ht
  · rw [hk] at ht; cases ht
  · exact ⟨hi, hec⟩

/-- Settles O18: `exec_len`, and `exec_kind` read for each of the two latched kinds. -/
theorem lengthAndLatchWriters : Obligations.LengthAndLatchWriters :=
  ⟨fun _ _ _ => exec_len, fun _ _ _ => exec_sets_preset, fun _ _ _ => exec_sets_system⟩

/-- Settles O19: `SDEC` writes the latch alone, and no `Ending` writes a result of a decode. -/
theorem onlyDecodeWritesResults : Obligations.OnlyDecodeWritesResults := by
  intro i s t h h1 h2
  rcases exec_cases h with ⟨hi, -⟩ | ⟨-, h⟩ | ⟨hi, -⟩ | h
  · exact absurd hi h1
  · obtain ⟨-, -, -, hres⟩ := execSdec_frame h
    exact hres
  · exact absurd hi h2
  · exact h.resultsKept

/-- Settles O20: an ending with `A = 1` is one of the two commands that may set it; the decoders and `SRST` clear it. -/
theorem assignedFlagWriters : Obligations.AssignedFlagWriters := by
  intro i s t h ha
  rcases exec_cases h with ⟨-, h⟩ | ⟨-, h⟩ | ⟨-, rfl⟩ | h
  · rw [execPdec_statusA h] at ha; cases ha
  · rw [execSdec_statusA h] at ha; cases ha
  · rw [State.resetUnit_status] at ha; exact absurd ha (by decide)
  · exact ccget_or_pmiget_of_mayAssign (h.statusA ha)

/-! ### Reset (10_state.md R25) -/

/-- Settles O11: both resets leave `resetUnit`. -/
theorem resetsLeaveEverythingZero : Obligations.ResetsLeaveEverythingZero := fun s =>
  ⟨s.resetUnit, execSrst_eq s, rfl, s.resetUnit_reg, rfl, rfl, rfl, rfl, rfl, rfl, rfl, rfl, fun _ => rfl, rfl, rfl⟩

/-! ### The invariant, part by part -/

/-- The part of `Inv` about what a decode writes (10_state.md R19 to R22). -/
structure ResultsLegal (s : State) : Prop where
  namelen : s.namelen.toNat ≤ 24
  nviol   : s.nviol.toNat ≤ s.cfg.nf
  fv      : s.fv.length = s.cfg.nf
  vl      : s.vl.length = s.cfg.nf

theorem Inv.results {s : State} (h : Inv s) : ResultsLegal s := ⟨h.namelen, h.nviol, h.fv, h.vl⟩

theorem ResultsLegal.of_kept {s t : State} (h : ResultsLegal s) (hr : ResultsKept s t) (hc : t.cfg = s.cfg) :
    ResultsLegal t where
  namelen := by rw [hr.namelen]; exact h.namelen
  nviol := by rw [hr.nviol, hc]; exact h.nviol
  fv := by rw [hr.fv, hc]; exact h.fv
  vl := by rw [hr.vl, hc]; exact h.vl

theorem statusLegal_zero : StatusLegal 0 := .inl (by decide)

theorem statusLegal_ok (old : BitVec 14) (a : Bool) : StatusLegal (statusOk old a) := .inl (by simp)

theorem statusLegal_err {c : ErrClass} (sc : BitVec 8) (hc : c ≠ .identityMismatch) : StatusLegal (statusErr c sc) :=
  .inr ⟨c, hc, by simp⟩

/-- No command reports `IDENTITY_MISMATCH` (60_exceptions.md R114). -/
theorem ErrClass.within_ne_identityMismatch {c : ErrClass} {i : Instr} (h : c.within i) : c ≠ .identityMismatch := by
  rintro rfl
  rcases h with h | ⟨h, -⟩ | ⟨h, -⟩
  · cases h
  · cases h
  · cases h

/-- However a command other than the decoders and `SRST` ends, it leaves a legal `STATUS`. -/
theorem Ending.statusLegal {i : Instr} {s t : State} (h : Ending i s t) : StatusLegal t.status := by
  cases h with
  | failed c sc hc => exact statusLegal_err sc (ErrClass.within_ne_identityMismatch hc)
  | regs ps a hp ha hw hu => exact statusLegal_ok s.status a
  | raw m hw hb hm => exact statusLegal_ok s.status false
  | length ra n hi hn => exact statusLegal_ok s.status false
  | update m hu hb hk hm => exact statusLegal_ok s.status false

/-- With the latch clear, the invariant says nothing of what the buffer means. -/
theorem Inv.of_unlatched {t : State} (hk : t.kind = .none) (hc : wfCfg t.cfg = true) (hb : BufferLegal t)
    (hs : StatusLegal t.status) (hr : ResultsLegal t) : Inv t where
  cfg := hc
  buffer := hb
  status := hs
  namelen := hr.namelen
  nviol := hr.nviol
  fv := hr.fv
  vl := hr.vl
  preset := fun h => by rw [hk] at h; cases h
  system := fun h => by rw [hk] at h; cases h

/-- What a latched preset means reads neither `STATUS` nor a register nor the host's list. -/
theorem PresetLatched.of_kept {s t : State} (h : PresetLatched s) (hm : t.mem = s.mem) (hl : t.len = s.len)
    (hr : ResultsKept s t) (hc : t.cfg = s.cfg) : PresetLatched t where
  len := by rw [hl]; exact h.len
  structural := by simpa only [presetChecks, hm, hl] using h.structural
  valid := by rw [hm, hc]; exact h.valid
  fv := by rw [hr.fv, hm, hc]; exact h.fv
  num := by rw [hr.num, hm]; exact h.num
  namelen := by rw [hr.namelen, hm]; exact h.namelen

/-- A latched dump stays one while `LEN`, the header and the frame end stay: the checks read no table byte. -/
theorem SystemLatched.of_kept {s t : State} (h : SystemLatched s) (hl : t.len = s.len)
    (hm : ∀ a, a < 8 ∨ 524 < a → readCell t.mem a = readCell s.mem a) : SystemLatched t where
  len := by rw [hl]; exact h.len
  structural := by
    have hlast : 524 < s.len.toNat - 1 := by rcases h.len with e | e <;> omega
    have hchecks : systemChecks t = systemChecks s := by
      rw [systemChecks, systemChecks, hl]
      exact headerChecks_congr (fun a ha => hm a (.inl ha)) (hm _ (.inr hlast))
    rw [hchecks]
    exact h.structural

/-- What only writes `STATUS`, registers or the host's list keeps the invariant. -/
theorem Inv.of_kept {s t : State} (h : Inv s) (hm : t.mem = s.mem) (hl : LatchKept s t) (hr : ResultsKept s t)
    (hc : t.cfg = s.cfg) (hs : StatusLegal t.status) : Inv t where
  cfg := by rw [hc]; exact h.cfg
  buffer := ⟨by rw [hm]; exact h.buffer.mem, by rw [hl.len]; exact h.buffer.len⟩
  status := hs
  namelen := (h.results.of_kept hr hc).namelen
  nviol := (h.results.of_kept hr hc).nviol
  fv := (h.results.of_kept hr hc).fv
  vl := (h.results.of_kept hr hc).vl
  preset := fun hk => (h.preset (hl.kind ▸ hk)).of_kept hm hl.len hr hc
  system := fun hk => (h.system (hl.kind ▸ hk)).of_kept hl.len fun a _ => by rw [hm]

/-! ### The reset state -/

/-- The reset state of a well-formed configuration meets the invariant. -/
theorem inv_resetWith {c : Cfg} (h : List HostAction) (hc : wfCfg c = true) : Inv (State.resetWith c h) :=
  .of_unlatched rfl hc ⟨rfl, Nat.zero_le _⟩ statusLegal_zero
    ⟨Nat.zero_le _, Nat.zero_le _, List.length_replicate .., List.length_replicate ..⟩

/-- Settles O12: `State.reset` is the reset state of the configuration TC1, which passes `wfCfg`. -/
theorem resetMeetsInvariant : Obligations.ResetMeetsInvariant :=
  ⟨inv_resetWith [] (by decide), fun _ h => inv_resetWith h⟩

/-! ### System updates store inside the tables (00_scope.md R6 a, 43_system.md R84) -/

/-- The addresses where `wfCfg` lets the tables and the checksum byte of a dump lie. -/
def InsideTables (a : Nat) : Prop := 8 ≤ a ∧ a ≤ 524

theorem raise_cellsKept {s t : State} {c : ErrClass} {sc : BitVec 8} (h : raise s c sc = .next t)
    (except : Nat → Prop) : CellsKept s t except := by
  injection h with h
  subst h
  exact fun _ _ => rfl

/-- `sysfix` after a store inside the tables stays inside them. -/
theorem sysfix_cellsKept {s t : State} {m : Memory} (hc : wfCfg s.cfg = true) (hm : memoryWf m = true)
    (hk : ∀ a, ¬ InsideTables a → readCell m a = readCell s.mem a) (h : ok (sysfix (s.setMem m)) = .next t) :
    CellsKept s t InsideTables := by
  injection h with h
  subst h
  intro a ha
  have hpos := wfCfg_sumByte hc
  have hne : a ≠ (systemPayload s.cfg).pos := fun e => ha (e ▸ hpos)
  exact (readCell_storeSum_of_ne hm (systemPayload s.cfg) hne).trans (hk a ha)

theorem updateQuad_cellsKept {s t : State} {a : Nat} {q : Quad} (hc : wfCfg s.cfg = true)
    (hm : memoryWf s.mem = true) (hlo : 8 ≤ a) (hhi : a + 3 ≤ 524) (h : updateQuad s a q = .next t) :
    CellsKept s t InsideTables := by
  unfold updateQuad at h
  split at h
  · refine sysfix_cellsKept hc (memoryWf_writeQuad hm a q) (fun b hb => ?_) h
    have hout : ¬ (8 ≤ b ∧ b ≤ 524) := hb
    exact readCell_writeQuad_of_not_mem hm q (by omega)
  · exact raise_cellsKept h _

theorem execCcset_cellsKept {ra rb rc : Reg} {s t : State} (hc : wfCfg s.cfg = true) (hm : memoryWf s.mem = true)
    (h : execCcset ra rb rc s = .next t) : CellsKept s t InsideTables := by
  simp only [execCcset] at h
  split at h
  · exact raise_cellsKept h _
  split at h
  next hi =>
    split at h
    · have hmul : s.cfg.ccStride * (sval (s.reg ra)).toNat ≤ s.cfg.ccStride * 63 :=
        Nat.mul_le_mul_left _ (by have := (inRange_eq_true _ _ _).1 hi; omega)
      have htable := wfCfg_ccTable hc
      refine sysfix_cellsKept hc (memoryWf_writeCell (memoryWf_writeCell hm _ _) _ _) (fun b hb => ?_) h
      have hout : ¬ (8 ≤ b ∧ b ≤ 524) := hb
      rw [readCell_writeCell_of_ne (memoryWf_writeCell hm _ _) _ (by simp only [ccAddr, Config.ccBase]; omega),
        readCell_writeCell_of_ne hm _ (by simp only [ccAddr, Config.ccBase]; omega)]
    · exact raise_cellsKept h _
  · exact raise_cellsKept h _

theorem execPmiset_cellsKept {ra rb : Reg} {s t : State} (hc : wfCfg s.cfg = true) (hm : memoryWf s.mem = true)
    (h : execPmiset ra rb s = .next t) : CellsKept s t InsideTables := by
  simp only [execPmiset] at h
  split at h
  · exact raise_cellsKept h _
  split at h
  next hi =>
    split at h
    · have hmap := wfCfg_inMap hc
      have hpos : inPosition (sval (s.reg ra)) ≤ 126 := by
        have := (inRange_eq_true _ _ _).1 hi
        simp only [inPosition, Config.pmapInCount] at *
        omega
      exact updateQuad_cellsKept hc hm (by simp only [groupAddr]; omega) (by simp only [groupAddr]; omega) h
    · exact raise_cellsKept h _
  · exact raise_cellsKept h _

theorem execPmoset_cellsKept {ra rb : Reg} {s t : State} (hc : wfCfg s.cfg = true) (hm : memoryWf s.mem = true)
    (h : execPmoset ra rb s = .next t) : CellsKept s t InsideTables := by
  simp only [execPmoset] at h
  split at h
  · exact raise_cellsKept h _
  split at h
  next hi =>
    split at h
    · have hmap := wfCfg_outMap hc
      have hpos : outPosition (sval (s.reg ra)) ≤ 59 := by
        have := (inRange_eq_true _ _ _).1 hi
        simp only [outPosition, Config.presetMin, Config.presetMax] at *
        omega
      exact updateQuad_cellsKept hc hm (by simp only [groupAddr]; omega) (by simp only [groupAddr]; omega) h
    · exact raise_cellsKept h _
  · exact raise_cellsKept h _

theorem execPedset_cellsKept {ra : Reg} {k : BitVec 2} {s t : State} (hc : wfCfg s.cfg = true)
    (hm : memoryWf s.mem = true) (h : execPedset ra k s = .next t) : CellsKept s t InsideTables := by
  obtain ⟨hlo, hhi⟩ := wfCfg_pedal hc k.toFin
  simp only [execPedset] at h
  split at h
  · exact raise_cellsKept h _
  split at h
  · split at h
    · exact updateQuad_cellsKept hc hm hlo hhi h
    · exact raise_cellsKept h _
  · exact updateQuad_cellsKept hc hm hlo hhi h

/-- A system update changes cells of the tables and the checksum byte alone. -/
theorem exec_systemUpdate_cellsKept {i : Instr} {s t : State} (hu : isSystemUpdate i = true)
    (hc : wfCfg s.cfg = true) (hm : memoryWf s.mem = true) (h : exec i s = .next t) : CellsKept s t InsideTables := by
  match i, hu with
  | .ccset ra rb rc, _ => exact execCcset_cellsKept hc hm h
  | .pmiset ra rb, _ => exact execPmiset_cellsKept hc hm h
  | .pmoset ra rb, _ => exact execPmoset_cellsKept hc hm h
  | .pedset ra k, _ => exact execPedset_cellsKept hc hm h

/-! ### Every command keeps the invariant -/

/-- A system update keeps the invariant: the dump stays latched, since neither header nor frame end is in a table. -/
theorem inv_systemUpdate {i : Instr} {s : State} {m : Memory} (h : Inv s) (hu : isSystemUpdate i = true)
    (hk : s.kind = .system) (hm : memoryWf s.mem = true → memoryWf m = true)
    (hx : exec i s = .next ((sysfix (s.setMem m)).setStatus (statusOk s.status false))) :
    Inv ((sysfix (s.setMem m)).setStatus (statusOk s.status false)) where
  cfg := h.cfg
  buffer := ⟨memoryWf_storeSum (hm h.buffer.mem) _, h.buffer.len⟩
  status := statusLegal_ok s.status false
  namelen := h.namelen
  nviol := h.nviol
  fv := h.fv
  vl := h.vl
  preset := fun hp => by
    have hp' : s.kind = .preset := hp
    rw [hk] at hp'
    cases hp'
  system := fun _ => (h.system hk).of_kept rfl fun a ha =>
    exec_systemUpdate_cellsKept hu h.cfg h.buffer.mem hx a fun ⟨h1, h2⟩ => by omega

/-- Every command but the decoders and `SRST` keeps the invariant: it leaves what the latch speaks of, clears the
latch, or is a system update. -/
theorem Ending.inv {i : Instr} {s t : State} (he : Ending i s t) (hx : exec i s = .next t) (h : Inv s) : Inv t := by
  have hst := he.statusLegal
  have hres := he.resultsKept
  cases he with
  | failed c sc hc => exact h.of_kept rfl ⟨rfl, rfl⟩ hres rfl hst
  | regs ps a hp ha hw hu => exact h.of_kept (by simp) ⟨by simp, by simp⟩ hres (by simp) hst
  | raw m hw hb hm => exact .of_unlatched rfl h.cfg ⟨hm h.buffer.mem, h.buffer.len⟩ hst (h.results.of_kept hres rfl)
  | length ra n hi hn =>
    exact .of_unlatched rfl h.cfg ⟨h.buffer.mem, Nat.le_trans (Nat.mod_le n _) hn⟩ hst (h.results.of_kept hres rfl)
  | update m hu hb hk hm => exact inv_systemUpdate h hu hk hm hx

/-- The first structural check is the length. -/
theorem headerChecks_lengthOk {m : Memory} {lengthOk : Bool} {last : Nat} {sub : Byte}
    (h : firstFailure (headerChecks m lengthOk last sub) = none) : lengthOk = true := by
  cases lengthOk with
  | true => rfl
  | false => cases h

/-- What a `PDEC` extracts is legal whatever the buffer holds. -/
theorem resultsLegal_extractPreset {s : State} (h : ResultsLegal s) : ResultsLegal (extractPreset s) where
  namelen := Nat.le_trans (Nat.mod_le _ _) (nameLength_le s.mem Config.nameWidth)
  nviol := h.nviol
  fv := by simp [extractPreset, decodeFields_values_length, Cfg.nf]
  vl := h.vl

/-- An accepted preset is latched: the lengths 520 and 521 pass the same checks, and `LEN` becomes 520. -/
theorem presetLatched_acceptPreset {s : State} (hf : firstFailure (presetChecks s) = none)
    (hv : (decodeFields s.mem s.cfg.fieldTable).violations = []) : PresetLatched (acceptPreset s) where
  len := rfl
  structural := by
    have hlen := headerChecks_lengthOk hf
    rw [presetChecks, hlen] at hf
    exact hf
  valid := hv
  fv := rfl
  num := rfl
  namelen := by
    have hn := nameLength_le s.mem 24
    exact Nat.mod_eq_of_lt (Nat.lt_of_le_of_lt hn (by decide))

theorem inv_acceptPreset {s : State} (h : Inv s) (hf : firstFailure (presetChecks s) = none)
    (hv : (decodeFields s.mem s.cfg.fieldTable).violations = []) :
    Inv ((acceptPreset s).setStatus (statusOk s.status false)) where
  cfg := h.cfg
  buffer := ⟨h.buffer.mem, by simp⟩
  status := statusLegal_ok s.status false
  namelen := (resultsLegal_extractPreset h.results).namelen
  nviol := Nat.zero_le _
  fv := (resultsLegal_extractPreset h.results).fv
  vl := h.vl
  preset := fun _ => (presetLatched_acceptPreset hf hv).of_kept rfl rfl ⟨rfl, rfl, rfl, rfl, rfl⟩ rfl
  system := fun hk => by cases hk

/-- A field-range failure leaves at most one record per entry (42_preset.md R72). -/
theorem inv_rejectPreset {s : State} {viol : List VRec} (h : Inv s) (hn : viol.length ≤ s.cfg.nf) :
    Inv ((rejectPreset s viol).setStatus (statusErr .fieldRange 0)) :=
  .of_unlatched rfl h.cfg ⟨h.buffer.mem, h.buffer.len⟩ (statusLegal_err 0 (by decide))
    { namelen := (resultsLegal_extractPreset h.results).namelen
      nviol := Nat.le_trans (Nat.mod_le _ _) hn
      fv := (resultsLegal_extractPreset h.results).fv
      vl := (overlay_length (h.vl.symm ▸ hn)).trans h.vl }

theorem execPdec_inv {s t : State} (h : Inv s) (hx : execPdec s = .next t) : Inv t := by
  rcases execPdec_next hx with ⟨sc, -, rfl⟩ | ⟨hf, hv, rfl⟩ | ⟨viol, rfl, rfl⟩
  · exact .of_unlatched rfl h.cfg ⟨h.buffer.mem, h.buffer.len⟩ (statusLegal_err sc (by decide))
      ⟨h.namelen, Nat.zero_le _, h.fv, h.vl⟩
  · exact inv_acceptPreset h hf hv
  · exact inv_rejectPreset h (decodeFields_violations_length s.mem s.cfg.fieldTable)

/-- A dump that passes the structural checks has one of the two lengths. -/
theorem systemLatched_of_checks {s : State} (hf : firstFailure (systemChecks s) = none) : SystemLatched s where
  len := by
    have hlen := headerChecks_lengthOk hf
    simp only [Bool.or_eq_true, beq_iff_eq, Config.sysLen, Config.sysLenShort] at hlen
    exact hlen.symm
  structural := hf

theorem execSdec_inv {s t : State} (h : Inv s) (hx : execSdec s = .next t) : Inv t := by
  rcases execSdec_next hx with ⟨sc, rfl⟩ | ⟨hf, rfl⟩
  · exact .of_unlatched rfl h.cfg ⟨h.buffer.mem, h.buffer.len⟩ (statusLegal_err sc (by decide))
      ⟨h.namelen, h.nviol, h.fv, h.vl⟩
  · exact
      { cfg := h.cfg
        buffer := ⟨h.buffer.mem, h.buffer.len⟩
        status := statusLegal_ok s.status false
        namelen := h.namelen
        nviol := h.nviol
        fv := h.fv
        vl := h.vl
        preset := fun hk => by cases hk
        system := fun _ => (systemLatched_of_checks hf).of_kept rfl fun _ _ => rfl }

/-- Every command keeps the invariant. -/
theorem exec_inv {i : Instr} {s t : State} (h : Inv s) (hx : exec i s = .next t) : Inv t := by
  rcases exec_cases hx with ⟨-, hp⟩ | ⟨-, hs⟩ | ⟨-, rfl⟩ | he
  · exact execPdec_inv h hp
  · exact execSdec_inv h hs
  · exact inv_resetWith s.host h.cfg
  · exact he.inv hx h

/-! ### Every step keeps the invariant -/

theorem inv_raiseIllegal {s t : State} (h : Inv s) (hx : raiseIllegal s = .next t) : Inv t := by
  injection hx with hx
  subst hx
  exact h.of_kept rfl ⟨rfl, rfl⟩ ⟨rfl, rfl, rfl, rfl, rfl⟩ rfl (statusLegal_err 0 (by decide))

theorem issueWord_inv {w : CommandWord} {s t : State} (h : Inv s) (hx : issueWord w s = .next t) : Inv t := by
  cases hd : decode w with
  | ok i => exact exec_inv h (issueWord_of_ok hd s ▸ hx)
  | error e => exact inv_raiseIllegal h (issueWord_of_error hd s ▸ hx)

/-- Every host action keeps the invariant: its writes to buffer and length clear the latch. -/
theorem performAction_inv {a : HostAction} {s t : State} (h : Inv s) (hx : performAction a s = .next t) : Inv t := by
  cases a with
  | issue w => exact issueWord_inv h hx
  | writeBuf a b =>
    injection hx with hx; subst hx
    exact .of_unlatched rfl h.cfg ⟨memoryWf_writeCell h.buffer.mem _ _, h.buffer.len⟩ h.status
      ⟨h.namelen, h.nviol, h.fv, h.vl⟩
  | writeLen n =>
    injection hx with hx; subst hx
    exact .of_unlatched rfl h.cfg ⟨h.buffer.mem, Nat.le_trans (Nat.mod_le _ _) (Nat.le_of_lt_succ n.isLt)⟩ h.status
      ⟨h.namelen, h.nviol, h.fv, h.vl⟩
  | writeReg i v =>
    injection hx with hx; subst hx
    exact h.of_kept rfl ⟨rfl, rfl⟩ ⟨rfl, rfl, rfl, rfl, rfl⟩ rfl h.status
  | read => injection hx with hx; subst hx; exact h
  | reset => injection hx with hx; subst hx; exact inv_resetWith s.host h.cfg

/-- Settles O13: a step performs the host's next action, and taking that action off the list touches nothing `Inv`
speaks of. -/
theorem stepKeepsInvariant : Obligations.StepKeepsInvariant := by
  intro s t h hx
  obtain ⟨-, ⟨-, rfl⟩ | ⟨a, rest, -, ha⟩⟩ := step_cases hx
  · exact h
  · have hs : Inv (s.setHost rest) := h.of_kept rfl ⟨rfl, rfl⟩ ⟨rfl, rfl, rfl, rfl, rfl⟩ rfl h.status
    exact performAction_inv hs ha

/-! ### No command reads `STATUS` (10_state.md R24, 60_exceptions.md R118) -/

/-- The states agree on everything but `STATUS`, and there on `EC`, `SC` and `A`. -/
structure AgreeButSticky (t t' : State) : Prop where
  rest : t'.setStatus t.status = t
  ec   : statusEc t'.status = statusEc t.status
  sc   : statusSc t'.status = statusSc t.status
  a    : statusA t'.status = statusA t.status

/-- Both commands completed, in states that agree but for `STK`. -/
def AnswerAlike (o o' : Host.Outcome State Fault Refusal) : Prop :=
  ∃ t t', o = .next t ∧ o' = .next t' ∧ AgreeButSticky t t'

section
variable (st : BitVec 14)

/-- Ending `ok` writes `EC`, `SC` and `A` afresh. -/
theorem alike_okFlag (s : State) (a : Bool) : AnswerAlike (okFlag s a) (okFlag (s.setStatus st) a) :=
  ⟨_, _, rfl, rfl, rfl, by simp, by simp, by simp⟩
theorem alike_ok (s : State) : AnswerAlike (ok s) (ok (s.setStatus st)) := alike_okFlag st s false
theorem alike_raise (s : State) (c : ErrClass) (sc : BitVec 8) :
    AnswerAlike (raise s c sc) (raise (s.setStatus st) c sc) :=
  ⟨_, _, rfl, rfl, rfl, rfl, rfl, rfl⟩
theorem alike_raiseIllegal (s : State) : AnswerAlike (raiseIllegal s) (raiseIllegal (s.setStatus st)) :=
  alike_raise st s .illegal 0
theorem alike_writeReg (s : State) (i : Reg) (w : Word) :
    AnswerAlike (writeReg s i w) (writeReg (s.setStatus st) i w) := alike_ok st (s.setReg i w)

/-- A check that both runs make alike leads to answers that are alike. -/
theorem alike_ite {c : Prop} [Decidable c] {o o' p p' : Host.Outcome State Fault Refusal} (ho : AnswerAlike o o')
    (hp : AnswerAlike p p') : AnswerAlike (if c then o else p) (if c then o' else p') := by
  split
  · exact ho
  · exact hp

/-- Said of any buffer `m`, so that the kernel never compares the stores of two runs cell by cell. -/
theorem alike_sysfix (s : State) (m : Memory) :
    AnswerAlike (ok (sysfix (s.setMem m))) (ok (sysfix ((s.setStatus st).setMem m))) :=
  alike_ok st (sysfix (s.setMem m))
theorem alike_rawWriteQuad (s : State) (a : Nat) (q : Quad) :
    AnswerAlike (rawWriteQuad s a q) (rawWriteQuad (s.setStatus st) a q) :=
  alike_ite (alike_ok st (s.rawWrite _)) (alike_raise st s ..)
theorem alike_updateQuad (s : State) (a : Nat) (q : Quad) :
    AnswerAlike (updateQuad s a q) (updateQuad (s.setStatus st) a q) :=
  alike_ite (alike_sysfix st s _) (alike_raise st s ..)
theorem alike_mapUpdate (s : State) (base q v : Nat) :
    AnswerAlike (mapUpdate s base q v) (mapUpdate (s.setStatus st) base q v) := alike_updateQuad st s ..
theorem alike_verifyCommand (s : State) (ra : Reg) (p : Payload) :
    AnswerAlike (verifyCommand s ra p) (verifyCommand (s.setStatus st) ra p) :=
  alike_ite (alike_writeReg st s ..) (alike_raise st s ..)
theorem alike_fixCommand (s : State) (p : Payload) :
    AnswerAlike (fixCommand s p) (fixCommand (s.setStatus st) p) :=
  alike_ite (alike_ok st (s.rawWrite _)) (alike_raise st s ..)

/-- Control register 0 is the only one that holds `STATUS`. -/
theorem controlRegister_setStatus (s : State) {crn : BitVec 3} (h : crn ≠ 0) :
    controlRegister (s.setStatus st) crn = controlRegister s crn := by
  unfold controlRegister
  split
  · next h0 => exact absurd (BitVec.eq_of_toNat_eq h0) h
  all_goals rfl

theorem alike_execRdcr (ra : Reg) {crn : BitVec 3} (s : State) (h : crn ≠ 0) :
    AnswerAlike (execRdcr ra crn s) (execRdcr ra crn (s.setStatus st)) := by
  simp only [execRdcr, controlRegister_setStatus st s h]
  cases controlRegister s crn with
  | some v => exact alike_writeReg st s ra v
  | none => exact alike_raiseIllegal st s

theorem alike_execRdvl (ra : Reg) (n : BitVec 8) (w : BitVec 3) (s : State) :
    AnswerAlike (execRdvl ra n w s) (execRdvl ra n w (s.setStatus st)) := by
  have hrec : violationRecord (s.setStatus st) n = violationRecord s n := rfl
  simp only [execRdvl, hrec]
  cases recordWord (violationRecord s n) w with
  | some v => exact alike_ite (alike_writeReg st s ra v) (alike_raise st s ..)
  | none => exact alike_raiseIllegal st s

theorem alike_execPdec (s : State) : AnswerAlike (execPdec s) (execPdec (s.setStatus st)) := by
  have hchecks : presetChecks (s.setStatus st) = presetChecks s := rfl
  simp only [execPdec, hchecks, State.setStatus_mem, State.setStatus_cfg]
  cases firstFailure (presetChecks s) with
  | some sc => exact alike_raise st ((s.setKind .none).setNviol 0) .structural sc
  | none =>
    cases (decodeFields s.mem s.cfg.fieldTable).violations with
    | nil => exact alike_ok st (acceptPreset s)
    | cons v vs => exact alike_raise st (rejectPreset s (v :: vs)) .fieldRange 0

theorem alike_execSdec (s : State) : AnswerAlike (execSdec s) (execSdec (s.setStatus st)) := by
  have hchecks : systemChecks (s.setStatus st) = systemChecks s := rfl
  simp only [execSdec, hchecks]
  cases firstFailure (systemChecks s) with
  | some sc => exact alike_raise st (s.setKind .none) .structural sc
  | none => exact alike_ok st (s.setKind .system)

/-- Only `RDCR` of `STATUS` reads it: every check and every value written is the same with another `STATUS`. -/
theorem alike_exec (i : Instr) (s : State) (h : ∀ ra, i ≠ .rdcr ra 0) :
    AnswerAlike (exec i s) (exec i (s.setStatus st)) := by
  cases i with
  | nop => exact alike_ok st s
  | ldi ra imm32 => exact alike_writeReg st s ..
  | ldb ra off => exact alike_ite (alike_writeReg st s ..) (alike_raise st s ..)
  | stb ra off =>
    exact alike_ite (alike_ite (alike_ok st (s.rawWrite _)) (alike_raise st s ..)) (alike_raise st s ..)
  | rdcr ra crn => exact alike_execRdcr st ra s fun h0 => h ra (h0 ▸ rfl)
  | wrcr ra => exact alike_ite (alike_ok st ((s.setLen _).setKind .none)) (alike_raise st s ..)
  | srst => exact alike_ok 0 s.resetUnit
  | dec28 ra off => exact alike_ite (alike_writeReg st s ..) (alike_raise st s ..)
  | enc28 ra off => exact alike_ite (alike_rawWriteQuad st s ..) (alike_raise st s ..)
  | decso ra rb rc off => exact alike_ite (alike_writeReg st s ..) (alike_raise st s ..)
  | encso ra off => exact alike_ite (alike_rawWriteQuad st s ..) (alike_raise st s ..)
  | csum ra lo hi => exact alike_ite (alike_writeReg st s ..) (alike_raise st s ..)
  | csvp ra => exact alike_verifyCommand st s ..
  | csvs ra => exact alike_verifyCommand st s ..
  | csfp => exact alike_fixCommand st s ..
  | csfs => exact alike_fixCommand st s ..
  | pdec => exact alike_execPdec st s
  | penc ra => exact alike_ite (alike_writeReg st s ..) (alike_raise st s ..)
  | pfld ra fid =>
    exact alike_ite (alike_ite (alike_writeReg st s ..) (alike_raise st s ..)) (alike_raise st s ..)
  | rdvl ra n w => exact alike_execRdvl st ra n w s
  | sdec => exact alike_execSdec st s
  | senc ra => exact alike_ite (alike_writeReg st s ..) (alike_raise st s ..)
  | ccget ra rb rc =>
    exact alike_ite (alike_raiseIllegal st s) (alike_ite (alike_raise st s ..)
      (alike_ite (alike_okFlag st ((s.setReg ra _).setReg rb _) _) (alike_raise st s ..)))
  | ccset ra rb rc =>
    exact alike_ite (alike_raise st s ..)
      (alike_ite (alike_ite (alike_sysfix st s _) (alike_raise st s ..)) (alike_raise st s ..))
  | unpk3 ra rb rc off =>
    exact alike_ite (alike_ite (alike_ok st (((s.setReg ra _).setReg rb _).setReg rc _)) (alike_raise st s ..))
      (alike_raiseIllegal st s)
  | pk3 ra rb rc off => exact alike_ite (alike_rawWriteQuad st s ..) (alike_raise st s ..)
  | pmiget ra rb =>
    exact alike_ite (alike_raise st s ..) (alike_ite (alike_okFlag st (s.setReg ra _) _) (alike_raise st s ..))
  | pmiset ra rb =>
    exact alike_ite (alike_raise st s ..)
      (alike_ite (alike_ite (alike_mapUpdate st s ..) (alike_raise st s ..)) (alike_raise st s ..))
  | pmoget ra rb =>
    exact alike_ite (alike_raise st s ..) (alike_ite (alike_writeReg st s ..) (alike_raise st s ..))
  | pmoset ra rb =>
    exact alike_ite (alike_raise st s ..)
      (alike_ite (alike_ite (alike_mapUpdate st s ..) (alike_raise st s ..)) (alike_raise st s ..))
  | pedget ra k => exact alike_ite (alike_raise st s ..) (alike_writeReg st s ..)
  | pedset ra k =>
    exact alike_ite (alike_raise st s ..)
      (alike_ite (alike_ite (alike_updateQuad st s ..) (alike_raise st s ..)) (alike_updateQuad st s ..))

end

/-- Settles O22: both runs make the same checks and write the same values. -/
theorem statusSteersNoCommand : Obligations.StatusSteersNoCommand := by
  intro i s st h
  obtain ⟨t, t', hs, hs', agree⟩ := alike_exec st i s h
  exact ⟨t, t', hs, hs', agree.rest, agree.ec, agree.sc, agree.a⟩

end Sys2Proof.Machine

/-! Memory (20_memory.md): what a raw write and a system update do to the validation latch, and where a raw access
past `LEN` is turned away. -/

namespace Sys2Proof.Machine

/-! ### The validation latch (20_memory.md R36) -/

/-- A raw write is none of the two decoders and `SRST`, so it ends in one of the ways of `Ending`. -/
theorem ending_of_isRawWrite {i : Instr} {s t : State} (hw : isRawWrite i = true) (h : exec i s = .next t) :
    Ending i s t :=
  exec_ending h (by rintro rfl; cases hw) (by rintro rfl; cases hw) (by rintro rfl; cases hw)

/-- A system update is none of them either. -/
theorem ending_of_isSystemUpdate {i : Instr} {s t : State} (hu : isSystemUpdate i = true) (h : exec i s = .next t) :
    Ending i s t :=
  exec_ending h (by rintro rfl; cases hu) (by rintro rfl; cases hu) (by rintro rfl; cases hu)

/-- An ending with `EC != 0` is the one that writes `STATUS` alone (60_exceptions.md R112). -/
theorem Ending.eq_of_ec_ne_zero {i : Instr} {s t : State} (h : Ending i s t) (hec : statusEc t.status ≠ 0) :
    ∃ c sc, t = s.setStatus (statusErr c sc) := by
  cases h with
  | failed c sc hc => exact ⟨c, sc, rfl⟩
  | regs ps a hp ha hw hu => exact absurd (statusEc_ok _ _) hec
  | raw m hw hb hm => exact absurd (statusEc_ok _ _) hec
  | length ra n hi hn => exact absurd (statusEc_ok _ _) hec
  | update m hu hb hk hm => exact absurd (statusEc_ok _ _) hec

theorem Ending.kind_of_isRawWrite_ok {i : Instr} {s t : State} (h : Ending i s t) (hw : isRawWrite i = true)
    (hec : statusEc t.status = 0) : t.kind = .none := by
  cases h with
  | failed c sc hc => exact absurd ((statusEc_err c sc).symm.trans hec) (errCode_ne_zero c)
  | regs ps a hp ha hw' hu => rw [hw] at hw'; cases hw'
  | raw m hw' hb hm => rfl
  | length ra n hi hn => rfl
  | update m hu hb hk hm => rw [isSystemUpdate_of_isRawWrite hw] at hu; cases hu

theorem Ending.kind_of_isSystemUpdate {i : Instr} {s t : State} (h : Ending i s t) (hu : isSystemUpdate i = true) :
    t.kind = s.kind := by
  cases h with
  | failed c sc hc => rfl
  | regs ps a hp ha hw hu' => rw [hu] at hu'; cases hu'
  | raw m hw hb hm => rw [isSystemUpdate_of_isRawWrite hw] at hu; cases hu
  | length ra n hi hn => subst hi; cases hu
  | update m hu' hb hk hm => rfl

/-- Settles O23: the two classes of commands, read off the ways of `Ending`, and the host's two writes. -/
theorem rawWritesClearLatch : Obligations.RawWritesClearLatch := by
  refine ⟨fun i s t hw h hec => ?_, fun i s t hw h hec => ?_, fun a b s t h => ?_, fun n s t h => ?_,
    fun i s t hu h => ?_⟩
  · exact (ending_of_isRawWrite hw h).kind_of_isRawWrite_ok hw hec
  · obtain ⟨c, sc, rfl⟩ := (ending_of_isRawWrite hw h).eq_of_ec_ne_zero hec
    exact ⟨rfl, rfl, rfl⟩
  · injection h with h
    subst h
    rfl
  · injection h with h
    subst h
    rfl
  · exact (ending_of_isSystemUpdate hu h).kind_of_isSystemUpdate hu

/-! ### Commands turned away by a check (60_exceptions.md R110, R113) -/

/-- The command completed with class `c` and sub-code `sc`, and wrote nothing but `STATUS`. -/
def TurnedAway (s : State) (o : Host.Outcome State Fault Refusal) (c : ErrClass) (sc : BitVec 8) : Prop :=
  ∃ t, o = .next t ∧ FailedOnly s t c sc

section
variable {s : State} {c : ErrClass} {sc : BitVec 8} {p : Prop} [Decidable p] {o o' : Host.Outcome State Fault Refusal}

/-- The check that fails raises its class. -/
theorem turnedAway_of_not (h : ¬ p) : TurnedAway s (if p then o else raise s c sc) c sc := by
  rw [if_neg h]
  exact raise_failedOnly s c sc

/-- A check that passes leaves the answer to those after it. -/
theorem TurnedAway.of_passed (h : p) (ho : TurnedAway s o c sc) : TurnedAway s (if p then o else o') c sc := by
  rw [if_pos h]
  exact ho

end

/-! ### The bounds checks (20_memory.md R27) -/

theorem not_admits_of_lt {s : State} {a n : Nat} (hn : 0 < n) (h : s.len.toNat < a + n) : ¬ s.admits a n = true := by
  rw [State.admits_eq_true]
  omega

/-- A window that is not empty and ends at or past `LEN` is not admitted. -/
theorem not_admits_window {s : State} {lo hi : Nat} (h : lo ≤ hi) (hl : s.len.toNat ≤ hi) :
    ¬ s.admits lo (hi + 1 - lo) = true :=
  not_admits_of_lt (by omega) (by omega)

/-- The preset window and its checksum byte end at byte 518 (41_checksum.md R62). -/
theorem not_covers_preset {s : State} (h : s.len.toNat < 519) : ¬ covers s presetPayload = true := by
  rw [covers_eq_true]
  rintro ⟨-, hpos⟩
  have hpos' : 518 < s.len.toNat := hpos
  omega

/-- The system window and its checksum byte end at the higher of the two (41_checksum.md R63). -/
theorem not_covers_system {s : State} (h : s.len.toNat ≤ max s.cfg.sysCsumHi s.cfg.sysCsumPos) :
    ¬ covers s (systemPayload s.cfg) = true := by
  rw [covers_eq_true]
  simp only [systemPayload]
  omega

theorem rawWriteQuad_turnedAway {s : State} {a : Nat} (q : Quad) (h : s.len.toNat < a + 4) :
    TurnedAway s (rawWriteQuad s a q) .bounds 0 :=
  turnedAway_of_not (not_admits_of_lt (by omega) h)

/-! ### Operands in range (60_exceptions.md R110) -/

/-- The offset `2^24` moves the range of a signed field to that of a 28-bit field (40_varint.md R52). -/
theorem inRange_rawSO {v : Int} :
    inRange (rawSO v) 0 Config.max28 = true ↔ -16777216 ≤ v ∧ v ≤ 251658239 := by
  simp only [inRange_eq_true, rawSO, Config.soBias, Config.max28]
  omega

/-- A pattern is a sub-value exactly when it is at most 127 unsigned: read signed, one with the top bit is negative. -/
theorem inRange_sval_subValue {w : Word} : inRange (sval w) 0 127 = true ↔ w.toNat ≤ 127 := by
  rw [inRange_eq_true, sval, BitVec.toInt_eq_toNat_cond]
  split <;> omega

/-- Three sub-values leave no bit in the mask of `PK3` (43_system.md R91). -/
theorem packMask_eq_zero {v1 v2 v3 : Int} (h1 : inRange v1 0 127 = true) (h2 : inRange v2 0 127 = true)
    (h3 : inRange v3 0 127 = true) : packMask v1 v2 v3 = 0 := by
  simp only [packMask, h1, h2, h3]
  rfl

theorem wfThreeDestinations_of_ne {ra rb rc : Reg} (hab : ra ≠ rb) (hac : ra ≠ rc) (hbc : rb ≠ rc) :
    wfThreeDestinations ra rb rc = true := by
  simp [wfThreeDestinations, hab, hac, hbc]

/-! ### Raw accesses past `LEN` -/

/-- The commands that read a 28-bit field or a group. -/
theorem quadReads_turnedAway (ra rb rc : Reg) {off : BitVec 10} {s : State} (h : s.len.toNat < off.toNat + 4) :
    TurnedAway s (exec (.dec28 ra off) s) .bounds 0 ∧ TurnedAway s (exec (.decso ra rb rc off) s) .bounds 0 ∧
      (ra ≠ rb → ra ≠ rc → rb ≠ rc → TurnedAway s (exec (.unpk3 ra rb rc off) s) .bounds 0) :=
  have past : ¬ s.admits (addrOf off) 4 = true := not_admits_of_lt (by omega) h
  ⟨turnedAway_of_not past, turnedAway_of_not past, fun hab hac hbc =>
    .of_passed (wfThreeDestinations_of_ne hab hac hbc) (turnedAway_of_not past)⟩

/-- `STB` of a byte; its operand check passes first (60_exceptions.md R113). -/
theorem execStb_turnedAway {ra : Reg} {off : BitVec 10} {s : State} (h0 : 0 ≤ (s.reg ra).toInt)
    (h1 : (s.reg ra).toInt ≤ 255) (h : s.len.toNat < off.toNat + 1) : TurnedAway s (execStb ra off s) .bounds 0 :=
  .of_passed ((inRange_eq_true _ _ _).2 ⟨h0, h1⟩) (turnedAway_of_not (not_admits_of_lt Nat.one_pos h))

theorem execEnc28_turnedAway {ra : Reg} {off : BitVec 10} {s : State} (h0 : 0 ≤ (s.reg ra).toInt)
    (h1 : (s.reg ra).toInt ≤ 268435455) (h : s.len.toNat < off.toNat + 4) :
    TurnedAway s (execEnc28 ra off s) .bounds 0 :=
  .of_passed ((inRange_eq_true _ _ _).2 ⟨h0, h1⟩) (rawWriteQuad_turnedAway _ h)

theorem execEncso_turnedAway {ra : Reg} {off : BitVec 10} {s : State} (h0 : -16777216 ≤ (s.reg ra).toInt)
    (h1 : (s.reg ra).toInt ≤ 251658239) (h : s.len.toNat < off.toNat + 4) :
    TurnedAway s (execEncso ra off s) .bounds 0 :=
  .of_passed (inRange_rawSO.2 ⟨h0, h1⟩) (rawWriteQuad_turnedAway _ h)

theorem execPk3_turnedAway {ra rb rc : Reg} {off : BitVec 10} {s : State} (ha : (s.reg ra).toNat ≤ 127)
    (hb : (s.reg rb).toNat ≤ 127) (hc : (s.reg rc).toNat ≤ 127) (h : s.len.toNat < off.toNat + 4) :
    TurnedAway s (execPk3 ra rb rc off s) .bounds 0 :=
  .of_passed (packMask_eq_zero (inRange_sval_subValue.2 ha) (inRange_sval_subValue.2 hb) (inRange_sval_subValue.2 hc))
    (rawWriteQuad_turnedAway _ h)

/-- Settles O54: each command reaches its bounds check, the operand in range where that is looked at first, and the
check fails. -/
theorem accessesPastLengthRefused : Obligations.AccessesPastLengthRefused := by
  refine ⟨fun ra off s h => ?ldb, fun ra rb rc off s h => quadReads_turnedAway ra rb rc h,
    fun ra lo hi s hle h => ?csum, fun ra s h => ?preset, fun ra s h => ?system,
    fun ra off s h0 h1 h => execStb_turnedAway h0 h1 h, fun ra off s h0 h1 h => execEnc28_turnedAway h0 h1 h,
    fun ra off s h0 h1 h => execEncso_turnedAway h0 h1 h,
    fun ra rb rc off s ha hb hc h => execPk3_turnedAway ha hb hc h⟩
  case ldb => exact turnedAway_of_not (not_admits_of_lt Nat.one_pos h)
  case csum => exact turnedAway_of_not (not_admits_window hle h)
  case preset => exact ⟨turnedAway_of_not (not_covers_preset h), turnedAway_of_not (not_covers_preset h)⟩
  case system => exact ⟨turnedAway_of_not (not_covers_system h), turnedAway_of_not (not_covers_system h)⟩

end Sys2Proof.Machine

/-! Encoding (30_encoding.md): the decoder and the encoder are each other's inverse on well-formed instructions, and
a word the decoder refuses ends `ILLEGAL`. -/

namespace Sys2Proof

/-! ### The decoding procedure, said once (30_encoding.md R46) -/

/-- The bits that the sub-format fixes have their value in `w` (30_encoding.md R42). -/
def HasFixedBits (w : CommandWord) (f : SubFormat) : Prop := w &&& subFormatMask f = matchWord (fieldOp w) f

/-- A word decodes exactly when its opcode has a row, its fixed bits are the row's and the operands are well formed. -/
theorem decode_eq_ok_iff {w : CommandWord} {i : Instr} :
    decode w = .ok i ↔
      ∃ row, opcodeRow (fieldOp w) = some row ∧ HasFixedBits w row.format ∧ row.build w = i ∧ i.wf = true := by
  constructor
  · intro h
    unfold decode at h
    split at h
    · cases h
    next row hrow =>
    split at h
    next hfix =>
      split at h
      next hwf =>
        cases h
        exact ⟨row, hrow, hfix, rfl, hwf⟩
      · cases h
    · cases h
  · rintro ⟨row, hrow, hfix, rfl, hwf⟩
    simp only [decode, hrow]
    exact (if_pos hfix).trans (if_pos hwf)

theorem decode_of_opcodeRow_eq_none {w : CommandWord} (h : opcodeRow (fieldOp w) = none) :
    decode w = .error .reservedOpcode := by
  simp only [decode, h]

/-! ### Decoding an encoded word -/

/-- The word of every instruction has its row's opcode and fixed bits, constructor by constructor. -/
theorem fixedBits_encode (i : Instr) : Laws.FixedBits.Statement i := by
  cases i with
  | nop => exact Laws.FixedBits.nop
  | ldi ra imm32 => exact Laws.FixedBits.ldi ra imm32
  | ldb ra off => exact Laws.FixedBits.ldb ra off
  | stb ra off => exact Laws.FixedBits.stb ra off
  | rdcr ra crn => exact Laws.FixedBits.rdcr ra crn
  | wrcr ra => exact Laws.FixedBits.wrcr ra
  | srst => exact Laws.FixedBits.srst
  | dec28 ra off => exact Laws.FixedBits.dec28 ra off
  | enc28 ra off => exact Laws.FixedBits.enc28 ra off
  | decso ra rb rc off => exact Laws.FixedBits.decso ra rb rc off
  | encso ra off => exact Laws.FixedBits.encso ra off
  | csum ra lo hi => exact Laws.FixedBits.csum ra lo hi
  | csvp ra => exact Laws.FixedBits.csvp ra
  | csvs ra => exact Laws.FixedBits.csvs ra
  | csfp => exact Laws.FixedBits.csfp
  | csfs => exact Laws.FixedBits.csfs
  | pdec => exact Laws.FixedBits.pdec
  | penc ra => exact Laws.FixedBits.penc ra
  | pfld ra fid => exact Laws.FixedBits.pfld ra fid
  | rdvl ra n w => exact Laws.FixedBits.rdvl ra n w
  | sdec => exact Laws.FixedBits.sdec
  | senc ra => exact Laws.FixedBits.senc ra
  | ccget ra rb rc => exact Laws.FixedBits.ccget ra rb rc
  | ccset ra rb rc => exact Laws.FixedBits.ccset ra rb rc
  | unpk3 ra rb rc off => exact Laws.FixedBits.unpk3 ra rb rc off
  | pk3 ra rb rc off => exact Laws.FixedBits.pk3 ra rb rc off
  | pmiget ra rb => exact Laws.FixedBits.pmiget ra rb
  | pmiset ra rb => exact Laws.FixedBits.pmiset ra rb
  | pmoget ra rb => exact Laws.FixedBits.pmoget ra rb
  | pmoset ra rb => exact Laws.FixedBits.pmoset ra rb
  | pedget ra k => exact Laws.FixedBits.pedget ra k
  | pedset ra k => exact Laws.FixedBits.pedset ra k

/-- The row of an encoded word reads back the instruction: each operand field returns what was packed into it. -/
theorem build_encode (i : Instr) :
    (opcodeRow (fieldOp (encode i))).map (fun row => row.build (encode i)) = some i := by
  cases i <;> simp [encode, opcodeRow]

/-- Settles O1: the row of the word has its fixed bits there and builds the instruction again. -/
theorem decodeInvertsEncode : Obligations.DecodeInvertsEncode := by
  intro i hwf
  obtain ⟨row, hrow, hfix⟩ := fixedBits_encode i
  have hbuild : row.build (encode i) = i := by simpa [hrow] using build_encode i
  exact decode_eq_ok_iff.2 ⟨row, hrow, hfix, hbuild, hwf⟩

/-! ### The fixed bits, field by field -/

section
variable {w : CommandWord} {f : SubFormat}

/-- Below the opcode, a bit under the mask is the one `match` gives: 0, but for bit 0 of `RC1`. -/
theorem HasFixedBits.getLsbD_eq (h : HasFixedBits w f) {i : Nat} (hi : i < 56)
    (hm : (subFormatMask f).getLsbD i = true) : w.getLsbD i = (subFormatLow f).getLsbD i := by
  have hbit := congrArg (fun v => v.getLsbD i) h
  simpa [matchWord, hm, hi] using hbit

/-- A field that the mask covers is the one of `match`. -/
theorem HasFixedBits.wordField_eq (h : HasFixedBits w f) {lo n : Nat} (hn : lo + n ≤ 56)
    (hm : ∀ i < n, (subFormatMask f).getLsbD (lo + i) = true) :
    wordField w lo n = wordField (subFormatLow f) lo n := by
  ext i hi
  simpa [wordField] using h.getLsbD_eq (by omega) (hm i hi)

/-- Every sub-format fixes `z` to 0 (30_encoding.md R41). -/
theorem HasFixedBits.z_eq_zero (h : HasFixedBits w f) : wordField w 32 12 = 0 := by
  rw [h.wordField_eq (by decide) (by cases f <;> decide)]
  cases f <;> decide

/-- A register field that the sub-format does not use is 0. -/
theorem HasFixedBits.unusedReg (h : HasFixedBits w f) (p : Nat) (hp : p + 4 ≤ 56 := by decide)
    (hm : ∀ i < 4, (subFormatMask f).getLsbD (p + i) = true := by decide)
    (hl : wordField (subFormatLow f) p 4 = 0 := by decide) : 0 = regOfField (wordField w p 4) := by
  rw [h.wordField_eq hp hm, hl]
  rfl

/-- An immediate without operands is the one of `match`. -/
theorem HasFixedBits.fixedImm (h : HasFixedBits w f)
    (hm : ∀ i < 32, (subFormatMask f).getLsbD (0 + i) = true := by decide) :
    wordField (subFormatLow f) 0 32 = fieldImm32 w := (h.wordField_eq (by decide) hm).symm

end

/-! ### A word with `z = 0` is its fields, packed -/

/-- A field put back in its place has the word's bits there and no others. -/
theorem getLsbD_placeField (w : CommandWord) {lo n k : Nat} (hn : lo + n ≤ k) (i : Nat) :
    ((wordField w lo n).setWidth k <<< lo).getLsbD i = (decide (lo ≤ i ∧ i < lo + n) && w.getLsbD i) := by
  by_cases hlo : lo ≤ i
  · have hi : lo + (i - lo) = i := by omega
    by_cases hin : i < lo + n
    · have hk : i < k := by omega
      have hd : i - lo < n := by omega
      simp [wordField, hlo, hin, hi, hk, hd]
    · have hd : ¬ i - lo < n := by omega
      simp [wordField, hlo, hin, hd]
  · have hlt : i < lo := by omega
    simp [hlo, hlt]

/-- The same for a field whose place is the lowest. -/
theorem getLsbD_setWidth_wordField (w : CommandWord) {n k : Nat} (hn : n ≤ k) (i : Nat) :
    ((wordField w 0 n).setWidth k).getLsbD i = (decide (i < n) && w.getLsbD i) := by
  simpa using getLsbD_placeField w (lo := 0) (by omega : 0 + n ≤ k) i

/-- The bits of `z` are the only ones outside the fields that are packed. -/
theorem packWord_fields {w : CommandWord} (hz : wordField w 32 12 = 0) :
    packWord (fieldOp w) (fieldRa w) (fieldRb w) (fieldRc w) (fieldImm32 w) = w := by
  have hzbit : ∀ i, w.getLsbD i = true → ¬ (32 ≤ i ∧ i < 44) := by
    intro i hb hi
    have hout : 32 ≤ i → 44 ≤ i := by simpa [hz, hb] using getLsbD_placeField w (by decide : 32 + 12 ≤ 64) i
    omega
  show (wordField w 56 8).setWidth 64 <<< 56 ||| (wordField w 52 4).setWidth 64 <<< 52
    ||| (wordField w 48 4).setWidth 64 <<< 48 ||| (wordField w 44 4).setWidth 64 <<< 44
    ||| (wordField w 0 32).setWidth 64 = w
  refine BitVec.eq_of_getLsbD_eq fun i hi => ?_
  simp only [BitVec.getLsbD_or, getLsbD_placeField w (by decide : 56 + 8 ≤ 64),
    getLsbD_placeField w (by decide : 52 + 4 ≤ 64), getLsbD_placeField w (by decide : 48 + 4 ≤ 64),
    getLsbD_placeField w (by decide : 44 + 4 ≤ 64), getLsbD_setWidth_wordField w (by decide : 32 ≤ 64)]
  cases hb : w.getLsbD i with
  | false => simp
  | true =>
    have hz := hzbit i hb
    simp only [Bool.and_true, ← Bool.decide_or, decide_eq_true_eq]
    omega

/-! ### The immediate operands put back (30_encoding.md R42) -/

section
variable {w : CommandWord} {f : SubFormat}

/-- An immediate with one operand field is that field, the bits above being fixed to 0. -/
theorem HasFixedBits.oneFieldImm (h : HasFixedBits w f) {n : Nat} (hn : n ≤ 32 := by decide)
    (hl : subFormatLow f = 0 := by rfl)
    (hm : ∀ i < 32, n ≤ i → (subFormatMask f).getLsbD i = true := by decide) :
    (wordField w 0 n).setWidth 32 = fieldImm32 w := by
  refine BitVec.eq_of_getLsbD_eq fun i hi => ?_
  have himm : (fieldImm32 w).getLsbD i = w.getLsbD i := by simp [fieldImm32, wordField, hi]
  rw [getLsbD_setWidth_wordField w hn, himm]
  by_cases hin : i < n
  · simp [hin]
  · have hb : w.getLsbD i = false := by simpa [hl] using h.getLsbD_eq (by omega) (hm i hi (by omega))
    simp [hb]

/-- An immediate with two operand fields is the two in their places, all other bits being fixed to 0. -/
theorem HasFixedBits.twoFieldImm (h : HasFixedBits w f) {n p m : Nat} (hn : n ≤ 32 := by decide)
    (hp : p + m ≤ 32 := by decide) (hl : subFormatLow f = 0 := by rfl)
    (hm : ∀ i < 32, ¬ (p ≤ i ∧ i < p + m) → n ≤ i → (subFormatMask f).getLsbD i = true := by decide) :
    ((wordField w p m).setWidth 32 <<< p) ||| (wordField w 0 n).setWidth 32 = fieldImm32 w := by
  refine BitVec.eq_of_getLsbD_eq fun i hi => ?_
  have himm : (fieldImm32 w).getLsbD i = w.getLsbD i := by simp [fieldImm32, wordField, hi]
  rw [BitVec.getLsbD_or, getLsbD_placeField w hp, getLsbD_setWidth_wordField w hn, himm]
  by_cases hin : i < n
  · cases w.getLsbD i <;> simp [hin]
  by_cases hip : p ≤ i ∧ i < p + m
  · simp [hip, hin]
  · have hb : w.getLsbD i = false := by simpa [hl] using h.getLsbD_eq (by omega) (hm i hi hip (by omega))
    simp [hb]

end

/-! ### A word with the fixed bits is its operands' word -/

/-- The word of a sub-format with the opcode and the operand fields of `w`, and 0 in every other place. -/
def operandWord (w : CommandWord) : SubFormat → CommandWord
  | .N    => packWord (fieldOp w) 0 0 0 0
  | .R    => packWord (fieldOp w) (fieldRa w) 0 0 0
  | .RI   => packWord (fieldOp w) (fieldRa w) 0 0 (fieldImm32 w)
  | .RO   => packWord (fieldOp w) (fieldRa w) 0 0 (immOff (fieldOff w))
  | .RRRO => packWord (fieldOp w) (fieldRa w) (fieldRb w) (fieldRc w) (immOff (fieldOff w))
  | .RW   => packWord (fieldOp w) (fieldRa w) 0 0 (immWindow (fieldOff w) (fieldHi w))
  | .RC   => packWord (fieldOp w) (fieldRa w) 0 0 (immCrn (fieldCrn w))
  | .RC1  => packWord (fieldOp w) (fieldRa w) 0 0 1
  | .RF   => packWord (fieldOp w) (fieldRa w) 0 0 (immFid (fieldFid w))
  | .RV   => packWord (fieldOp w) (fieldRa w) 0 0 (immRecord (fieldFid w) (fieldRecordWord w))
  | .RRR  => packWord (fieldOp w) (fieldRa w) (fieldRb w) (fieldRc w) 0
  | .RR   => packWord (fieldOp w) (fieldRa w) (fieldRb w) 0 0
  | .RK   => packWord (fieldOp w) (fieldRa w) 0 0 (immK (fieldK w))

theorem packWord_op_congr {op op' : BitVec 8} {n : Nat} {ra rb rc : Reg} {imm : BitVec 32} (h : op.toNat = n)
    (h' : op'.toNat = n) : packWord op ra rb rc imm = packWord op' ra rb rc imm := by
  rw [BitVec.eq_of_toNat_eq (h.trans h'.symm)]

/-- Every row builds the instruction whose word is the row's sub-format filled with the operands it read. -/
theorem encode_build {w : CommandWord} {row : OpcodeRow} (h : opcodeRow (fieldOp w) = some row) :
    encode (row.build w) = operandWord w row.format := by
  unfold opcodeRow at h
  split at h
  case h_33 => cases h
  all_goals
    injection h with h
    subst h
    exact packWord_op_congr rfl ‹_›

/-- The fixed bits leave nothing of a word but its opcode and its operand fields. -/
theorem HasFixedBits.operandWord_eq {w : CommandWord} {f : SubFormat} (h : HasFixedBits w f) :
    operandWord w f = w := by
  have fill : ∀ {ra rb rc : Reg} {imm : BitVec 32}, ra = fieldRa w → rb = fieldRb w → rc = fieldRc w →
      imm = fieldImm32 w → packWord (fieldOp w) ra rb rc imm = w := by
    rintro _ _ _ _ rfl rfl rfl rfl
    exact packWord_fields h.z_eq_zero
  cases f with
  | N => exact fill (h.unusedReg 52) (h.unusedReg 48) (h.unusedReg 44) h.fixedImm
  | R => exact fill rfl (h.unusedReg 48) (h.unusedReg 44) h.fixedImm
  | RI => exact fill rfl (h.unusedReg 48) (h.unusedReg 44) rfl
  | RO => exact fill rfl (h.unusedReg 48) (h.unusedReg 44) h.oneFieldImm
  | RRRO => exact fill rfl rfl rfl h.oneFieldImm
  | RW => exact fill rfl (h.unusedReg 48) (h.unusedReg 44) h.twoFieldImm
  | RC => exact fill rfl (h.unusedReg 48) (h.unusedReg 44) h.oneFieldImm
  | RC1 => exact fill rfl (h.unusedReg 48) (h.unusedReg 44) h.fixedImm
  | RF => exact fill rfl (h.unusedReg 48) (h.unusedReg 44) h.oneFieldImm
  | RV => exact fill rfl (h.unusedReg 48) (h.unusedReg 44) h.twoFieldImm
  | RRR => exact fill rfl rfl rfl h.fixedImm
  | RR => exact fill rfl rfl (h.unusedReg 44) h.fixedImm
  | RK => exact fill rfl (h.unusedReg 48) (h.unusedReg 44) h.oneFieldImm

/-- Settles O2: the command's word and the word it was read from are both the row's operands put in place. -/
theorem encodeInvertsDecode : Obligations.EncodeInvertsDecode := by
  intro w i h
  obtain ⟨row, hrow, hfix, rfl, hwf⟩ := decode_eq_ok_iff.1 h
  refine ⟨?_, hwf⟩
  calc encode (row.build w) = operandWord w row.format := encode_build hrow
    _ = w := hfix.operandWord_eq

/-! ### Refused words (30_encoding.md R44) -/

/-- The gaps of the opcode map. -/
theorem opcodeRow_eq_none {op : BitVec 8}
    (h : (0x07 ≤ op.toNat ∧ op.toNat ≤ 0x0F) ∨ (0x14 ≤ op.toNat ∧ op.toNat ≤ 0x1F) ∨
      (0x25 ≤ op.toNat ∧ op.toNat ≤ 0x2F) ∨ (0x34 ≤ op.toNat ∧ op.toNat ≤ 0x3F) ∨ 0x4C ≤ op.toNat) :
    opcodeRow op = none := by
  unfold opcodeRow
  split
  case h_33 => rfl
  all_goals omega

/-- Settles O3: a reserved opcode has no row, and a word that decodes has `z = 0` among its fixed bits. -/
theorem reservedWordsRefused : Obligations.ReservedWordsRefused := by
  refine ⟨fun w h => decode_of_opcodeRow_eq_none (opcodeRow_eq_none h), fun w hz => ?_⟩
  cases hd : decode w with
  | error e => exact ⟨e, rfl⟩
  | ok i =>
    obtain ⟨row, -, hfix, -, -⟩ := decode_eq_ok_iff.1 hd
    exact absurd hfix.z_eq_zero hz

end Sys2Proof

namespace Sys2Proof.Machine

/-! ### What an illegal word does (30_encoding.md R44, 60_exceptions.md R112) -/

/-- Settles O6: the step takes the word off the host's list and raises `ILLEGAL`. -/
theorem illegalWordWritesOnlyStatus : Obligations.IllegalWordWritesOnlyStatus := by
  intro s w rest e hc hh hd
  have hstep : step s = raise (s.setHost rest) .illegal 0 :=
    calc step s = runHost s := step_of_wfCfg hc
      _ = issueWord w (s.setHost rest) := runHost_cons hh
      _ = raiseIllegal (s.setHost rest) := issueWord_of_error hd _
  rw [hstep]
  exact raise_failedOnly _ _ _

/-- The four commands with an extra constraint look at it before anything else; no other has an ill-formed term. -/
theorem exec_of_not_wf {i : Instr} (h : i.wf = false) (s : State) : exec i s = raiseIllegal s := by
  cases i with
  | rdcr ra crn =>
    have hnone : controlRegister s crn = none := controlRegister_eq_none.2 h
    simp only [exec, execRdcr, hnone]
  | rdvl ra n w =>
    have hnone : recordWord (violationRecord s n) w = none := recordWord_eq_none.2 h
    simp only [exec, execRdvl, hnone]
  | ccget ra rb rc =>
    have hsame : ra = rb := by simpa [Instr.wf, wfTwoDestinations] using h
    exact if_pos hsame
  | unpk3 ra rb rc off =>
    have hshared : ¬ wfThreeDestinations ra rb rc = true := Bool.eq_false_iff.1 h
    exact if_neg hshared
  | _ => cases h

/-- Settles O59: a decoded instruction is well formed, and an ill-formed one fails its own check. -/
theorem illegalFormsRefused : Obligations.IllegalFormsRefused := by
  refine ⟨fun i w hbad hd => ?_, fun i s hbad => ?_⟩
  · obtain ⟨-, hwf⟩ := encodeInvertsDecode w i hd
    rw [hbad] at hwf
    cases hwf
  · rw [exec_of_not_wf hbad]
    exact raise_failedOnly _ _ _

end Sys2Proof.Machine

/-! The 28-bit and signed-offset formats (40_varint.md): what each function gives in each of its cases, the laws of
R53, and where a value that cannot be encoded or stored is turned away. -/

namespace Sys2Proof.Machine

/-! ### Bit 7 of a byte (40_varint.md R49) -/

theorem toNat_and_low (b : Byte) : (b &&& 0x7F).toNat = b.toNat % 128 := by
  rw [BitVec.toNat_and]
  exact and_seven_bits _

theorem toNat_or_top (b : Byte) : (b ||| 0x80).toNat % 128 = b.toNat % 128 := by
  rw [BitVec.toNat_or]
  calc (b.toNat ||| 128) % 2 ^ 7 = b.toNat % 2 ^ 7 ||| 128 % 2 ^ 7 := Nat.or_mod_two_pow
    _ = b.toNat % 128 := Nat.or_zero _

/-- Clearing bit 7 changes exactly the bytes that have it set. -/
theorem and_low_eq_self_iff {b : Byte} : b &&& 0x7F = b ↔ b.getLsbD 7 = false := by
  have htop : b.getLsbD 7 = decide (128 ≤ b.toNat) :=
    (BitVec.msb_eq_getLsbD_last b).symm.trans (BitVec.msb_eq_decide b)
  rw [htop, decide_eq_false_iff_not, ← BitVec.toNat_inj, toNat_and_low]
  omega

/-! ### 28-bit fields (40_varint.md R49, R50) -/

theorem dec28_le (q : Quad) : dec28 q ≤ 268435455 := by
  rw [dec28_eq]
  omega

theorem dec28_or_top (q : Quad) :
    dec28 ⟨q.b0 ||| 0x80, q.b1 ||| 0x80, q.b2 ||| 0x80, q.b3 ||| 0x80⟩ = dec28 q := by
  simp only [dec28_eq, toNat_or_top]

theorem dec28_enc28 {v : Nat} (h : v ≤ 268435455) : dec28 (enc28 v) = v := by
  obtain ⟨h0, h1, h2, h3⟩ := enc28_toNat v
  rw [dec28_eq, h0, h1, h2, h3]
  omega

theorem enc28_dec28 (q : Quad) :
    enc28 (dec28 q) = ⟨q.b0 &&& 0x7F, q.b1 &&& 0x7F, q.b2 &&& 0x7F, q.b3 &&& 0x7F⟩ := by
  obtain ⟨h0, h1, h2, h3⟩ := enc28_toNat (dec28 q)
  have hsum := dec28_eq q
  apply Quad.ext_toNat
  · rw [h0, toNat_and_low]; omega
  · rw [h1, toNat_and_low]; omega
  · rw [h2, toNat_and_low]; omega
  · rw [h3, toNat_and_low]; omega

theorem enc28_dec28_eq_self_iff (q : Quad) :
    enc28 (dec28 q) = q ↔
      q.b0.getLsbD 7 = false ∧ q.b1.getLsbD 7 = false ∧ q.b2.getLsbD 7 = false ∧ q.b3.getLsbD 7 = false := by
  rw [enc28_dec28]
  cases q
  simp only [Quad.mk.injEq, and_low_eq_self_iff]

/-- Settles O25: the sum of the groups, from which the bound and bit 7 follow; `enc28` reaches every value. -/
theorem dec28SevenBitGroups : Obligations.Dec28SevenBitGroups := by
  refine ⟨fun q => ?_, dec28_le, fun q => (dec28_or_top q).symm, fun v hv => ⟨enc28 v, dec28_enc28 hv⟩⟩
  rw [dec28_eq]
  ring

/-! ### Signed-offset fields (40_varint.md R51, R52) -/

/-- The sentinel zero. -/
theorem decSO_zero (mn mx : Int) : decSO 0 mn mx = if mn + mx = 0 then 0 else mn := rfl

/-- The large-offset regime. -/
theorem decSO_of_large {r : Nat} (h : 16000000 < r) (mn mx : Int) : decSO r mn mx = (r : Int) - 16777216 := by
  have h0 : r ≠ 0 := by omega
  exact (if_neg h0).trans (if_pos h)

/-- The direct regime. -/
theorem decSO_of_direct {r : Nat} (h0 : 0 < r) (h : r ≤ 16000000) (mn mx : Int) : decSO r mn mx = r :=
  (if_neg h0.ne').trans (if_neg (Nat.not_lt.2 h))

/-- Settles O26: the three cases of `decSO`. -/
theorem signedOffsetCases : Obligations.SignedOffsetCases :=
  ⟨fun mn mx h => (decSO_zero mn mx).trans (if_pos h), fun mn mx h => (decSO_zero mn mx).trans (if_neg h),
    fun _ mn mx h => decSO_of_large h mn mx, fun _ mn mx h0 h => decSO_of_direct h0 h mn mx⟩

theorem decSO_large_bounds {r : Nat} (h : 16000000 < r) (hr : r ≤ 268435455) (mn mx : Int) :
    -777215 ≤ decSO r mn mx ∧ decSO r mn mx ≤ 251658239 := by
  rw [decSO_of_large h]
  omega

theorem decSO_direct_bounds {r : Nat} (h0 : 1 ≤ r) (h : r ≤ 16000000) (mn mx : Int) :
    1 ≤ decSO r mn mx ∧ decSO r mn mx ≤ 16000000 := by
  rw [decSO_of_direct h0 h]
  omega

/-- Only the sentinel zero leaves the range of a signed field, and then for the declared minimum. -/
theorem decSO_bounds_or_eq_min {r : Nat} (hr : r ≤ 268435455) (mn mx : Int) :
    (-777215 ≤ decSO r mn mx ∧ decSO r mn mx ≤ 251658239) ∨ decSO r mn mx = mn := by
  obtain rfl | ⟨h0, h⟩ | h : r = 0 ∨ (1 ≤ r ∧ r ≤ 16000000) ∨ 16000000 < r := by omega
  · rw [decSO_zero]
    split
    · left; decide
    · right; rfl
  · have := decSO_direct_bounds h0 h mn mx
    omega
  · exact .inl (decSO_large_bounds h hr mn mx)

/-! ### A value written and read back (40_varint.md R53) -/

theorem dec28_encSO {v : Int} (h0 : -16777216 ≤ v) (h : v ≤ 251658239) :
    dec28 (encSO v) = (v + 16777216).toNat :=
  dec28_enc28 (by simp only [rawSO, Config.soBias]; omega)

theorem dec28_encSO_min : dec28 (encSO (-16777216)) = 0 := dec28_encSO (by decide) (by decide)

/-- From the lower end of the large-offset regime on, a value returns. -/
theorem decSO_encSO {v : Int} (h0 : -777215 ≤ v) (h : v ≤ 251658239) (mn mx : Int) :
    decSO (dec28 (encSO v)) mn mx = v := by
  rw [dec28_encSO (by omega) h, decSO_of_large (by omega)]
  omega

/-- Below it the raw value falls into the direct regime. -/
theorem decSO_encSO_of_low {v : Int} (h0 : -16777215 ≤ v) (h : v ≤ -777216) (mn mx : Int) :
    decSO (dec28 (encSO v)) mn mx = v + 16777216 := by
  rw [dec28_encSO (by omega) (by omega), decSO_of_direct (by omega) (by omega)]
  omega

/-- A value returns under every declared range exactly when it is none of those below `-777215`; the raw value 0 does
not return where the sentinel stands for 0. -/
theorem decSO_encSO_eq_self_iff {v : Int} (h0 : -16777216 ≤ v) (h : v ≤ 251658239) :
    (∀ mn mx : Int, decSO (dec28 (encSO v)) mn mx = v) ↔ -777215 ≤ v := by
  refine ⟨fun hback => ?_, fun hv => decSO_encSO hv h⟩
  have hzero := hback 0 0
  by_contra hlow
  obtain rfl | hne : v = -16777216 ∨ -16777215 ≤ v := by omega
  · rw [dec28_encSO_min, decSO_zero] at hzero
    exact absurd hzero (by decide)
  · rw [decSO_encSO_of_low hne (by omega)] at hzero
    omega

/-- The declared range of a well-formed signed variant lies in the range of the large-offset regime
(42_preset.md R69 e). -/
theorem wfVariant_signed_bounds {v : Variant} (h : wfVariant v = true) (hs : v.enc = .signed) :
    -777215 ≤ (declaredRange v).1 ∧ (declaredRange v).2 ≤ 251658239 := by
  simp only [wfVariant, hs, Bool.and_eq_true, Bool.or_eq_true, decide_eq_true_eq] at h
  obtain ⟨⟨⟨-, hplain | hbounds⟩, -⟩, -⟩ := h
  · cases hplain
  · exact hbounds

/-- A small positive value has two raw values, its own and the one moved by `2^24`, which is the one written. -/
theorem decSO_two_raw_values {v : Nat} (h0 : 1 ≤ v) (h : v ≤ 16000000) (mn mx : Int) :
    decSO v mn mx = v ∧ decSO (v + 16777216) mn mx = v ∧ dec28 (encSO v) = v + 16777216 := by
  refine ⟨decSO_of_direct h0 h mn mx, ?_, ?_⟩
  · rw [decSO_of_large (by omega)]
    omega
  · rw [dec28_encSO (by omega) (by omega)]
    omega

/-- Settles O27: the laws of R53 one by one. -/
theorem varintLaws : Obligations.VarintLaws :=
  ⟨fun _ => dec28_enc28, enc28_dec28, enc28_dec28_eq_self_iff,
    fun _ mn mx hr => decSO_bounds_or_eq_min hr mn mx, fun _ mn mx h hr => decSO_large_bounds h hr mn mx,
    fun _ mn mx h0 h => decSO_direct_bounds h0 h mn mx, fun _ => decSO_encSO_eq_self_iff,
    fun _ mn mx h0 h => decSO_encSO_of_low h0 h mn mx,
    fun mn mx => ⟨dec28_encSO_min, by rw [dec28_encSO_min, decSO_zero]⟩, fun _ => wfVariant_signed_bounds,
    fun _ mn mx h0 h _ => decSO_two_raw_values h0 h mn mx⟩

/-! ### Operands that cannot be encoded or stored (60_exceptions.md R110) -/

theorem not_inRange_iff {v : Int} {lo hi : Nat} : ¬ inRange v lo hi = true ↔ v < lo ∨ hi < v := by
  rw [inRange_eq_true]
  omega

/-- A mask bit is its refusal's bit at its place. -/
theorem maskBit_eq (b : Bool) (n : Nat) : maskBit b n = b.toNat * 2 ^ n := by
  cases b
  · exact (Nat.zero_mul _).symm
  · exact (Nat.one_mul _).symm

/-- The mask of `PK3` holds a bit for each pattern above 127 (43_system.md R91). -/
theorem packMask_eq {w1 w2 w3 : Word} {b1 b2 b3 : Bool} (h1 : b1 = true ↔ 127 < w1.toNat)
    (h2 : b2 = true ↔ 127 < w2.toNat) (h3 : b3 = true ↔ 127 < w3.toNat) :
    packMask (sval w1) (sval w2) (sval w3) = b1.toNat + 2 * b2.toNat + 4 * b3.toNat := by
  have refused {w : Word} {b : Bool} (h : b = true ↔ 127 < w.toNat) : (!inRange (sval w) 0 127) = b := by
    rw [Bool.eq_iff_iff, h, Bool.not_eq_true', ← Bool.not_eq_true, inRange_sval_subValue, not_le]
  rw [packMask, refused h1, refused h2, refused h3, maskBit_eq, maskBit_eq, maskBit_eq]
  ring

/-- A mask with a refused operand is not 0. -/
theorem operandMask_ne_zero {b1 b2 b3 : Bool} (h : (b1 || b2 || b3) = true) :
    b1.toNat + 2 * b2.toNat + 4 * b3.toNat ≠ 0 := by
  revert b1 b2 b3
  decide

section
variable {ra : Reg} {s : State}

/-- `STB`, whatever the address. -/
theorem execStb_refuses (off : BitVec 10) (h : (s.reg ra).toInt < 0 ∨ 255 < (s.reg ra).toInt) :
    TurnedAway s (execStb ra off s) .operand 1 := turnedAway_of_not (not_inRange_iff.2 h)

/-- `ENC28`, whatever the address (40_varint.md R55). -/
theorem execEnc28_refuses (off : BitVec 10) (h : (s.reg ra).toInt < 0 ∨ 268435455 < (s.reg ra).toInt) :
    TurnedAway s (execEnc28 ra off s) .operand 1 := turnedAway_of_not (not_inRange_iff.2 h)

/-- `ENCSO`, whatever the address (40_varint.md R57). -/
theorem execEncso_refuses (off : BitVec 10) (h : (s.reg ra).toInt < -16777216 ∨ 251658239 < (s.reg ra).toInt) :
    TurnedAway s (execEncso ra off s) .operand 1 := by
  refine turnedAway_of_not fun hin => ?_
  obtain ⟨h0, h1⟩ : -16777216 ≤ (s.reg ra).toInt ∧ (s.reg ra).toInt ≤ 251658239 := inRange_rawSO.1 hin
  omega

theorem execWrcr_refuses (h : (s.reg ra).toInt < 0 ∨ 528 < (s.reg ra).toInt) :
    TurnedAway s (execWrcr ra s) .operand 1 := turnedAway_of_not (not_inRange_iff.2 h)

/-- `PEDSET` of the parameter id; the latch is looked at first (60_exceptions.md R113). -/
theorem execPedset_refuses (hk : s.kind = .system) (h : (s.reg ra).toInt < 0 ∨ 268435455 < (s.reg ra).toInt) :
    TurnedAway s (execPedset ra 0 s) .operand 1 := by
  have hid : execPedset ra 0 s = if inRange (sval (s.reg ra)) 0 Config.max28 then
      updateQuad s (pedalAddr s.cfg 0) (enc28 (sval (s.reg ra)).toNat) else raise s .operand 1 :=
    if_neg (not_not.2 hk)
  rw [hid]
  exact turnedAway_of_not (not_inRange_iff.2 h)

/-- `PK3`, whatever the address; the sub-code names every refused operand. -/
theorem execPk3_refuses {rb rc : Reg} {b1 b2 b3 : Bool} (off : BitVec 10) (h1 : b1 = true ↔ 127 < (s.reg ra).toNat)
    (h2 : b2 = true ↔ 127 < (s.reg rb).toNat) (h3 : b3 = true ↔ 127 < (s.reg rc).toNat)
    (h : (b1 || b2 || b3) = true) :
    TurnedAway s (execPk3 ra rb rc off s) .operand (BitVec.ofNat 8 (b1.toNat + 2 * b2.toNat + 4 * b3.toNat)) := by
  have hmask := packMask_eq h1 h2 h3
  have hne := operandMask_ne_zero h
  rw [← hmask] at hne ⊢
  exact turnedAway_of_not hne

end

/-- Settles O55: in each command the operand check comes before the address is looked at, and fails. -/
theorem unencodableValuesRefused : Obligations.UnencodableValuesRefused :=
  ⟨fun _ off _ => ⟨execStb_refuses off, execEnc28_refuses off, execEncso_refuses off, execWrcr_refuses,
      execPedset_refuses⟩,
    fun _ _ _ off _ _ _ _ h1 h2 h3 h => execPk3_refuses off h1 h2 h3 h⟩

end Sys2Proof.Machine

/-! Checksum (41_checksum.md): the laws of the sum, and where its five commands complete. -/

namespace Sys2Proof.Machine

/-! ### The sum of a list of bytes (41_checksum.md R58) -/

/-- `byteSum` is the library's sum over the bytes' values. -/
theorem byteSum_eq_sum (bs : List Byte) : byteSum bs = (bs.map BitVec.toNat).sum := by
  induction bs with
  | nil => rfl
  | cons b bs ih => rw [byteSum, ih, List.map_cons, List.sum_cons]

theorem byteSum_append (bs cs : List Byte) : byteSum (bs ++ cs) = byteSum bs + byteSum cs := by
  simp only [byteSum_eq_sum, List.map_append, List.sum_append]

theorem byteSum_replicate_zero (n : Nat) : byteSum (List.replicate n 0) = 0 := by
  simp [byteSum_eq_sum]

theorem byteSum_perm {bs cs : List Byte} (h : bs.Perm cs) : byteSum bs = byteSum cs := by
  rw [byteSum_eq_sum, byteSum_eq_sum]
  exact (h.map _).sum_eq

/-- One byte's share of the sum, apart from those around it. -/
theorem byteSum_middle (pre post : List Byte) (b : Byte) :
    byteSum (pre ++ b :: post) = b.toNat + (byteSum pre + byteSum post) := by
  rw [byteSum_append, byteSum, Nat.add_left_comm]

/-! ### The laws of the checksum (41_checksum.md R60) -/

theorem csum_append (bs cs : List Byte) : csum (bs ++ cs) = (csum bs + csum cs) % 128 := by
  rw [csum_eq, csum_eq, csum_eq, byteSum_append, Nat.add_mod]

theorem csum_replicate_zero (n : Nat) : csum (List.replicate n 0) = 0 := by
  rw [csum_eq, byteSum_replicate_zero]

/-- Replacing a byte moves the checksum by the difference of the two. -/
theorem csum_replace (pre post : List Byte) (b b' : Byte) :
    (csum (pre ++ b' :: post) : Int) = ((csum (pre ++ b :: post) : Int) + (b'.toNat - b.toNat)) % 128 := by
  simp only [csum_eq, byteSum_middle]
  omega

/-- Two bytes in one place give one checksum exactly when they agree modulo 128. -/
theorem csum_replace_eq_iff_mod (pre post : List Byte) (b b' : Byte) :
    csum (pre ++ b' :: post) = csum (pre ++ b :: post) ↔ b'.toNat % 128 = b.toNat % 128 := by
  simp only [csum_eq, byteSum_middle]
  omega

/-- Bytes that agree modulo 128 are equal or differ in bit 7 alone. -/
theorem toNat_mod_eq_iff {b b' : Byte} :
    b'.toNat % 128 = b.toNat % 128 ↔ b' = b ∨ b'.toNat = b.toNat + 128 ∨ b.toNat = b'.toNat + 128 := by
  have hb : b.toNat < 256 := b.isLt
  have hb' : b'.toNat < 256 := b'.isLt
  rw [← BitVec.toNat_inj]
  omega

theorem csum_perm {bs cs : List Byte} (h : bs.Perm cs) : csum bs = csum cs := by
  rw [csum_eq, csum_eq, byteSum_perm h]

/-- Settles O28: each law of R60 from the same law of the unbounded sum. -/
theorem checksumLaws : Obligations.ChecksumLaws :=
  ⟨csum_append, csum_replicate_zero,
    fun pre post b b' => ⟨csum_replace pre post b b',
      (csum_replace_eq_iff_mod pre post b b').trans toNat_mod_eq_iff⟩,
    fun _ _ => csum_perm⟩

/-! ### `CSUM` (41_checksum.md R61) -/

theorem readWindow_of_lt (m : Memory) {lo hi : Nat} (h : hi < lo) : readWindow m lo hi = [] := by
  rw [readWindow, Nat.sub_eq_zero_of_le h, readBytes]

theorem readWindow_of_le (m : Memory) {lo hi : Nat} (h : lo ≤ hi) :
    readWindow m lo hi = readBytes m lo (hi - lo + 1) := by
  rw [readWindow, Nat.sub_add_comm h]

/-- A window that is empty, or ends inside the valid region, is admitted. -/
theorem admits_window {s : State} {lo hi : Nat} (h : hi < lo ∨ hi < s.len.toNat) :
    s.admits lo (hi + 1 - lo) = true := by
  rw [State.admits_eq_true]
  omega

/-- `CSUM` of an admitted window writes the window's checksum. -/
theorem execCsum_completes (ra : Reg) {lo hi : BitVec 10} {s : State}
    (h : hi.toNat < lo.toNat ∨ hi.toNat < s.len.toNat) :
    ∃ t, execCsum ra lo hi s = .next t ∧
      WroteRegs s t [(ra, BitVec.ofNat 32 (csum (readWindow s.mem lo.toNat hi.toNat)))] false := by
  have hpass : execCsum ra lo hi s = writeReg s ra (patternOf (csum (readWindow s.mem lo.toNat hi.toNat))) :=
    if_pos (admits_window h)
  rw [hpass, patternOf, BitVec.ofInt_natCast]
  exact writeReg_wroteRegs ..

/-! ### `CSVP`, `CSVS`, `CSFP` and `CSFS` (41_checksum.md R62 to R65) -/

/-- A verification inside the valid region. -/
theorem verifyCommand_wroteRegs {s : State} {p : Payload} (ra : Reg) (h1 : p.hi < s.len.toNat)
    (h2 : p.pos < s.len.toNat) :
    ∃ t, verifyCommand s ra p = .next t ∧ WroteRegs s t [(ra, verifySum s.mem p)] false := by
  have hpass : verifyCommand s ra p = writeReg s ra (verifySum s.mem p) := if_pos (covers_eq_true.2 ⟨h1, h2⟩)
  rw [hpass]
  exact writeReg_wroteRegs ..

/-- The preset window and its checksum byte lie below byte 519. -/
theorem presetPayload_below {s : State} (h : 519 ≤ s.len.toNat) :
    presetPayload.hi < s.len.toNat ∧ presetPayload.pos < s.len.toNat :=
  ⟨Nat.lt_of_lt_of_le (by decide) h, h⟩

/-- The system window and its checksum byte end at the higher of the two. -/
theorem systemPayload_below {s : State} (h : max s.cfg.sysCsumHi s.cfg.sysCsumPos < s.len.toNat) :
    (systemPayload s.cfg).hi < s.len.toNat ∧ (systemPayload s.cfg).pos < s.len.toNat := max_lt_iff.1 h

/-- Settles O32: the bounds check of each command passes, and what it then writes is the window's sum or the
comparison with the stored byte. -/
theorem checksumReadsComplete : Obligations.ChecksumReadsComplete := by
  refine ⟨fun ra lo hi s h => ?empty, fun ra lo hi s hle h => ?range, fun ra s h => ?preset, fun ra s h => ?system⟩
  case empty =>
    have hdone := execCsum_completes ra (s := s) (.inl h)
    rwa [readWindow_of_lt s.mem h] at hdone
  case range =>
    have hdone := execCsum_completes ra (lo := lo) (.inr h)
    rwa [readWindow_of_le s.mem hle, csum_eq] at hdone
  case preset =>
    obtain ⟨hhi, hpos⟩ := presetPayload_below h
    exact verifyCommand_wroteRegs ra hhi hpos
  case system =>
    obtain ⟨hhi, hpos⟩ := systemPayload_below h
    exact verifyCommand_wroteRegs ra hhi hpos

/-- Settles O35: both windows lie in the valid region, so the shared store completes. -/
theorem checksumStoresComplete : Obligations.ChecksumStoresComplete := by
  refine ⟨fun s hs h => ?preset, fun s hs h => ?system⟩
  case preset =>
    obtain ⟨hhi, hpos⟩ := presetPayload_below h
    exact fixCommand_storedBytes hs hhi hpos
  case system =>
    obtain ⟨hhi, hpos⟩ := systemPayload_below h
    exact fixCommand_storedBytes hs hhi hpos

end Sys2Proof.Machine

/-! The preset codec (42_preset.md): the discriminator mux, the fields decoded in order, and what `PDEC`, `PENC`, `PFLD`
and `RDVL` do; with them the structural checks `SDEC` shares and the indices every command refuses. -/

namespace Sys2Proof.Machine

/-! ### The discriminator mux (42_preset.md R68) -/

theorem firstCase_cons_of_mem {d : Int} {c : Case} (h : d ∈ c.sel) (dflt : Variant) (cs : List Case) :
    firstCase d dflt (c :: cs) = c.var := if_pos (List.contains_iff_mem.2 h)

theorem firstCase_cons_of_not_mem {d : Int} {c : Case} (h : d ∉ c.sel) (dflt : Variant) (cs : List Case) :
    firstCase d dflt (c :: cs) = firstCase d dflt cs := if_neg fun hc => h (List.contains_iff_mem.1 hc)

/-- Cases that do not hold the value are passed over. -/
theorem firstCase_append {d : Int} {pre : List Case} (h : ∀ k ∈ pre, d ∉ k.sel) (dflt : Variant) (cs : List Case) :
    firstCase d dflt (pre ++ cs) = firstCase d dflt cs := by
  induction pre with
  | nil => rfl
  | cons k pre ih =>
    obtain ⟨hk, hpre⟩ := List.forall_mem_cons.1 h
    rw [List.cons_append, firstCase_cons_of_not_mem hk, ih hpre]

/-- With no case that holds the value, the static variant. -/
theorem firstCase_of_not_mem {d : Int} {cases : List Case} (h : ∀ k ∈ cases, d ∉ k.sel) (dflt : Variant) :
    firstCase d dflt cases = dflt := by
  have hall := firstCase_append h dflt []
  rwa [List.append_nil] at hall

theorem selectVariant_of_none {e : FieldEntry} (h : e.disc = .none) (fv : List Int) : selectVariant e fv = e.dflt := by
  rw [selectVariant, h]

theorem selectVariant_of_by {e : FieldEntry} {fv : List Int} {j : Nat} {d : Int} {cases : List Case}
    (h : e.disc = .by j cases) (hd : fv[j]? = some d) : selectVariant e fv = firstCase d e.dflt cases := by
  simp only [selectVariant, h, hd]

/-- Settles O37: the cases before the first match are passed over. -/
theorem muxTakesFirstMatch : Obligations.MuxTakesFirstMatch := by
  refine ⟨fun e fv => (selectVariant_of_none · fv), fun e fv j d pre post c he hd hpre hc => ?_,
    fun e fv j d cases he hd hnone => ?_⟩
  · rw [selectVariant_of_by he hd, firstCase_append hpre, firstCase_cons_of_mem hc]
  · rw [selectVariant_of_by he hd, firstCase_of_not_mem hnone]

/-! ### Fields decoded in table order (42_preset.md R75, steps 3 and 4) -/

/-- The value of an entry after `fv`, under the variant its discriminator selects. -/
def entryValue (m : Memory) (e : FieldEntry) (fv : List Int) : Int := fieldValue m e (selectVariant e fv)

/-- The violations of an entry after `fv`: one, or none when its value passes. -/
def entryRecords (m : Memory) (e : FieldEntry) (fv : List Int) : List VRec :=
  if passes (selectVariant e fv).cond (entryValue m e fv) then []
  else [violation fv.length (entryValue m e fv) (selectVariant e fv).cond]

theorem mem_entryRecords {m : Memory} {e : FieldEntry} {fv : List Int} {r : VRec} :
    r ∈ entryRecords m e fv ↔ passes (selectVariant e fv).cond (entryValue m e fv) = false ∧
      r = violation fv.length (entryValue m e fv) (selectVariant e fv).cond := by
  unfold entryRecords
  split
  · next h => simp [h]
  · next h => simp [h]

/-- A record names its entry; a field id has 8 bits (30_encoding.md R42). -/
theorem violation_fid_toNat {i : Nat} (h : i ≤ 255) (v : Int) (c : Cond) : (violation i v c).fid.toNat = i := by
  have hfid : (violation i v c).fid = BitVec.ofNat 32 i := by cases c <;> rfl
  rw [hfid, BitVec.toNat_ofNat, Nat.mod_eq_of_lt (by omega)]

/-- Decoding an entry appends its value and its violations to what was decoded before. -/
theorem decodeEntries_cons (m : Memory) (e : FieldEntry) (es : List FieldEntry) (fv : List Int) (viol : List VRec) :
    decodeEntries m (e :: es) fv viol =
      decodeEntries m es (fv ++ [entryValue m e fv]) (viol ++ entryRecords m e fv) := by
  have hviol : (if passes (selectVariant e fv).cond (entryValue m e fv) then viol
      else viol ++ [violation fv.length (entryValue m e fv) (selectVariant e fv).cond])
      = viol ++ entryRecords m e fv := by
    unfold entryRecords
    split
    · exact (List.append_nil viol).symm
    · rfl
  rw [← hviol]
  rfl

/-- Decoding a table in two parts. -/
theorem decodeEntries_append (m : Memory) (t u : List FieldEntry) (fv : List Int) (viol : List VRec) :
    decodeEntries m (t ++ u) fv viol =
      decodeEntries m u (decodeEntries m t fv viol).values (decodeEntries m t fv viol).violations := by
  induction t generalizing fv viol with
  | nil => rfl
  | cons e es ih => rw [List.cons_append, decodeEntries_cons, ih, ← decodeEntries_cons]

/-- The last entry of a table is decoded after all the others. -/
theorem decodeFields_concat (m : Memory) (t : List FieldEntry) (e : FieldEntry) :
    decodeFields m (t ++ [e]) =
      ⟨(decodeFields m t).values ++ [entryValue m e (decodeFields m t).values],
        (decodeFields m t).violations ++ entryRecords m e (decodeFields m t).values⟩ := by
  rw [decodeFields, decodeEntries_append, decodeEntries_cons]
  rfl

/-- An index into a table with one more entry is one of the table before, or that of the new entry. -/
theorem getElem?_concat_eq_some {α : Type} {t : List α} {d e : α} {i : Nat} :
    (t ++ [d])[i]? = some e ↔ t[i]? = some e ∨ (i = t.length ∧ d = e) := by
  rcases Nat.lt_trichotomy i t.length with hlt | rfl | hgt
  · simp [List.getElem?_append_left hlt, Nat.ne_of_lt hlt]
  · simp
  · simp [Nat.ne_of_gt hgt, Nat.le_of_lt hgt, hgt]

/-- The values before an entry of the table stay when an entry is added at its end. -/
theorem decodeFields_concat_take (m : Memory) {t : List FieldEntry} (d : FieldEntry) {i : Nat} (h : i ≤ t.length) :
    (decodeFields m (t ++ [d])).values.take i = (decodeFields m t).values.take i := by
  rw [decodeFields_concat, List.take_append_of_le_length (by rwa [decodeFields_values_length])]

theorem lt_length_of_getElem? {α : Type} {t : List α} {i : Nat} {e : α} (h : t[i]? = some e) : i < t.length :=
  (List.getElem?_eq_some_iff.1 h).1

/-- Each value is that of its entry after the values before it. -/
theorem decodeFields_values_getElem? {m : Memory} {t : List FieldEntry} {i : Nat} {e : FieldEntry}
    (h : t[i]? = some e) :
    (decodeFields m t).values[i]? = some (entryValue m e ((decodeFields m t).values.take i)) := by
  have hlen := decodeFields_values_length m
  induction t using List.reverseRecOn with
  | nil => cases h
  | append_singleton t d ih =>
    rcases getElem?_concat_eq_some.1 h with hi | ⟨rfl, rfl⟩
    · have hlt := lt_length_of_getElem? hi
      rw [decodeFields_concat_take m d hlt.le, decodeFields_concat, List.getElem?_append_left (by rwa [hlen]), ih hi]
    · rw [decodeFields_concat_take m d le_rfl, ← hlen t, List.take_length, decodeFields_concat,
        List.getElem?_concat_length]

/-- The violations are those of the entries, each after the values before it. -/
theorem mem_decodeFields_violations {m : Memory} {t : List FieldEntry} {r : VRec} :
    r ∈ (decodeFields m t).violations ↔
      ∃ i e, t[i]? = some e ∧ r ∈ entryRecords m e ((decodeFields m t).values.take i) := by
  induction t using List.reverseRecOn with
  | nil => simp [decodeFields, decodeEntries]
  | append_singleton t d ih =>
    have hall : (decodeFields m t).values.take t.length = (decodeFields m t).values := by
      rw [← decodeFields_values_length m t, List.take_length]
    have hmem : r ∈ (decodeFields m (t ++ [d])).violations ↔
        r ∈ (decodeFields m t).violations ∨ r ∈ entryRecords m d (decodeFields m t).values := by
      rw [decodeFields_concat, List.mem_append]
    rw [hmem, ih]
    constructor
    · rintro (⟨i, e, hi, hr⟩ | hr)
      · refine ⟨i, e, getElem?_concat_eq_some.2 (.inl hi), ?_⟩
        rwa [decodeFields_concat_take m d (lt_length_of_getElem? hi).le]
      · refine ⟨t.length, d, getElem?_concat_eq_some.2 (.inr ⟨rfl, rfl⟩), ?_⟩
        rwa [decodeFields_concat_take m d le_rfl, hall]
    · rintro ⟨i, e, hi, hr⟩
      rcases getElem?_concat_eq_some.1 hi with hi | ⟨rfl, rfl⟩
      · rw [decodeFields_concat_take m d (lt_length_of_getElem? hi).le] at hr
        exact .inl ⟨i, e, hi, hr⟩
      · rw [decodeFields_concat_take m d le_rfl, hall] at hr
        exact .inr hr

/-- A record is one of the list exactly when the value of the entry it names fails its check. -/
theorem mem_decodeFields_violations_iff {m : Memory} {t : List FieldEntry} {r : VRec} :
    r ∈ (decodeFields m t).violations ↔
      ∃ (i : Nat) (e : FieldEntry) (v : Int), t[i]? = some e ∧ (decodeFields m t).values[i]? = some v ∧
        passes (selectVariant e ((decodeFields m t).values.take i)).cond v = false ∧
        r = violation i v (selectVariant e ((decodeFields m t).values.take i)).cond := by
  have htake : ∀ {i : Nat} {e : FieldEntry}, t[i]? = some e → ((decodeFields m t).values.take i).length = i :=
    fun h => List.length_take_of_le (by rw [decodeFields_values_length]; exact (lt_length_of_getElem? h).le)
  rw [mem_decodeFields_violations]
  constructor
  · rintro ⟨i, e, hi, hr⟩
    rw [mem_entryRecords, htake hi] at hr
    exact ⟨i, e, _, hi, decodeFields_values_getElem? hi, hr⟩
  · rintro ⟨i, e, v, hi, hv, hr⟩
    obtain rfl : entryValue m e ((decodeFields m t).values.take i) = v :=
      Option.some.inj ((decodeFields_values_getElem? hi).symm.trans hv)
    exact ⟨i, e, hi, by rwa [mem_entryRecords, htake hi]⟩

/-- A record names an entry of the table. -/
theorem fid_lt_length {m : Memory} {t : List FieldEntry} {r : VRec} (ht : t.length ≤ 255)
    (h : r ∈ (decodeFields m t).violations) : r.fid.toNat < t.length := by
  obtain ⟨i, e, v, hi, -, -, rfl⟩ := mem_decodeFields_violations_iff.1 h
  have hlt := lt_length_of_getElem? hi
  rwa [violation_fid_toNat (by omega)]

/-- No record names an entry whose value passes. -/
theorem fid_ne_of_passes {m : Memory} {t : List FieldEntry} {i : Nat} {e : FieldEntry} {v : Int} {r : VRec}
    (ht : t.length ≤ 255) (he : t[i]? = some e) (hv : (decodeFields m t).values[i]? = some v)
    (hpass : passes (selectVariant e ((decodeFields m t).values.take i)).cond v = true)
    (h : r ∈ (decodeFields m t).violations) : r.fid.toNat ≠ i := by
  obtain ⟨j, d, w, hd, hw, hfail, rfl⟩ := mem_decodeFields_violations_iff.1 h
  have hlt := lt_length_of_getElem? hd
  rw [violation_fid_toNat (by omega)]
  rintro rfl
  obtain rfl : d = e := Option.some.inj (hd.symm.trans he)
  obtain rfl : w = v := Option.some.inj (hw.symm.trans hv)
  exact Bool.false_ne_true (hfail.symm.trans hpass)

/-- The records stand in rising order of the entries they name (42_preset.md R72). -/
theorem decodeFields_violations_pairwise {m : Memory} {t : List FieldEntry} (ht : t.length ≤ 255) :
    ((decodeFields m t).violations.map fun r => r.fid.toNat).Pairwise (· < ·) := by
  rw [List.pairwise_map]
  induction t using List.reverseRecOn with
  | nil => exact .nil
  | append_singleton t d ih =>
    have hlt : t.length < 255 := by simpa using ht
    rw [decodeFields_concat]
    refine List.pairwise_append.2 ⟨ih hlt.le, ?_, fun r hr r' hr' => ?_⟩
    · unfold entryRecords
      split
      · exact .nil
      · exact List.pairwise_singleton ..
    · obtain ⟨-, rfl⟩ := mem_entryRecords.1 hr'
      rw [decodeFields_values_length, violation_fid_toNat hlt.le]
      exact fid_lt_length hlt.le hr

theorem passes_range {v lo hi : Int} : passes (.range lo hi) v = true ↔ lo ≤ v ∧ v ≤ hi := by simp [passes]
theorem passes_equal {v k : Int} : passes (.equal k) v = true ↔ v = k := by simp [passes]

/-- Settles O38: the readings are the definitions' own; values, records and order by adding one entry at the end. -/
theorem fieldsDecodedInOrder : Obligations.FieldsDecodedInOrder := by
  refine ⟨fun m e q hq => ?reading, fun v lo hi => passes_range, fun v k => passes_equal, fun _ _ _ _ => rfl,
    fun _ _ _ => rfl, fun m t => ⟨decodeFields_values_length m t, fun i e => decodeFields_values_getElem?,
      fun r => mem_decodeFields_violations_iff, decodeFields_violations_length m t,
      decodeFields_violations_pairwise⟩⟩
  case reading =>
    subst hq
    exact ⟨fun _ => rfl, fun _ _ => rfl, fun _ => rfl⟩

/-! ### The structural checks (42_preset.md R73, 43_system.md R81) -/

/-- The checks stand for the conditions `P k`, `P (k + 1)`, ..., each with its number as sub-code. -/
def StandFor (P : Nat → Prop) : Nat → List (BitVec 8 × Bool) → Prop
  | _, [] => True
  | k, c :: cs => c.1 = BitVec.ofNat 8 k ∧ (c.2 = true ↔ P k) ∧ StandFor P (k + 1) cs

theorem firstFailure_cons_true (sc : BitVec 8) (cs : List (BitVec 8 × Bool)) :
    firstFailure ((sc, true) :: cs) = firstFailure cs := rfl

theorem firstFailure_cons_false (sc : BitVec 8) (cs : List (BitVec 8 × Bool)) :
    firstFailure ((sc, false) :: cs) = some sc := rfl

section
variable {P : Nat → Prop} {k : Nat} {cs : List (BitVec 8 × Bool)}

/-- When every condition holds, no check fails. -/
theorem StandFor.firstFailure_eq_none (hcs : StandFor P k cs) (h : ∀ j, k ≤ j → j < k + cs.length → P j) :
    firstFailure cs = none := by
  induction cs generalizing k with
  | nil => rfl
  | cons c cs ih =>
    obtain ⟨sc, holds⟩ := c
    obtain ⟨-, hP, hrest⟩ := hcs
    obtain rfl : holds = true := hP.2 (h k le_rfl (by simp))
    rw [firstFailure_cons_true]
    exact ih hrest fun j hj hlt => h j (Nat.le_of_succ_le hj) (by rw [List.length_cons]; omega)

/-- The sub-code is that of the first condition that does not hold. -/
theorem StandFor.firstFailure_eq_some {n : Nat} (hcs : StandFor P k cs) (hk : k ≤ n) (hn : n < k + cs.length)
    (hbefore : ∀ j, k ≤ j → j < n → P j) (h : ¬ P n) : firstFailure cs = some (BitVec.ofNat 8 n) := by
  induction cs generalizing k with
  | nil => exact absurd hn (Nat.not_lt.2 hk)
  | cons c cs ih =>
    obtain ⟨sc, holds⟩ := c
    obtain ⟨rfl, hP, hrest⟩ := hcs
    rcases Nat.eq_or_lt_of_le hk with rfl | hlt
    · obtain rfl : holds = false := Bool.eq_false_iff.2 (mt hP.1 h)
      exact firstFailure_cons_false _ _
    · obtain rfl : holds = true := hP.2 (hbefore k le_rfl hlt)
      rw [firstFailure_cons_true]
      exact ih hrest hlt (by rw [List.length_cons] at hn; omega) fun j hj => hbefore j (Nat.le_of_succ_le hj)

end

/-- The header checks stand for the length condition and the conditions on the header bytes. -/
theorem standFor_headerChecks {m : Memory} {lengthOk : Bool} {last : Nat} {sub : Byte} {P : Nat → Prop}
    (h1 : lengthOk = true ↔ P 1) (hP : ∀ k, 2 ≤ k → (headerCondition m last sub k ↔ P k)) :
    StandFor P 1 (headerChecks m lengthOk last sub) := by
  refine ⟨rfl, h1, rfl, ?start, rfl, ?finish, rfl, ?manufacturer, rfl, ?product, rfl, ?msgClass, rfl, ?subtype, trivial⟩
  case start => exact beq_iff_eq.trans (hP 2 (by decide))
  case finish => exact beq_iff_eq.trans (hP 3 (by decide))
  case manufacturer =>
    rw [← hP 4 (by decide), Bool.and_eq_true, Bool.and_eq_true, beq_iff_eq, beq_iff_eq, beq_iff_eq, and_assoc]
    rfl
  case product => exact beq_iff_eq.trans (hP 5 (by decide))
  case msgClass => exact beq_iff_eq.trans (hP 6 (by decide))
  case subtype => exact beq_iff_eq.trans (hP 7 (by decide))

theorem lengthOk_iff {n a b : Nat} : (n == a || n == b) = true ↔ n = a ∨ n = b := by
  rw [Bool.or_eq_true, beq_iff_eq, beq_iff_eq]

theorem standFor_presetChecks (s : State) : StandFor (presetCondition s) 1 (presetChecks s) :=
  standFor_headerChecks lengthOk_iff fun k hk => by rw [presetCondition, if_neg (by omega)]; rfl

theorem standFor_systemChecks (s : State) : StandFor (systemCondition s) 1 (systemChecks s) :=
  standFor_headerChecks lengthOk_iff fun k hk => by rw [systemCondition, if_neg (by omega)]; rfl

/-- A message that meets the seven conditions passes the structural checks. -/
theorem presetChecks_pass {s : State} (h : ∀ sc, 1 ≤ sc → sc ≤ 7 → presetCondition s sc) :
    firstFailure (presetChecks s) = none :=
  (standFor_presetChecks s).firstFailure_eq_none fun j h1 h7 => h j h1 (Nat.le_of_lt_succ h7)

/-! ### `PDEC` by what its checks find (42_preset.md R75) -/

theorem execPdec_of_structural {s : State} {sc : BitVec 8} (h : firstFailure (presetChecks s) = some sc) :
    execPdec s = .next (((s.setKind .none).setNviol 0).setStatus (statusErr .structural sc)) := by
  rw [execPdec, h]
  rfl

theorem execPdec_of_valid {s : State} (h : firstFailure (presetChecks s) = none)
    (hv : (decodeFields s.mem s.cfg.fieldTable).violations = []) :
    execPdec s = .next ((acceptPreset s).setStatus (statusOk s.status false)) := by
  simp only [execPdec, h, hv]
  rfl

theorem execPdec_of_violations {s : State} (h : firstFailure (presetChecks s) = none)
    (hv : (decodeFields s.mem s.cfg.fieldTable).violations ≠ []) :
    execPdec s = .next ((rejectPreset s (decodeFields s.mem s.cfg.fieldTable).violations).setStatus
      (statusErr .fieldRange 0)) := by
  obtain ⟨v, vs, hvs⟩ := List.exists_cons_of_ne_nil hv
  simp only [execPdec, h, hvs]
  rfl

theorem execSdec_of_structural {s : State} {sc : BitVec 8} (h : firstFailure (systemChecks s) = some sc) :
    execSdec s = .next ((s.setKind .none).setStatus (statusErr .structural sc)) := by
  rw [execSdec, h]
  rfl

/-- Settles O41: the checks of both messages stand for their seven conditions in order. -/
theorem firstStructuralFailureReported : Obligations.FirstStructuralFailureReported := by
  refine ⟨fun s sc h1 h7 hbefore h => ?preset, fun s sc h1 h7 hbefore h => ?system⟩
  case preset =>
    have hfail := (standFor_presetChecks s).firstFailure_eq_some h1 (Nat.lt_succ_of_le h7) hbefore h
    exact ⟨_, execPdec_of_structural hfail, endsErr_setStatus _ _ _, rfl, rfl⟩
  case system =>
    have hfail := (standFor_systemChecks s).firstFailure_eq_some h1 (Nat.lt_succ_of_le h7) hbefore h
    exact ⟨_, execSdec_of_structural hfail, endsErr_setStatus _ _ _, rfl, rfl⟩

/-! ### What a `PDEC` extracts (42_preset.md R74) -/

theorem isNameEnd_eq_true {b : Byte} : isNameEnd b = true ↔ b ≠ 0x20 ∧ b ≠ 0x00 := by
  simp [isNameEnd]

theorem nameLength_succ_of_end {m : Memory} {n : Nat} (h : isNameEnd (readCell m (10 + n)) = true) :
    nameLength m (n + 1) = n + 1 := if_pos h

theorem nameLength_succ_of_padding {m : Memory} {n : Nat} (h : ¬ isNameEnd (readCell m (10 + n)) = true) :
    nameLength m (n + 1) = nameLength m n := if_neg h

/-- A name that is not empty ends with a byte that is kept. -/
theorem nameLength_kept (m : Memory) (n : Nat) :
    nameLength m n = 0 ∨ isNameEnd (readCell m (10 + nameLength m n - 1)) = true := by
  induction n with
  | zero => exact .inl rfl
  | succ n ih =>
    by_cases hn : isNameEnd (readCell m (10 + n)) = true
    · rw [nameLength_succ_of_end hn]
      exact .inr hn
    · rwa [nameLength_succ_of_padding hn]

/-- Past the name there is only padding. -/
theorem nameLength_largest {m : Memory} {n k : Nat} (h : nameLength m n < k) (hk : k ≤ n) :
    ¬ isNameEnd (readCell m (10 + k - 1)) = true := by
  induction n with
  | zero => omega
  | succ n ih =>
    by_cases hn : isNameEnd (readCell m (10 + n)) = true
    · rw [nameLength_succ_of_end hn] at h
      omega
    · rw [nameLength_succ_of_padding hn] at h
      rcases Nat.eq_or_lt_of_le hk with rfl | hlt
      · exact hn
      · exact ih h (Nat.le_of_lt_succ hlt)

theorem isNameLength_nameLength (m : Memory) : IsNameLength m (nameLength m 24) where
  le := nameLength_le m 24
  kept := (nameLength_kept m 24).imp_right isNameEnd_eq_true.1
  largest := fun k h hk => by
    have hpad := nameLength_largest h hk
    rwa [isNameEnd_eq_true, not_and_or, not_not, not_not] at hpad

/-- `NAMELEN` has room for a length of 24. -/
theorem extractPreset_isNameLength (s : State) : IsNameLength s.mem (extractPreset s).namelen.toNat := by
  have hlt : nameLength s.mem 24 < 2 ^ 5 := Nat.lt_of_le_of_lt (nameLength_le s.mem 24) (by decide)
  have hroom : (extractPreset s).namelen.toNat = nameLength s.mem 24 := Nat.mod_eq_of_lt hlt
  rw [hroom]
  exact isNameLength_nameLength s.mem

/-! ### The records a field-range failure leaves (42_preset.md R72, R75) -/

theorem decodeFields_violations_le {c : Cfg} (hc : wfCfg c = true) (m : Memory) :
    (decodeFields m c.fieldTable).violations.length ≤ 255 :=
  Nat.le_trans (decodeFields_violations_length m c.fieldTable) (wfCfg_nf hc)

@[simp] theorem rejectPreset_vl (s : State) (v : List VRec) : (rejectPreset s v).vl = overlay v s.vl := rfl

section
variable {viol : List VRec} (h : viol.length ≤ 255)
include h

/-- `NVIOL` has room for a record of every entry. -/
theorem rejectPreset_nviol_toNat (s : State) : (rejectPreset s viol).nviol.toNat = viol.length :=
  Nat.mod_eq_of_lt (Nat.lt_succ_of_le h)

/-- The records below `NVIOL` are the new ones. -/
theorem rejectPreset_vl_take (s : State) : (rejectPreset s viol).vl.take (rejectPreset s viol).nviol.toNat = viol := by
  rw [rejectPreset_nviol_toNat h, rejectPreset_vl, overlay_take]

/-- The records from `NVIOL` on are the old ones (log 8). -/
theorem rejectPreset_vl_old {s : State} {n : Nat} (hn : (rejectPreset s viol).nviol.toNat ≤ n) :
    (rejectPreset s viol).vl[n]? = s.vl[n]? := by
  rw [rejectPreset_nviol_toNat h] at hn
  exact overlay_getElem? viol s.vl hn

end

/-- Settles O39: the checks pass and no field fails. -/
theorem presetDecodeSucceeds : Obligations.PresetDecodeSucceeds := fun s h hv =>
  ⟨_, execPdec_of_valid (presetChecks_pass h) hv, endsOk_setStatus s (acceptPreset s) false rfl, rfl, rfl, rfl,
    extractPreset_isNameLength s, rfl, rfl, rfl, fun _ _ => rfl, fun _ => rfl, rfl, rfl⟩

/-- Settles O40: the new records lie over the old ones, and `NVIOL` counts them. -/
theorem presetDecodeRejectsFields : Obligations.PresetDecodeRejectsFields := fun s hc h hv =>
  have hle := decodeFields_violations_le hc s.mem
  ⟨_, execPdec_of_violations (presetChecks_pass h) hv, endsErr_setStatus _ _ _, rfl, rfl, rfl,
    extractPreset_isNameLength s, rfl, rejectPreset_nviol_toNat hle s, rejectPreset_vl_take hle s,
    fun _ => rejectPreset_vl_old hle, fun _ _ => rfl, fun _ => rfl, rfl, rfl⟩

/-! ### `PDEC` reads the message, its length and the table (42_preset.md R79 b, c) -/

/-- The two states hold one message as far as `PDEC` reads it: its checks, its fields, its number and its name. -/
structure SameMessage (s s' : State) : Prop where
  checks : presetChecks s' = presetChecks s
  fields : decodeFields s'.mem s'.cfg.fieldTable = decodeFields s.mem s.cfg.fieldTable
  num    : readCell s'.mem 8 = readCell s.mem 8
  name   : nameLength s'.mem 24 = nameLength s.mem 24

/-- Agreeing on bytes 0..519, `LEN` and the configuration is holding one message. -/
theorem sameMessage_of_bytes {s s' : State} (hc : wfCfg s.cfg = true) (hcfg : s'.cfg = s.cfg) (hlen : s'.len = s.len)
    (h : ∀ a, a < 520 → readCell s'.mem a = readCell s.mem a) : SameMessage s s' where
  checks := by
    rw [presetChecks, presetChecks, hlen]
    exact headerChecks_congr (fun a ha => h a (by omega)) (h 519 (by decide))
  fields := by
    rw [hcfg]
    refine decodeFields_congr fun e he => readQuad_congr fun a _ ha => h a ?_
    obtain ⟨-, hoff⟩ := wfCfg_off hc he
    omega
  num := h 8 (by decide)
  name := nameLength_congr 24 fun a _ ha => h a (by omega)

/-- A message of 521 bytes is read as its first 520 (42_preset.md R73). -/
theorem sameMessage_setLen {s : State} (h : s.len.toNat = 521) : SameMessage s (s.setLen 520) where
  checks := by
    rw [presetChecks, presetChecks, h]
    rfl
  fields := rfl
  num := rfl
  name := rfl

/-- What is extracted is a function of the message. -/
theorem SameMessage.extractPreset_eq {s s' : State} (h : SameMessage s s') :
    (extractPreset s').num = (extractPreset s).num ∧ (extractPreset s').namelen = (extractPreset s).namelen ∧
      (extractPreset s').fv = (extractPreset s).fv :=
  ⟨h.num, congrArg (BitVec.ofNat 5) h.name, congrArg (fun d => d.values.map patternOf) h.fields⟩

/-- Two states with one message end `PDEC` in the same one of its three ways. -/
theorem SameMessage.execPdec_next {s s' t t' : State} (h : SameMessage s s') (ht : execPdec s = .next t)
    (ht' : execPdec s' = .next t') :
    (∃ sc, t = ((s.setKind .none).setNviol 0).setStatus (statusErr .structural sc) ∧
      t' = ((s'.setKind .none).setNviol 0).setStatus (statusErr .structural sc)) ∨
    (t = (acceptPreset s).setStatus (statusOk s.status false) ∧
      t' = (acceptPreset s').setStatus (statusOk s'.status false)) ∨
    (∃ viol, viol = (decodeFields s.mem s.cfg.fieldTable).violations ∧
      t = (rejectPreset s viol).setStatus (statusErr .fieldRange 0) ∧
      t' = (rejectPreset s' viol).setStatus (statusErr .fieldRange 0)) := by
  rcases execPdec_cases s with ⟨sc, hf, e⟩ | ⟨hf, hv, e⟩ | ⟨hf, hv, e⟩ <;> rw [e] at ht <;> injection ht with ht <;>
    subst ht <;> rw [← h.checks] at hf
  · rw [execPdec_of_structural hf] at ht'
    injection ht' with ht'
    exact .inl ⟨sc, rfl, ht'.symm⟩
  · rw [← h.fields] at hv
    rw [execPdec_of_valid hf hv] at ht'
    injection ht' with ht'
    exact .inr (.inl ⟨rfl, ht'.symm⟩)
  · rw [← h.fields] at hv
    rw [execPdec_of_violations hf hv, h.fields] at ht'
    injection ht' with ht'
    exact .inr (.inr ⟨_, rfl, rfl, ht'.symm⟩)

/-- Settles O44: states that agree on the message end alike, and in each of the three ways what is written is a function
of the message. -/
theorem presetDecodeReadsOnlyMessage : Obligations.PresetDecodeReadsOnlyMessage := by
  intro s s' t t' hc hcfg hlen hbytes ht ht'
  have hsame := sameMessage_of_bytes hc hcfg hlen hbytes
  rcases hsame.execPdec_next ht ht' with ⟨sc, rfl, rfl⟩ | ⟨rfl, rfl⟩ | ⟨_, rfl, rfl, rfl⟩
  · exact ⟨rfl, rfl, rfl, rfl, rfl, hlen, fun hne => absurd (statusEc_err _ _) hne,
      fun heq => absurd (errCode_injective ((statusEc_err _ _).symm.trans heq)) (by decide)⟩
  · refine ⟨by simp, by simp, by simp, rfl, rfl, rfl, fun _ => hsame.extractPreset_eq, fun heq => ?_⟩
    exact absurd ((statusEc_ok _ _).symm.trans heq).symm (errCode_ne_zero _)
  · have hle := decodeFields_violations_le hc s.mem
    exact ⟨rfl, rfl, rfl, rfl, rfl, hlen, fun _ => hsame.extractPreset_eq,
      fun _ => (rejectPreset_vl_take hle s').trans (rejectPreset_vl_take hle s).symm⟩

/-- Settles O43: the two lengths pass the same checks, and nothing else reads `LEN`. -/
theorem legacyLengthTolerated : Obligations.LegacyLengthTolerated := by
  intro s t u hlen ht hu
  rcases (sameMessage_setLen hlen).execPdec_next ht hu with ⟨sc, rfl, rfl⟩ | ⟨rfl, rfl⟩ | ⟨viol, -, rfl, rfl⟩
  · exact ⟨rfl, rfl, rfl, rfl, rfl, rfl, rfl,
      fun hok => absurd ((statusEc_err _ _).symm.trans hok) (errCode_ne_zero _)⟩
  · exact ⟨rfl, rfl, rfl, rfl, rfl, rfl, rfl, fun _ => ⟨rfl, rfl⟩⟩
  · exact ⟨rfl, rfl, rfl, rfl, rfl, rfl, rfl,
      fun hok => absurd ((statusEc_err _ _).symm.trans hok) (errCode_ne_zero _)⟩

/-! ### Validation that follows the modulation type (42_preset.md R70 d, R79 d) -/

theorem of_holdsAt {t : List FieldEntry} {i : Nat} {p : FieldEntry → Bool} {e : FieldEntry}
    (h : holdsAt t i p = true) (he : t[i]? = some e) : p e = true := by
  rwa [holdsAt, he] at h

theorem conditionFor_of_caseCondition {e : FieldEntry} {d : Int} {c : Cond} (h : caseCondition e d c = true) :
    conditionFor e d = c := by
  rw [caseCondition, Bool.and_eq_true, beq_iff_eq] at h
  exact h.2

/-- What R70 (d) says of the entry this group needs. -/
theorem modDelayOrRange_conditions {t : List FieldEntry} {c : DeviceClaim} {e : FieldEntry}
    (h : modDelayOrRangeAgrees t c = true) (he : t[c.modDelayOrRange]? = some e) :
    governedBy c.modType e = true ∧ conditionFor e c.modCodes.chorus = .range 0 500 ∧
      conditionFor e c.modCodes.phaser = .range 0 1 := by
  rw [modDelayOrRangeAgrees, Bool.and_eq_true] at h
  have hconds := of_holdsAt h.2 he
  simp only [Bool.and_eq_true] at hconds
  obtain ⟨⟨⟨⟨⟨⟨hgov, hchorus⟩, -⟩, hphaser⟩, -⟩, -⟩, -⟩ := hconds
  exact ⟨hgov, conditionFor_of_caseCondition hchorus, conditionFor_of_caseCondition hphaser⟩

/-- A governed entry is checked by the condition for the value its discriminator decodes to. -/
theorem selectVariant_decoded {m : Memory} {c : Cfg} {i j : Nat} {e : FieldEntry} {d : Int} (hc : wfCfg c = true)
    (he : c.fieldTable[i]? = some e) (hg : governedBy j e = true)
    (hd : (decodeFields m c.fieldTable).values[j]? = some d) :
    (selectVariant e ((decodeFields m c.fieldTable).values.take i)).cond = conditionFor e d := by
  have htable : wfTable c.fieldTable = true := (wfCfg_parts hc).2.2.2.2.2
  rw [wfTable, Bool.and_eq_true] at htable
  have hji := wfEntries_governed htable.2 he hg
  exact selectVariant_governed hg (by rwa [List.getElem?_take_of_lt (by omega)])

/-- A record a `PDEC` leaves readable is one it made. -/
theorem mem_violations_of_execPdec {s t : State} {n : Nat} {r : VRec} (hc : wfCfg s.cfg = true)
    (ht : execPdec s = .next t) (hn : n < t.nviol.toNat) (hr : t.vl[n]? = some r) :
    r ∈ (decodeFields s.mem s.cfg.fieldTable).violations := by
  rcases execPdec_next ht with ⟨sc, -, rfl⟩ | ⟨-, -, rfl⟩ | ⟨_, rfl, rfl⟩
  · exact absurd hn (Nat.not_lt_zero n)
  · exact absurd hn (Nat.not_lt_zero n)
  · rw [← rejectPreset_vl_take (decodeFields_violations_le hc s.mem) s]
    exact List.mem_of_getElem? ((List.getElem?_take_of_lt hn).trans hr)

/-- Every violation ends `PDEC` with a field-range failure that leaves its record readable. -/
theorem execPdec_leaves_record {s : State} {r : VRec} (hc : wfCfg s.cfg = true)
    (hpass : firstFailure (presetChecks s) = none) (hr : r ∈ (decodeFields s.mem s.cfg.fieldTable).violations) :
    ∃ t, execPdec s = .next t ∧ EndsErr t .fieldRange 0 ∧ ∃ n, n < t.nviol.toNat ∧ t.vl[n]? = some r := by
  have hle := decodeFields_violations_le hc s.mem
  obtain ⟨n, hn⟩ := List.mem_iff_getElem?.1 hr
  have hlt := lt_length_of_getElem? hn
  refine ⟨_, execPdec_of_violations hpass (List.ne_nil_of_mem hr), endsErr_setStatus _ _ _, n, ?_, ?_⟩
  · rwa [State.setStatus_nviol, rejectPreset_nviol_toNat hle]
  · exact (List.getElem?_append_left hlt).trans hn

/-- A raw value of 2 decodes to 2 under every variant (42_preset.md R70 d). -/
theorem decodeFields_value_two {m : Memory} {t : List FieldEntry} {i : Nat} {e : FieldEntry} (he : t[i]? = some e)
    (hraw : dec28 (readQuad m e.off) = 2) : (decodeFields m t).values[i]? = some 2 := by
  have hdirect := fieldValue_direct (m := m) (e := e) (by rw [hraw]; decide) (by rw [hraw]; decide)
  rw [decodeFields_values_getElem? he, entryValue, hdirect, hraw]
  rfl

/-- Settles O60: the type's value selects the condition, which 2 fails under phaser and passes under chorus. -/
theorem rangeFollowsModulationType : Obligations.RangeFollowsModulationType := by
  intro c s e hc hdev he hraw hcond
  obtain ⟨hgov, hchorus, hphaser⟩ := modDelayOrRange_conditions hdev he
  have hvalue := decodeFields_value_two he hraw
  refine ⟨fun htype => ?phaser, fun htype => ?chorus⟩
  case phaser =>
    have hsel := (selectVariant_decoded hc he hgov htype).trans hphaser
    exact execPdec_leaves_record hc (presetChecks_pass hcond)
      (mem_decodeFields_violations_iff.2 ⟨_, e, 2, he, hvalue, by rw [hsel]; decide, by rw [hsel]; rfl⟩)
  case chorus =>
    have hsel := (selectVariant_decoded hc he hgov htype).trans hchorus
    obtain ⟨t, ht⟩ := completes_execPdec s
    exact ⟨t, ht, fun n r hn hr => fid_ne_of_passes (wfCfg_nf hc) he hvalue (by rw [hsel]; decide)
      (mem_violations_of_execPdec hc ht hn hr)⟩

/-! ### Results read back (42_preset.md R76 to R78, 43_system.md R83) -/

theorem execPfld_of_preset {s : State} (h : s.kind = .preset) (ra : Reg) (fid : BitVec 8) :
    execPfld ra fid s =
      if fid.toNat < s.cfg.nf then writeReg s ra (fieldValueFile s fid) else raise s .index 0 := if_pos h

theorem execRdvl_of_word {s : State} {n : BitVec 8} {w : BitVec 3} {v : Word}
    (h : recordWord (violationRecord s n) w = some v) (ra : Reg) :
    execRdvl ra n w s = if n.toNat < s.nviol.toNat then writeReg s ra v else raise s .index 0 := by
  rw [execRdvl, h]

/-- An answer that is a register write writes that register. -/
theorem wroteRegs_of_eq_writeReg {o : Host.Outcome State Fault Refusal} {s : State} {ra : Reg} {v : Word}
    (h : o = writeReg s ra v) : ∃ t, o = .next t ∧ WroteRegs s t [(ra, v)] false := by
  rw [h]
  exact writeReg_wroteRegs s ra v

/-- `RDVL` of a record of the list writes the word asked for. -/
theorem execRdvl_completes {s : State} {n : BitVec 8} {r : VRec} {v : Word} (ra : Reg) (w : BitVec 3)
    (hn : n.toNat < s.nviol.toNat) (hr : s.vl[n.toNat]? = some r) (hv : recordWord r w = some v) :
    ∃ t, execRdvl ra n w s = .next t ∧ WroteRegs s t [(ra, v)] false := by
  have hrec : violationRecord s n = r := by rw [violationRecord, hr, Option.getD_some]
  exact wroteRegs_of_eq_writeReg (by rw [execRdvl_of_word (by rwa [hrec]), if_pos hn])

theorem execPfld_completes {s : State} {fid : BitVec 8} {v : Word} (ra : Reg) (hk : s.kind = .preset)
    (hfid : fid.toNat < s.cfg.nf) (hv : s.fv[fid.toNat]? = some v) :
    ∃ t, execPfld ra fid s = .next t ∧ WroteRegs s t [(ra, v)] false := by
  have hval : fieldValueFile s fid = v := by rw [fieldValueFile, hv, Option.getD_some]
  exact wroteRegs_of_eq_writeReg (by rw [execPfld_of_preset hk, if_pos hfid, hval])

theorem execSenc_completes {s : State} (ra : Reg) (hk : s.kind = .system) :
    ∃ t, execSenc ra s = .next t ∧ WroteRegs s t [(ra, BitVec.ofNat 32 s.len.toNat)] false := by
  rw [BitVec.ofNat_toNat]
  exact wroteRegs_of_eq_writeReg (if_pos hk)

/-- Settles O42: each command passes its check and writes its register. -/
theorem resultReadsComplete : Obligations.ResultReadsComplete :=
  ⟨fun _ _ hk => wroteRegs_of_eq_writeReg (if_pos hk), fun ra _ _ _ => execPfld_completes ra,
    fun ra _ _ _ hn hr => ⟨execRdvl_completes ra 0 hn hr rfl, execRdvl_completes ra 1 hn hr rfl,
      execRdvl_completes ra 2 hn hr rfl, execRdvl_completes ra 3 hn hr rfl, execRdvl_completes ra 4 hn hr rfl⟩,
    fun ra _ => execSenc_completes ra⟩

/-! ### Indices outside their lists (60_exceptions.md R110, R113) -/

theorem execPfld_outside {s : State} {fid : BitVec 8} (ra : Reg) (hk : s.kind = .preset) (h : s.cfg.nf ≤ fid.toNat) :
    TurnedAway s (execPfld ra fid s) .index 0 := by
  rw [execPfld_of_preset hk]
  exact turnedAway_of_not (Nat.not_lt.2 h)

theorem execRdvl_outside {s : State} {n : BitVec 8} {w : BitVec 3} (ra : Reg) (hw : w.toNat ≤ 4)
    (h : s.nviol.toNat ≤ n.toNat) : TurnedAway s (execRdvl ra n w s) .index 0 := by
  have hword : recordWord (violationRecord s n) w ≠ none := by
    rw [Ne, recordWord_eq_none, wfRecordWord, decide_eq_false_iff_not, not_not]
    exact hw
  obtain ⟨v, hv⟩ := Option.ne_none_iff_exists'.1 hword
  rw [execRdvl_of_word hv]
  exact turnedAway_of_not (Nat.not_lt.2 h)

/-- After the latch, an index outside its list is turned away before what follows. -/
theorem turnedAway_index {s : State} {i : Int} {lo hi : Nat} {o : Host.Outcome State Fault Refusal}
    (hk : s.kind = .system) (h : i < lo ∨ hi < i) :
    TurnedAway s (if s.kind ≠ .system then raise s .state 2 else if inRange i lo hi then o else raise s .index 0)
      .index 0 := by
  rw [if_neg (not_not.2 hk)]
  exact turnedAway_of_not (not_inRange_iff.2 h)

theorem execCcget_outside {ra rb rc : Reg} {s : State} (hk : s.kind = .system) (hab : ra ≠ rb)
    (h : (s.reg rc).toInt < 0 ∨ 63 < (s.reg rc).toInt) : TurnedAway s (execCcget ra rb rc s) .index 0 := by
  rw [execCcget, if_neg hab]
  exact turnedAway_index hk h

/-- Settles O57: the latch or the word passes, and the index check comes next. -/
theorem indicesOutsideListsRefused : Obligations.IndicesOutsideListsRefused :=
  ⟨fun ra _ _ => execPfld_outside ra, fun ra _ _ _ => execRdvl_outside ra, fun _ _ _ _ hk =>
    ⟨execCcget_outside hk, turnedAway_index hk, turnedAway_index hk, turnedAway_index hk, turnedAway_index hk,
      turnedAway_index hk⟩⟩

end Sys2Proof.Machine

/-! System dumps (43_system.md): the laws of packed groups, where the commands on a dump complete and what they write,
and where an update value is turned away. -/

namespace Sys2Proof.Machine

/-! ### The bits of a canonical group (43_system.md R88, R89) -/

theorem toNat_and_7E (b : Byte) : (b &&& 0x7E).toNat = b.toNat / 2 % 64 * 2 := by
  have hlow : (b.toNat &&& 126) % 2 ^ 1 = b.toNat % 2 ^ 1 &&& 126 % 2 ^ 1 := Nat.and_mod_two_pow
  have hhigh : (b.toNat &&& 126) / 2 ^ 1 = b.toNat / 2 ^ 1 &&& 126 / 2 ^ 1 := Nat.and_div_two_pow
  have hzero : b.toNat % 2 ^ 1 &&& 126 % 2 ^ 1 = 0 := Nat.and_zero _
  have hsix : b.toNat / 2 ^ 1 &&& 126 / 2 ^ 1 = b.toNat / 2 % 64 := and_six_bits _
  have htoNat : (b &&& 0x7E).toNat = b.toNat &&& 126 := BitVec.toNat_and ..
  omega

theorem toNat_and_7D (b : Byte) : (b &&& 0x7D).toNat = b.toNat / 4 % 32 * 4 + b.toNat % 2 := by
  have hlow : (b.toNat &&& 125) % 2 ^ 2 = b.toNat % 2 ^ 2 &&& 125 % 2 ^ 2 := Nat.and_mod_two_pow
  have hhigh : (b.toNat &&& 125) / 2 ^ 2 = b.toNat / 2 ^ 2 &&& 125 / 2 ^ 2 := Nat.and_div_two_pow
  have hone : b.toNat % 2 ^ 2 &&& 125 % 2 ^ 2 = b.toNat % 4 % 2 := and_one_bit _
  have hfive : b.toNat / 2 ^ 2 &&& 125 / 2 ^ 2 = b.toNat / 4 % 32 := and_five_bits _
  have htoNat : (b &&& 0x7D).toNat = b.toNat &&& 125 := BitVec.toNat_and ..
  omega

theorem toNat_and_03 (b : Byte) : (b &&& 0x03).toNat = b.toNat % 4 := by
  rw [BitVec.toNat_and]
  exact and_two_bits _

/-- Masking leaves a byte as it is exactly when it has no bit outside the mask. -/
theorem and_eq_self_iff_and_not {b m : Byte} : b &&& m = b ↔ b &&& ~~~m = 0 := by
  constructor
  · intro h
    calc b &&& ~~~m = b &&& (m &&& ~~~m) := by rw [← BitVec.and_assoc, h]
      _ = 0 := by rw [BitVec.and_not_self]; exact BitVec.and_zero
  · intro h
    calc b &&& m = b &&& m ||| b &&& ~~~m := by rw [h]; exact BitVec.or_zero.symm
      _ = b := by rw [← BitVec.and_or_distrib_left, BitVec.or_not_self, BitVec.and_allOnes]

/-! ### The laws of groups (43_system.md R90) -/

/-- The four bytes of `pack3` as numbers, for sub-values of 7 bits. -/
theorem pack3_toNat {t : Triple} (h1 : t.v1 ≤ 127) (h2 : t.v2 ≤ 127) (h3 : t.v3 ≤ 127) :
    (pack3 t).b0.toNat = t.v3 ∧ (pack3 t).b1.toNat = t.v2 % 64 * 2 ∧
    (pack3 t).b2.toNat = t.v1 % 32 * 4 + t.v2 / 64 ∧ (pack3 t).b3.toNat = t.v1 / 32 := by
  simp only [pack3, byteOf_toNat]
  omega

theorem unpack3_pack3 {t : Triple} (h1 : t.v1 ≤ 127) (h2 : t.v2 ≤ 127) (h3 : t.v3 ≤ 127) :
    unpack3 (pack3 t) = t := by
  obtain ⟨e0, e1, e2, e3⟩ := pack3_toNat h1 h2 h3
  rw [unpack3_eq, e0, e1, e2, e3, Triple.mk.injEq]
  omega

theorem pack3_unpack3 (q : Quad) :
    pack3 (unpack3 q) = ⟨q.b0 &&& 0x7F, q.b1 &&& 0x7E, q.b2 &&& 0x7D, q.b3 &&& 0x03⟩ := by
  obtain ⟨h1, h2, h3⟩ := unpack3_le q
  obtain ⟨e0, e1, e2, e3⟩ := pack3_toNat h1 h2 h3
  simp only [unpack3_eq] at e0 e1 e2 e3 ⊢
  apply Quad.ext_toNat
  · rw [e0, toNat_and_low]
  · rw [e1, toNat_and_7E]; omega
  · rw [e2, toNat_and_7D]; omega
  · rw [e3, toNat_and_03]; omega

/-- A group is canonical when it has none of the bits `unpack3` ignores (43_system.md R89). -/
theorem pack3_unpack3_eq_self_iff (q : Quad) :
    pack3 (unpack3 q) = q ↔ q.b0 &&& 0x80 = 0 ∧ q.b1 &&& 0x81 = 0 ∧ q.b2 &&& 0x82 = 0 ∧ q.b3 &&& 0xFC = 0 := by
  rw [pack3_unpack3]
  cases q
  simp only [Quad.mk.injEq, and_eq_self_iff_and_not]
  rfl

theorem dec28_pack3 {t : Triple} (h1 : t.v1 ≤ 127) (h2 : t.v2 ≤ 127) (h3 : t.v3 ≤ 127) :
    dec28 (pack3 t) = t.v3 + 256 * t.v2 + 65536 * t.v1 := by
  obtain ⟨e0, e1, e2, e3⟩ := pack3_toNat h1 h2 h3
  rw [dec28_eq, e0, e1, e2, e3]
  omega

/-- Settles O29: the laws of R90 one by one. -/
theorem groupLaws : Obligations.GroupLaws :=
  ⟨fun _ => unpack3_pack3, pack3_unpack3, pack3_unpack3_eq_self_iff, fun _ => dec28_pack3⟩

/-! ### Commands that end `ok` with registers written -/

/-- A register written in order, no other of the list after it, holds its pattern. -/
theorem State.setRegs_reg_of_mem {s : State} {ps : List (Reg × Word)} (hnd : (ps.map Prod.fst).Nodup)
    {p : Reg × Word} (hp : p ∈ ps) : (s.setRegs ps).reg p.1 = p.2 := by
  induction ps generalizing s with
  | nil => cases hp
  | cons q ps ih =>
    obtain ⟨hq, hnd⟩ := List.nodup_cons.1 hnd
    rw [setRegs]
    rcases List.mem_cons.1 hp with rfl | hp
    · rw [State.setRegs_reg_of_not_mem fun r hr heq => hq (List.mem_map.2 ⟨r, hr, heq⟩), State.setReg_reg_self]
    · exact ih hnd hp

/-- What a command does that writes pairwise different registers and ends `ok` with a flag. -/
theorem okFlag_setRegs_wroteRegs (s : State) {ps : List (Reg × Word)} (a : Bool) (hnd : (ps.map Prod.fst).Nodup) :
    ∃ t, okFlag (s.setRegs ps) a = .next t ∧ WroteRegs s t ps a :=
  ⟨_, rfl,
    { ends := endsOk_setStatus s (s.setRegs ps) a (by simp)
      written := fun _ hp => State.setRegs_reg_of_mem hnd hp
      regs := fun _ hr => State.setRegs_reg_of_not_mem fun p hp heq => hr (List.mem_map.2 ⟨p, hp, heq⟩)
      buffer := fun _ => by simp
      latch := ⟨by simp, by simp⟩
      results := ⟨by simp, by simp, by simp, by simp, by simp⟩
      outside := ⟨by simp, by simp⟩ }⟩

/-! ### Reads of groups, slots, map entries and pedal fields -/

/-- `UNPK3` inside the valid region (43_system.md R92). -/
theorem execUnpk3_completes {ra rb rc : Reg} {off : BitVec 10} {s : State} (hab : ra ≠ rb) (hac : ra ≠ rc)
    (hbc : rb ≠ rc) (h : off.toNat + 4 ≤ s.len.toNat) :
    ∃ t, execUnpk3 ra rb rc off s = .next t ∧
      WroteRegs s t [(ra, BitVec.ofNat 32 (unpack3 (readQuad s.mem off.toNat)).v1),
        (rb, BitVec.ofNat 32 (unpack3 (readQuad s.mem off.toNat)).v2),
        (rc, BitVec.ofNat 32 (unpack3 (readQuad s.mem off.toNat)).v3)] false := by
  have hadm : s.admits (addrOf off) 4 = true := State.admits_eq_true.2 (.inr h)
  rw [execUnpk3, if_pos (wfThreeDestinations_of_ne hab hac hbc), if_pos hadm]
  simp only [patternOf, BitVec.ofInt_natCast]
  exact okFlag_setRegs_wroteRegs (ps := [(ra, _), (rb, _), (rc, _)]) s false (by simp [hab, hac, hbc])

/-- Settles O33: the destinations differ and the bounds check passes. -/
theorem unpackCompletes : Obligations.UnpackCompletes := fun _ _ _ _ _ => execUnpk3_completes

/-- A system command whose latch and index checks pass goes on. -/
theorem passed_latch_index {s : State} {i : Int} {lo hi : Nat} {o : Host.Outcome State Fault Refusal}
    (hk : s.kind = .system) (h : inRange i lo hi = true) :
    (if s.kind ≠ .system then raise s .state 2 else if inRange i lo hi then o else raise s .index 0) = o := by
  rw [if_neg (not_not.2 hk), if_pos h]

/-- The range test of an operand that is not negative. -/
theorem inRange_natCast {v lo hi : Nat} : inRange (v : Int) lo hi = true ↔ lo ≤ v ∧ v ≤ hi := by
  rw [inRange_eq_true, Int.ofNat_le, Int.ofNat_le]

/-- An incoming program number. -/
theorem inRange_incoming {i : Nat} (h1 : 1 ≤ i) (h2 : i ≤ 127) : inRange i 1 Config.pmapInCount = true :=
  inRange_natCast.2 ⟨h1, h2⟩

/-- A preset number. -/
theorem inRange_preset {i : Nat} (h1 : 31 ≤ i) (h2 : i ≤ 90) : inRange i Config.presetMin Config.presetMax = true :=
  inRange_natCast.2 ⟨h1, h2⟩

theorem inPosition_natCast (i : Nat) : inPosition i = i - 1 := Int.toNat_sub i 1

theorem outPosition_natCast (i : Nat) : outPosition i = i - 31 := Int.toNat_sub i 31

theorem slotAssigned_eq_false {c p : Byte} : slotAssigned c p = false ↔ c = 0xFF ∧ p = 0xFF := by
  simp [slotAssigned, Config.ccUnassigned]

/-- `CCGET` of a slot (43_system.md R86). -/
theorem execCcget_completes {ra rb rc : Reg} {i : Nat} {s : State} (hab : ra ≠ rb) (hk : s.kind = .system)
    (hi : sval (s.reg rc) = i) (hle : i ≤ 63) :
    ∃ t, execCcget ra rb rc s = .next t ∧
      WroteRegs s t [(ra, BitVec.ofNat 32 (readCell s.mem (34 + s.cfg.ccStride * i)).toNat),
        (rb, BitVec.ofNat 32 (readCell s.mem (34 + s.cfg.ccStride * i + 1)).toNat)]
        (slotAssigned (readCell s.mem (34 + s.cfg.ccStride * i)) (readCell s.mem (34 + s.cfg.ccStride * i + 1))) := by
  rw [execCcget, if_neg hab, hi, passed_latch_index hk (inRange_natCast.2 ⟨Nat.zero_le i, hle⟩)]
  simp only [BitVec.ofNat_toNat]
  exact okFlag_setRegs_wroteRegs (ps := [(ra, _), (rb, _)]) s _ (by simp [hab])

/-- Settles O46: the flag is that of the two bytes read. -/
theorem ccReadCompletes : Obligations.CcReadCompletes := by
  intro ra rb rc i s hab hk hi hle
  obtain ⟨t, ht, hwrote⟩ := execCcget_completes hab hk hi hle
  exact ⟨t, _, ht, hwrote, slotAssigned_eq_false⟩

/-- `PMIGET` of an entry (43_system.md R94). -/
theorem execPmiget_completes {ra rb : Reg} {i : Nat} {s : State} (hk : s.kind = .system) (hi : sval (s.reg rb) = i)
    (h1 : 1 ≤ i) (h2 : i ≤ 127) :
    ∃ t, execPmiget ra rb s = .next t ∧
      WroteRegs s t [(ra, BitVec.ofNat 32 (mapEntry s s.cfg.pmapInBase (i - 1)))]
        (mapEntry s s.cfg.pmapInBase (i - 1) != s.cfg.pmapUnmapped) := by
  rw [execPmiget, hi, passed_latch_index hk (inRange_incoming h1 h2), inPosition_natCast]
  simp only [patternOf, BitVec.ofInt_natCast]
  exact okFlag_setRegs_wroteRegs (ps := [(ra, _)]) s _ (List.nodup_singleton _)

/-- `PMOGET` of an entry (43_system.md R96). -/
theorem execPmoget_completes {ra rb : Reg} {i : Nat} {s : State} (hk : s.kind = .system) (hi : sval (s.reg rb) = i)
    (h1 : 31 ≤ i) (h2 : i ≤ 90) :
    ∃ t, execPmoget ra rb s = .next t ∧
      WroteRegs s t [(ra, BitVec.ofNat 32 (mapEntry s s.cfg.pmapOutBase (i - 31)))] false := by
  rw [execPmoget, hi, passed_latch_index hk (inRange_preset h1 h2), outPosition_natCast]
  simp only [patternOf, BitVec.ofInt_natCast]
  exact writeReg_wroteRegs ..

/-- Settles O48: the lane table is the definition's own; both reads pass their checks. -/
theorem mapReadsComplete : Obligations.MapReadsComplete :=
  ⟨fun _ => ⟨rfl, rfl, rfl⟩, fun _ => ⟨rfl, rfl, rfl⟩, fun _ _ _ _ => execPmiget_completes,
    fun _ _ _ _ => execPmoget_completes⟩

/-- `PEDGET` under the latch (43_system.md R99). -/
theorem execPedget_of_system {s : State} (hk : s.kind = .system) (ra : Reg) (k : BitVec 2) :
    execPedget ra k s = writeReg s ra (patternOf (if k = 0 then (dec28 (readQuad s.mem (pedalAddr s.cfg k)) : Int)
      else clamp (dec28 (readQuad s.mem (pedalAddr s.cfg k))) 0 Config.pctMax)) := if_neg (not_not.2 hk)

/-- A value clamped to a percentage. -/
theorem clamp_percentage (v : Int) : clamp v 0 Config.pctMax = max 0 (min v 100) := by
  unfold clamp Config.pctMax
  split
  · omega
  · split <;> omega

/-- Settles O51: the parameter id is not clamped, a percentage is, and a stored one is never negative. -/
theorem pedalReadCompletes : Obligations.PedalReadCompletes := by
  refine ⟨fun ra s hk => ?parameter, fun ra k s hk0 hk => ?percentage⟩
  case parameter =>
    refine wroteRegs_of_eq_writeReg ?_
    rw [← BitVec.ofInt_natCast]
    exact execPedget_of_system hk ra 0
  case percentage =>
    refine wroteRegs_of_eq_writeReg ((execPedget_of_system hk ra k).trans ?_)
    have hclamp : clamp (dec28 (readQuad s.mem (pedalAddr s.cfg k))) 0 Config.pctMax
        = ((min (dec28 (readQuad s.mem (pedalAddr s.cfg k))) 100 : Nat) : Int) := by
      rw [clamp_percentage]
      omega
    rw [if_neg hk0, hclamp, patternOf, BitVec.ofInt_natCast]
    rfl

/-! ### `SDEC` (43_system.md R81, R82) -/

/-- Settles O45: a dump that meets the seven conditions passes the structural checks. -/
theorem systemDecodeSucceeds : Obligations.SystemDecodeSucceeds := by
  intro s h
  have hpass : firstFailure (systemChecks s) = none :=
    (standFor_systemChecks s).firstFailure_eq_none fun j h1 h7 => h j h1 (Nat.le_of_lt_succ h7)
  have hok : execSdec s = .next ((s.setKind .system).setStatus (statusOk s.status false)) := by
    rw [execSdec, hpass]
    rfl
  obtain ⟨hmem, hreg, hlen, hresults⟩ := execSdec_frame hok
  exact ⟨_, hok, endsOk_setStatus s (s.setKind .system) false rfl, rfl, hlen, fun r _ => hreg r, fun _ => rfl, hresults,
    execSdec_outsideKept hok⟩

/-! ### System updates complete (43_system.md R84) -/

/-- Under the latch every table byte lies in the valid region. -/
theorem Inv.table_lt_len {s : State} (h : Inv s) (hk : s.kind = .system) : 524 < s.len.toNat := by
  rcases (h.system hk).len with hlen | hlen <;> omega

/-- The command completed, stored the bytes from `a` on and the re-derived checksum byte, and kept the latch. -/
def Updates (s : State) (o : Host.Outcome State Fault Refusal) (a : Nat) (bytes : List Byte) : Prop :=
  ∃ t, o = .next t ∧ StoredBytes s t a bytes (fun b => b = s.cfg.sysCsumPos) .system ∧ SystemSumRight t

/-- Two cells of the buffer stored, one after the other. -/
theorem readCell_writeCell_pair {m : Memory} (hm : memoryWf m = true) {a : Nat} (ha : a + 1 < 528) (b b' : Byte)
    (c : Nat) : readCell (writeCell (writeCell m a b) (a + 1) b') c =
      if c = a + 1 then b' else if c = a then b else readCell m c := by
  have h0 : a < 528 := by omega
  rw [readCell_writeCell (memoryWf_writeCell hm a b), readCell_writeCell hm]
  simp only [ha, h0, and_true]

/-- The update of two table bytes. -/
theorem updates_pair {s : State} {a : Nat} (b b' : Byte) (h : Inv s) (hk : s.kind = .system) (ha : a + 1 ≤ 524)
    (hp : ¬ InRun a 2 s.cfg.sysCsumPos) :
    Updates s (ok (sysfix (s.setMem (writeCell (writeCell s.mem a b) (a + 1) b')))) a [b, b'] := by
  have hread := readCell_writeCell_pair h.buffer.mem (show a + 1 < 528 by omega) b b'
  refine ⟨_, rfl, storedBytes_update h.cfg hk (memoryWf_writeCell (memoryWf_writeCell h.buffer.mem _ _) _ _) hp ?_ ?_⟩
  · intro j hj
    obtain rfl | rfl : j = 0 ∨ j = 1 := by
      have hj2 : j < 2 := hj
      omega
    · rw [hread, if_neg (by omega), if_pos (by omega)]; rfl
    · rw [hread, if_pos rfl]; rfl
  · intro c hc
    have hout : ¬ (a ≤ c ∧ c < a + 2) := hc
    rw [hread, if_neg (by omega), if_neg (by omega)]

/-- The update of four table bytes. -/
theorem updates_quad {s : State} {a : Nat} (q : Quad) (h : Inv s) (hk : s.kind = .system) (ha : a + 3 ≤ 524)
    (hp : ¬ InRun a 4 s.cfg.sysCsumPos) : Updates s (updateQuad s a q) a (quadBytes q) := by
  have hlen := h.table_lt_len hk
  exact updateQuad_storedBytes q h.buffer h.cfg hk (by omega) hp

/-! ### `CCSET` (43_system.md R85, R87) -/

/-- A slot lies in the CC table, away from the checksum byte. -/
theorem ccSlot_inside {c : Cfg} (h : wfCfg c = true) {i : Nat} (hi : i ≤ 63) :
    34 + c.ccStride * i + 1 ≤ 524 ∧ ¬ InRun (34 + c.ccStride * i) 2 c.sysCsumPos := by
  obtain ⟨hsum, -, -, -, -⟩ := wfCfg_disjoint h
  have htable := wfCfg_ccTable h
  have hmul : c.ccStride * i ≤ c.ccStride * 63 := Nat.mul_le_mul_left _ hi
  refine ⟨by omega, ?_⟩
  rintro ⟨h1, h2⟩
  omega

theorem ccValueOk_natCast {v : Nat} (h : v ≤ 127 ∨ v = 255) : ccValueOk v = true := by
  rw [ccValueOk, Bool.or_eq_true, inRange_natCast, beq_iff_eq]
  omega

/-- `CCSET` that passes its checks (43_system.md R87). -/
theorem execCcset_of_passed {ra rb rc : Reg} {i c p : Nat} {s : State} (hk : s.kind = .system)
    (hi : sval (s.reg ra) = i) (hle : i ≤ 63) (hc : sval (s.reg rb) = c) (hcok : c ≤ 127 ∨ c = 255)
    (hp : sval (s.reg rc) = p) (hpok : p ≤ 127 ∨ p = 255) :
    execCcset ra rb rc s = ok (sysfix (s.setMem (writeCell
      (writeCell s.mem (34 + s.cfg.ccStride * i) (byteOf c)) (34 + s.cfg.ccStride * i + 1) (byteOf p)))) := by
  have hval : (ccValueOk c && ccValueOk p) = true := by rw [ccValueOk_natCast hcok, ccValueOk_natCast hpok]; rfl
  rw [execCcset, hi, hc, hp, passed_latch_index hk (inRange_natCast.2 ⟨Nat.zero_le i, hle⟩), if_pos hval]
  rfl

/-- Settles O47: the checks pass, and the slot's two bytes lie in the table. -/
theorem ccWriteCompletes : Obligations.CcWriteCompletes := by
  intro ra rb rc i c p s hinv hk hi hle hc hcok hp hpok
  obtain ⟨htable, hapart⟩ := ccSlot_inside hinv.cfg hle
  show Updates s (execCcset ra rb rc s) _ _
  rw [execCcset_of_passed hk hi hle hc hcok hp hpok]
  exact updates_pair (byteOf c) (byteOf p) hinv hk htable hapart

/-! ### `PMISET` and `PMOSET` (43_system.md R93, R95, R97) -/

/-- The bytes of the group of position `q` with the entry there replaced by `v`. -/
def groupWith (s : State) (base q v : Nat) : Quad :=
  pack3 (setLane s.cfg.laneOrder (unpack3 (readQuad s.mem (groupAddr base q))) (q % 3) v)

/-- A run of `n` groups from `base` on, in the tables and away from the checksum byte. -/
structure MapPlaced (c : Cfg) (base n : Nat) : Prop where
  inside : base + 4 * n ≤ 525
  apart  : base + 4 * n ≤ c.sysCsumPos ∨ c.sysCsumPos < base

theorem inMap_placed {c : Cfg} (h : wfCfg c = true) : MapPlaced c c.pmapInBase 43 := by
  obtain ⟨-, hsum, -, -, -⟩ := wfCfg_disjoint h
  have hin := wfCfg_inMap h
  exact ⟨by omega, by omega⟩

theorem outMap_placed {c : Cfg} (h : wfCfg c = true) : MapPlaced c c.pmapOutBase 20 := by
  obtain ⟨-, -, hsum, -, -⟩ := wfCfg_disjoint h
  have hout := wfCfg_outMap h
  exact ⟨by omega, by omega⟩

/-- A map update stores the group of its position. -/
theorem updates_mapUpdate {s : State} {base n q : Nat} (v : Nat) (h : Inv s) (hk : s.kind = .system)
    (hmap : MapPlaced s.cfg base n) (hq : q < 3 * n) :
    Updates s (mapUpdate s base q v) (groupAddr base q) (quadBytes (groupWith s base q v)) := by
  obtain ⟨hinside, hapart⟩ := hmap
  refine updates_quad (groupWith s base q v) h hk ?_ ?_
  · simp only [groupAddr]; omega
  · rintro ⟨h1, h2⟩
    simp only [groupAddr] at h1 h2
    omega

/-- `PMISET` that passes its checks (43_system.md R95). -/
theorem execPmiset_of_passed {ra rb : Reg} {i v : Nat} {s : State} (hk : s.kind = .system)
    (hi : sval (s.reg ra) = i) (h1 : 1 ≤ i) (h2 : i ≤ 127) (hv : sval (s.reg rb) = v) (hv1 : 31 ≤ v)
    (hv2 : v ≤ 90) : execPmiset ra rb s = mapUpdate s s.cfg.pmapInBase (i - 1) v := by
  rw [execPmiset, hi, hv, passed_latch_index hk (inRange_incoming h1 h2), if_pos (inRange_preset hv1 hv2),
    inPosition_natCast, Int.toNat_natCast]

/-- `PMOSET` that passes its checks (43_system.md R97). -/
theorem execPmoset_of_passed {ra rb : Reg} {i v : Nat} {s : State} (hk : s.kind = .system)
    (hi : sval (s.reg ra) = i) (h1 : 31 ≤ i) (h2 : i ≤ 90) (hv : sval (s.reg rb) = v) (hv2 : v ≤ 127) :
    execPmoset ra rb s = mapUpdate s s.cfg.pmapOutBase (i - 31) v := by
  rw [execPmoset, hi, hv, passed_latch_index hk (inRange_preset h1 h2),
    if_pos (inRange_natCast.2 ⟨Nat.zero_le v, hv2⟩), outPosition_natCast, Int.toNat_natCast]

/-- `PMISET` stores the group of its entry. -/
theorem execPmiset_updates {ra rb : Reg} {i v : Nat} {s : State} (h : Inv s) (hk : s.kind = .system)
    (hi : sval (s.reg ra) = i) (h1 : 1 ≤ i) (h2 : i ≤ 127) (hv : sval (s.reg rb) = v) (hv1 : 31 ≤ v)
    (hv2 : v ≤ 90) : Updates s (execPmiset ra rb s) (groupAddr s.cfg.pmapInBase (i - 1))
      (quadBytes (groupWith s s.cfg.pmapInBase (i - 1) v)) := by
  rw [execPmiset_of_passed hk hi h1 h2 hv hv1 hv2]
  exact updates_mapUpdate v h hk (inMap_placed h.cfg) (by omega)

/-- `PMOSET` stores the group of its entry. -/
theorem execPmoset_updates {ra rb : Reg} {i v : Nat} {s : State} (h : Inv s) (hk : s.kind = .system)
    (hi : sval (s.reg ra) = i) (h1 : 31 ≤ i) (h2 : i ≤ 90) (hv : sval (s.reg rb) = v) (hv2 : v ≤ 127) :
    Updates s (execPmoset ra rb s) (groupAddr s.cfg.pmapOutBase (i - 31))
      (quadBytes (groupWith s s.cfg.pmapOutBase (i - 31) v)) := by
  rw [execPmoset_of_passed hk hi h1 h2 hv hv2]
  exact updates_mapUpdate v h hk (outMap_placed h.cfg) (by omega)

/-- Settles O49: the lane table is the definition's own; both updates pass their checks. -/
theorem mapWritesComplete : Obligations.MapWritesComplete :=
  ⟨fun _ _ => ⟨rfl, rfl, rfl⟩, fun _ _ => ⟨rfl, rfl, rfl⟩, fun _ _ _ _ _ => execPmiset_updates,
    fun _ _ _ _ _ => execPmoset_updates⟩

/-! ### A map update changes one entry (43_system.md R93) -/

/-- The entry of lane `l` of group `g`. -/
theorem mapEntry_group (s : State) (base g : Nat) {l : Nat} (hl : l < 3) :
    mapEntry s base (3 * g + l) = getLane s.cfg.laneOrder (unpack3 (readQuad s.mem (base + 4 * g))) l := by
  have hdiv : (3 * g + l) / 3 = g := by omega
  have hmod : (3 * g + l) % 3 = l := by omega
  rw [mapEntry, groupAddr, hdiv, hmod]

/-- Replacing a sub-value of a group by one of 7 bits leaves three of 7 bits. -/
theorem setLane_le {t : Triple} (h1 : t.v1 ≤ 127) (h2 : t.v2 ≤ 127) (h3 : t.v3 ≤ 127) {v : Nat} (hv : v ≤ 127)
    (o : LaneOrder) (l : Nat) :
    (setLane o t l v).v1 ≤ 127 ∧ (setLane o t l v).v2 ≤ 127 ∧ (setLane o t l v).v3 ≤ 127 := by
  unfold setLane
  cases laneOf o l with
  | v1 => exact ⟨hv, h2, h3⟩
  | v2 => exact ⟨h1, hv, h3⟩
  | v3 => exact ⟨h1, h2, hv⟩

/-- The sub-values of a group with one entry replaced. -/
theorem unpack3_groupWith (s : State) (base q : Nat) {v : Nat} (hv : v ≤ 127) :
    unpack3 (groupWith s base q v) =
      setLane s.cfg.laneOrder (unpack3 (readQuad s.mem (groupAddr base q))) (q % 3) v := by
  obtain ⟨h1, h2, h3⟩ := unpack3_le (readQuad s.mem (groupAddr base q))
  obtain ⟨g1, g2, g3⟩ := setLane_le h1 h2 h3 hv s.cfg.laneOrder (q % 3)
  exact unpack3_pack3 g1 g2 g3

section
variable {s t : State} {a : Nat} {g : Quad} {extra : Nat → Prop} {k : Kind}

/-- Four bytes stored read back. -/
theorem StoredBytes.readQuad_self (h : StoredBytes s t a (quadBytes g) extra k) : readQuad t.mem a = g := by
  have h0 : readCell t.mem a = g.b0 := h.stored 0 (show 0 < 4 by decide)
  have h1 : readCell t.mem (a + 1) = g.b1 := h.stored 1 (show 1 < 4 by decide)
  have h2 : readCell t.mem (a + 2) = g.b2 := h.stored 2 (show 2 < 4 by decide)
  have h3 : readCell t.mem (a + 3) = g.b3 := h.stored 3 (show 3 < 4 by decide)
  rw [readQuad, h0, h1, h2, h3]

/-- Four bytes elsewhere are kept. -/
theorem StoredBytes.readQuad_of_apart (h : StoredBytes s t a (quadBytes g) extra k) {b : Nat}
    (hb : b + 4 ≤ a ∨ a + 4 ≤ b) (hx : ∀ c, InRun b 4 c → ¬ extra c) : readQuad t.mem b = readQuad s.mem b := by
  refine readQuad_congr fun c h1 h2 => h.others c ?_
  rintro (⟨h3, h4⟩ | hc)
  · have h4' : c < a + 4 := h4
    omega
  · exact hx c ⟨h1, h2⟩ hc

end

section
variable {s t : State} {base n p v : Nat}
  (h : StoredBytes s t (groupAddr base p) (quadBytes (groupWith s base p v)) (fun b => b = s.cfg.sysCsumPos) .system)
include h

/-- An entry of the group stored: its lane of the replaced sub-values. -/
theorem mapEntry_same_group (hv : v ≤ 127) {q : Nat} (hq : q / 3 = p / 3) :
    mapEntry t base q = getLane s.cfg.laneOrder
      (setLane s.cfg.laneOrder (unpack3 (readQuad s.mem (groupAddr base p))) (p % 3) v) (q % 3) := by
  have haddr : groupAddr base q = groupAddr base p := by rw [groupAddr, hq, groupAddr]
  rw [mapEntry, haddr, h.readQuad_self, unpack3_groupWith s base p hv, h.outside.cfg]

/-- An entry of a group apart from the one stored is kept. -/
theorem mapEntry_apart {base' n' q : Nat} (hmap : MapPlaced s.cfg base' n') (hq : q < 3 * n')
    (hb : groupAddr base' q + 4 ≤ groupAddr base p ∨ groupAddr base p + 4 ≤ groupAddr base' q) :
    mapEntry t base' q = mapEntry s base' q := by
  rw [mapEntry, mapEntry, h.outside.cfg, h.readQuad_of_apart hb]
  rintro c ⟨h1, h2⟩ rfl
  have hapart := hmap.apart
  simp only [groupAddr] at h1 h2
  omega

/-- The entry written reads as the value. -/
theorem mapEntry_written (hv : v ≤ 127) : mapEntry t base p = v := by
  rw [mapEntry_same_group h hv rfl, getLane_setLane_self]

/-- Every other entry of the map reads as before. -/
theorem mapEntry_of_ne (hv : v ≤ 127) (hmap : MapPlaced s.cfg base n) {q : Nat} (hq : q < 3 * n) (hne : q ≠ p) :
    mapEntry t base q = mapEntry s base q := by
  by_cases hgroup : q / 3 = p / 3
  · rw [mapEntry_same_group h hv hgroup, getLane_setLane_of_ne _ _ _ (by omega) (by omega) (by omega), mapEntry,
      groupAddr, groupAddr, hgroup]
  · refine mapEntry_apart h hmap hq ?_
    simp only [groupAddr]
    omega

end

/-- The groups of the two maps do not meet. -/
theorem groups_apart {c : Cfg} (h : wfCfg c = true) {p q : Nat} (hp : p < 127) (hq : q < 60) :
    groupAddr c.pmapInBase p + 4 ≤ groupAddr c.pmapOutBase q ∨
      groupAddr c.pmapOutBase q + 4 ≤ groupAddr c.pmapInBase p := by
  obtain ⟨-, -, -, -, hmaps⟩ := wfCfg_disjoint h
  simp only [groupAddr]
  omega

/-- What an update stored, seen from the state it left. -/
theorem Updates.storedBytes {s t : State} {o : Host.Outcome State Fault Refusal} {a : Nat} {bytes : List Byte}
    (h : Updates s o a bytes) (ht : o = .next t) :
    StoredBytes s t a bytes (fun b => b = s.cfg.sysCsumPos) .system := by
  obtain ⟨u, hu, hstored, -⟩ := h
  rw [hu] at ht
  injection ht with ht
  exact ht ▸ hstored

/-- Settles O50: in the group stored the other lanes are kept, and every other group is apart from it. -/
theorem mapUpdateChangesOneEntry : Obligations.MapUpdateChangesOneEntry := by
  refine ⟨fun s base g u hu => ?place, fun ra rb i v s t h hk hi h1 h2 hv hv1 hv2 ht => ?incoming,
    fun ra rb i v s t h hk hi h1 h2 hv hv2 ht => ?outgoing⟩
  case place =>
    have hlane {l : Nat} (hl : l < 3) : mapEntry s base (3 * g + l) = getLane s.cfg.laneOrder u l := by
      rw [mapEntry_group s base g hl, hu]
    have hfirst : mapEntry s base (3 * g) = getLane s.cfg.laneOrder u 0 := hlane (l := 0) (by decide)
    rw [hfirst, hlane (l := 1) (by decide), hlane (l := 2) (by decide)]
    cases s.cfg.laneOrder with
    | lowFirst => exact ⟨rfl, fun _ => ⟨rfl, rfl⟩, nofun⟩
    | highFirst => exact ⟨rfl, nofun, fun _ => ⟨rfl, rfl⟩⟩
  case incoming =>
    have hst := (execPmiset_updates h hk hi h1 h2 hv hv1 hv2).storedBytes ht
    rw [hst.outside.cfg]
    exact ⟨mapEntry_written hst (by omega),
      fun q hq => mapEntry_of_ne hst (by omega) (inMap_placed h.cfg) (by omega),
      fun q hq => mapEntry_apart hst (outMap_placed h.cfg) hq (groups_apart h.cfg (by omega) hq).symm⟩
  case outgoing =>
    have hst := (execPmoset_updates h hk hi h1 h2 hv hv2).storedBytes ht
    rw [hst.outside.cfg]
    exact ⟨mapEntry_written hst hv2,
      fun q hq => mapEntry_of_ne hst hv2 (outMap_placed h.cfg) hq,
      fun q hq => mapEntry_apart hst (inMap_placed h.cfg) (by omega) (groups_apart h.cfg hq (by omega))⟩

/-! ### `PEDSET` (43_system.md R98, R100) -/

/-- The update of a pedal field. -/
theorem updates_pedal {s : State} (k : BitVec 2) (q : Quad) (h : Inv s) (hk : s.kind = .system) :
    Updates s (updateQuad s (pedalAddr s.cfg k) q) s.cfg.pedalOff[k.toFin] (quadBytes q) := by
  obtain ⟨-, -, -, hsum, -⟩ := wfCfg_disjoint h.cfg
  obtain ⟨-, hinside⟩ := wfCfg_pedal h.cfg k.toFin
  have hapart := hsum k.toFin
  refine updates_quad (a := s.cfg.pedalOff[k.toFin]) q h hk hinside ?_
  rintro ⟨h1, h2⟩
  omega

/-- Settles O52: the parameter id passes its check, a percentage is clamped. -/
theorem pedalWriteCompletes : Obligations.PedalWriteCompletes := by
  refine ⟨fun ra v s h hk hv hle => ?parameter, fun ra k s h hk hk0 => ?percentage⟩
  case parameter =>
    have hsv : sval (s.reg ra) = v := hv
    have hval : inRange v 0 Config.max28 = true := inRange_natCast.2 ⟨Nat.zero_le v, hle⟩
    have hpass : execPedset ra 0 s = updateQuad s (pedalAddr s.cfg 0) (enc28 v) := by
      rw [execPedset, hsv, if_neg (not_not.2 hk), if_pos rfl, if_pos hval, Int.toNat_natCast]
    show Updates s (execPedset ra 0 s) _ _
    rw [hpass]
    exact updates_pedal 0 (enc28 v) h hk
  case percentage =>
    have hpass : execPedset ra k s =
        updateQuad s (pedalAddr s.cfg k) (enc28 (max 0 (min (s.reg ra).toInt 100)).toNat) := by
      rw [execPedset, if_neg (not_not.2 hk), if_neg hk0, clamp_percentage]
      rfl
    show Updates s (execPedset ra k s) _ _
    rw [hpass]
    exact updates_pedal k _ h hk

/-! ### The checksum after an update (43_system.md R84) -/

/-- A system update that ends `ok` is the fifth way of `Ending`. -/
theorem Ending.update_of_ok {i : Instr} {s t : State} (h : Ending i s t) (hu : isSystemUpdate i = true)
    (hec : statusEc t.status = 0) :
    s.kind = .system ∧ ∃ m, (memoryWf s.mem = true → memoryWf m = true) ∧
      t = (sysfix (s.setMem m)).setStatus (statusOk s.status false) := by
  cases h with
  | failed c sc hc => exact absurd ((statusEc_err c sc).symm.trans hec) (errCode_ne_zero c)
  | regs ps a hp ha hw hu' => rw [hu] at hu'; cases hu'
  | raw m hw hb hm => rw [isSystemUpdate_of_isRawWrite hw] at hu; cases hu
  | length ra n hi hn => subst hi; cases hu
  | update m hu' hb hk hm => exact ⟨hk, m, hm, rfl⟩

/-- After `sysfix` the stored checksum is right: what `storedBytes_update` says when no table byte is stored. -/
theorem sysfix_sumRight {s : State} (hc : wfCfg s.cfg = true) (hk : s.kind = .system) (hm : memoryWf s.mem = true) :
    SystemSumRight ((sysfix s).setStatus (statusOk s.status false)) :=
  (storedBytes_update (s := s) (a := 0) (bytes := []) (m := s.mem) hc hk hm (fun h => absurd h.2 (Nat.not_lt_zero _))
    (fun _ hj => absurd hj (Nat.not_lt_zero _)) (fun _ _ => rfl)).2

theorem verifySum_eq_one {s : State} (h : SystemSumRight s) : verifySum s.mem (systemPayload s.cfg) = 1 := if_pos h

/-- `CSVS` of a latched dump completes. -/
theorem execCsvs_completes {s : State} (h : Inv s) (hk : s.kind = .system) (r : Reg) :
    ∃ t, execCsvs r s = .next t ∧ WroteRegs s t [(r, verifySum s.mem (systemPayload s.cfg))] false := by
  have hlen := h.table_lt_len hk
  obtain ⟨-, -, hhi, -⟩ := wfCfg_window h.cfg
  obtain ⟨-, hpos⟩ := wfCfg_sumByte h.cfg
  exact verifyCommand_wroteRegs r (Nat.lt_of_le_of_lt hhi hlen) (Nat.lt_of_le_of_lt hpos hlen)

/-- Settles O53: the update ended with `sysfix`, and the dump it leaves is still latched. -/
theorem updateLeavesChecksumRight : Obligations.UpdateLeavesChecksumRight := by
  intro i s t r h hu ht hec
  have hinv : Inv t := exec_inv h ht
  obtain ⟨hk, m, hm, rfl⟩ := (ending_of_isSystemUpdate hu ht).update_of_ok hu hec
  have hright := sysfix_sumRight (s := s.setMem m) h.cfg hk (hm h.buffer.mem)
  obtain ⟨u, hcsvs, hwrote⟩ := execCsvs_completes hinv hk r
  refine ⟨u, hcsvs, hwrote.ends, ?_⟩
  exact (hwrote.written _ (List.mem_singleton_self _)).trans (verifySum_eq_one hright)

/-! ### Update values outside their window (60_exceptions.md R110) -/

/-- A value that may be stored in a slot, read off its pattern (43_system.md R87). -/
theorem ccValueOk_sval {w : Word} : ccValueOk (sval w) = true ↔ w.toNat ≤ 127 ∨ w.toNat = 255 := by
  have h255 : sval w = 255 ↔ w.toNat = 255 := by
    rw [sval, BitVec.toInt_eq_toNat_cond]
    split <;> omega
  rw [ccValueOk, Bool.or_eq_true, inRange_sval_subValue, beq_iff_eq, h255]

/-- A mask bit's refusal is the failure of its operand's check. -/
theorem not_ccValueOk_eq {w : Word} {b : Bool} (h : b = true ↔ ¬ (w.toNat ≤ 127 ∨ w.toNat = 255)) :
    (!ccValueOk (sval w)) = b := by
  rw [Bool.eq_iff_iff, h, ← ccValueOk_sval, Bool.not_eq_true', Bool.not_eq_true]

/-- `CCSET` with a refused value; the sub-code names every refused operand (43_system.md R87). -/
theorem execCcset_refuses {ra rb rc : Reg} {s : State} {bc bp : Bool} (hk : s.kind = .system)
    (h0 : 0 ≤ sval (s.reg ra)) (h63 : sval (s.reg ra) ≤ 63)
    (hc : bc = true ↔ ¬ ((s.reg rb).toNat ≤ 127 ∨ (s.reg rb).toNat = 255))
    (hp : bp = true ↔ ¬ ((s.reg rc).toNat ≤ 127 ∨ (s.reg rc).toNat = 255)) (h : (bc || bp) = true) :
    TurnedAway s (execCcset ra rb rc s) .fieldRange (BitVec.ofNat 8 (2 * bc.toNat + 4 * bp.toNat)) := by
  have hfail : ¬ (ccValueOk (sval (s.reg rb)) && ccValueOk (sval (s.reg rc))) = true := by
    rw [Bool.not_eq_true, ← Bool.not_eq_true', Bool.not_and, not_ccValueOk_eq hc, not_ccValueOk_eq hp]
    exact h
  have hmask : subCode (maskBit (!ccValueOk (sval (s.reg rb))) 1 + maskBit (!ccValueOk (sval (s.reg rc))) 2)
      = BitVec.ofNat 8 (2 * bc.toNat + 4 * bp.toNat) := by
    rw [not_ccValueOk_eq hc, not_ccValueOk_eq hp, maskBit_eq, maskBit_eq, subCode]
    congr 1
    ring
  rw [execCcset, passed_latch_index hk ((inRange_eq_true _ _ _).2 ⟨h0, h63⟩), hmask]
  exact turnedAway_of_not hfail

/-- After the latch and the index, a value outside its window is turned away. -/
theorem turnedAway_value {s : State} {i v : Int} {lo hi lo' hi' : Nat} {o : Host.Outcome State Fault Refusal}
    (hk : s.kind = .system) (hlo : (lo : Int) ≤ i) (hhi : i ≤ hi) (h : v < lo' ∨ hi' < v) :
    TurnedAway s (if s.kind ≠ .system then raise s .state 2 else if inRange i lo hi then
      (if inRange v lo' hi' then o else raise s .fieldRange (subCode (maskBit true 1))) else raise s .index 0)
      .fieldRange 2 := by
  rw [passed_latch_index hk ((inRange_eq_true _ _ _).2 ⟨hlo, hhi⟩)]
  exact turnedAway_of_not (not_inRange_iff.2 h)

/-- Settles O58: the latch and the index pass, and the value check comes next. -/
theorem updateValuesOutsideWindowRefused : Obligations.UpdateValuesOutsideWindowRefused :=
  ⟨fun _ _ _ _ _ _ => execCcset_refuses, fun _ _ _ hk h1 h2 => turnedAway_value hk h1 h2,
    fun _ _ _ hk h1 h2 => turnedAway_value hk h1 h2⟩

end Sys2Proof.Machine

/-! Housekeeping (44_housekeeping.md): where the register loads, the reads and raw stores of the buffer and the write of
`LEN` complete, and what they write. -/

namespace Sys2Proof.Machine

/-! ### `NOP`, `LDI` and `RDCR` (44_housekeeping.md R101, R102, R105) -/

theorem execNop_completes (s : State) : ∃ t, execNop s = .next t ∧ WroteRegs s t [] false :=
  okFlag_setRegs_wroteRegs s (ps := []) false List.nodup_nil

/-- `RDCR` of a control register writes the value it holds before. -/
theorem exec_rdcr_completes {s : State} {crn : BitVec 3} {v : Word} (ra : Reg) (h : controlRegister s crn = some v) :
    ∃ t, exec (.rdcr ra crn) s = .next t ∧ WroteRegs s t [(ra, v)] false :=
  wroteRegs_of_eq_writeReg (by rw [exec, execRdcr, h])

/-- `KIND` as `RDCR` reads it (10_state.md R17). -/
theorem kindCode_setWidth (k : Kind) :
    (kindCode k).setWidth 32 = (match k with | .none => 0 | .preset => 1 | .system => 2 : Word) := by
  cases k <;> rfl

/-- A table of at most 255 entries has its length in the eight bits of `NFLD` (10_state.md R14). -/
theorem nfld_setWidth {n : Nat} (h : n ≤ 255) : (BitVec.ofNat 8 n).setWidth 32 = BitVec.ofNat 32 n := by
  have hn : n % 2 ^ 8 = n := Nat.mod_eq_of_lt (Nat.lt_succ_of_le h)
  rw [← BitVec.ofNat_toNat, BitVec.toNat_ofNat, hn]

/-- Settles O30: none of the three commands has a check that fails; each control register is read by its number. -/
theorem registerLoadsComplete : Obligations.RegisterLoadsComplete := by
  refine ⟨execNop_completes, fun ra v s => writeReg_wroteRegs s ra v, fun ra s => ?rdcr⟩
  case rdcr =>
    simp only [BitVec.ofNat_toNat]
    exact ⟨exec_rdcr_completes ra rfl, exec_rdcr_completes ra rfl,
      exec_rdcr_completes ra (congrArg some (kindCode_setWidth s.kind)), exec_rdcr_completes ra rfl,
      exec_rdcr_completes ra rfl, exec_rdcr_completes ra rfl,
      fun hnf => exec_rdcr_completes ra (congrArg some (nfld_setWidth hnf))⟩

/-! ### `LDB`, `DEC28` and `DECSO` (44_housekeeping.md R103, 40_varint.md R54, R56) -/

/-- An access from an immediate address on that ends inside the valid region. -/
theorem admits_addrOf {s : State} {off : BitVec 10} {n : Nat} (h : off.toNat + n ≤ s.len.toNat) :
    s.admits (addrOf off) n = true :=
  State.admits_eq_true.2 (.inr h)

theorem execLdb_completes {off : BitVec 10} {s : State} (ra : Reg) (h : off.toNat + 1 ≤ s.len.toNat) :
    ∃ t, execLdb ra off s = .next t ∧
      WroteRegs s t [(ra, BitVec.ofNat 32 (readCell s.mem off.toNat).toNat)] false := by
  rw [BitVec.ofNat_toNat]
  exact wroteRegs_of_eq_writeReg (if_pos (admits_addrOf h))

theorem execDec28_completes {off : BitVec 10} {s : State} (ra : Reg) (h : off.toNat + 4 ≤ s.len.toNat) :
    ∃ t, execDec28 ra off s = .next t ∧
      WroteRegs s t [(ra, BitVec.ofNat 32 (dec28 (readQuad s.mem off.toNat)))] false := by
  rw [← BitVec.ofInt_natCast]
  exact wroteRegs_of_eq_writeReg (if_pos (admits_addrOf h))

/-- A signed-offset field whose declared minimum is a register's value is a 32-bit integer, so its pattern reads back
as the field's value. -/
theorem sval_patternOf_decSO (q : Quad) (w : Word) (mx : Int) :
    sval (patternOf (decSO (dec28 q) w.toInt mx)) = decSO (dec28 q) w.toInt mx := by
  have hlo := w.le_toInt
  have hhi := w.toInt_lt
  have hfield := decSO_bounds_or_eq_min (dec28_le q) w.toInt mx
  exact sval_patternOf (by omega) (by omega)

theorem execDecso_completes {off : BitVec 10} {s : State} (ra rb rc : Reg) (h : off.toNat + 4 ≤ s.len.toNat) :
    ∃ t, execDecso ra rb rc off s = .next t ∧
      WroteRegs s t
        [(ra, patternOf (decSO (dec28 (readQuad s.mem off.toNat)) (s.reg rb).toInt (s.reg rc).toInt))] false :=
  wroteRegs_of_eq_writeReg (if_pos (admits_addrOf h))

/-- Settles O31: the bounds check of each command passes; the operands of `DECSO` are read before its register is
written. -/
theorem bufferReadsComplete : Obligations.BufferReadsComplete := by
  refine ⟨fun ra _ _ => execLdb_completes ra, fun ra _ _ => execDec28_completes ra, fun ra rb rc off s h => ?decso⟩
  case decso =>
    obtain ⟨t, ht, hwrote⟩ := execDecso_completes ra rb rc h
    have hreg := hwrote.written _ (List.mem_singleton_self _)
    refine ⟨t, ht, ?_, ?_⟩
    · rw [hreg, sval_patternOf_decSO]
    · rwa [hreg]

/-! ### `STB`, `ENC28`, `ENCSO` and `PK3` (44_housekeeping.md R104, 40_varint.md R55, R57, 43_system.md R91) -/

/-- A pattern that is not negative read signed has the same value read unsigned. -/
theorem sval_toNat_of_nonneg {w : Word} (h : 0 ≤ sval w) : (sval w).toNat = w.toNat := by
  have hcases : sval w = if 2 * w.toNat < 2 ^ 32 then (w.toNat : Int) else w.toNat - 2 ^ 32 :=
    BitVec.toInt_eq_toNat_cond w
  split at hcases <;> omega

theorem sval_toNat_of_le {w : Word} (h : w.toNat ≤ 127) : (sval w).toNat = w.toNat :=
  sval_toNat_of_nonneg ((inRange_eq_true _ _ _).1 (inRange_sval_subValue.2 h)).1

/-- A raw store of one byte inside the valid region. -/
theorem rawWrite_writeCell_storedBytes {s : State} {a : Nat} (b : Byte) (hs : BufferLegal s) (h : a < s.len.toNat) :
    ∃ t, ok (s.rawWrite (writeCell s.mem a b)) = .next t ∧ StoredBytes s t a [b] (fun _ => False) .none := by
  refine ⟨_, rfl, storedBytes_rawWrite ?stored ?others⟩
  case stored =>
    intro j hj
    obtain rfl : j = 0 := Nat.lt_one_iff.1 hj
    exact readCell_writeCell_self hs.mem (Nat.lt_of_lt_of_le h hs.len) b
  case others =>
    intro c hc
    exact readCell_writeCell_of_ne hs.mem b fun hca => hc ⟨hca.ge, by simp [hca]⟩

theorem execStb_completes {ra : Reg} {off : BitVec 10} {s : State} (hs : BufferLegal s) (h0 : 0 ≤ sval (s.reg ra))
    (h255 : sval (s.reg ra) ≤ 255) (h : off.toNat + 1 ≤ s.len.toNat) :
    ∃ t, execStb ra off s = .next t ∧
      StoredBytes s t off.toNat [BitVec.ofNat 8 (s.reg ra).toNat] (fun _ => False) .none := by
  rw [execStb, if_pos ((inRange_eq_true _ _ _).2 ⟨h0, h255⟩), if_pos (admits_addrOf h), sval_toNat_of_nonneg h0]
  exact rawWrite_writeCell_storedBytes _ hs h

theorem execEnc28_completes {ra : Reg} {off : BitVec 10} {s : State} (hs : BufferLegal s) (h0 : 0 ≤ sval (s.reg ra))
    (hmax : sval (s.reg ra) ≤ Config.max28) (h : off.toNat + 4 ≤ s.len.toNat) :
    ∃ t, execEnc28 ra off s = .next t ∧
      StoredBytes s t off.toNat (quadBytes (enc28 (s.reg ra).toNat)) (fun _ => False) .none := by
  rw [execEnc28, if_pos ((inRange_eq_true _ _ _).2 ⟨h0, hmax⟩), sval_toNat_of_nonneg h0]
  exact rawWriteQuad_storedBytes _ hs h

theorem execEncso_completes {ra : Reg} {off : BitVec 10} {s : State} (hs : BufferLegal s)
    (hmin : -16777216 ≤ sval (s.reg ra)) (hmax : sval (s.reg ra) ≤ 251658239) (h : off.toNat + 4 ≤ s.len.toNat) :
    ∃ t, execEncso ra off s = .next t ∧
      StoredBytes s t off.toNat (quadBytes (encSO (sval (s.reg ra)))) (fun _ => False) .none := by
  rw [execEncso, if_pos (inRange_rawSO.2 ⟨hmin, hmax⟩)]
  exact rawWriteQuad_storedBytes _ hs h

theorem execPk3_completes {ra rb rc : Reg} {off : BitVec 10} {s : State} (hs : BufferLegal s)
    (ha : (s.reg ra).toNat ≤ 127) (hb : (s.reg rb).toNat ≤ 127) (hc : (s.reg rc).toNat ≤ 127)
    (h : off.toNat + 4 ≤ s.len.toNat) :
    ∃ t, execPk3 ra rb rc off s = .next t ∧
      StoredBytes s t off.toNat (quadBytes (pack3 ⟨(s.reg ra).toNat, (s.reg rb).toNat, (s.reg rc).toNat⟩))
        (fun _ => False) .none := by
  have hmask : packMask (sval (s.reg ra)) (sval (s.reg rb)) (sval (s.reg rc)) = 0 :=
    packMask_eq_zero (inRange_sval_subValue.2 ha) (inRange_sval_subValue.2 hb) (inRange_sval_subValue.2 hc)
  rw [execPk3, if_pos hmask, sval_toNat_of_le ha, sval_toNat_of_le hb, sval_toNat_of_le hc]
  exact rawWriteQuad_storedBytes _ hs h

/-- Settles O34: the operand check and the bounds check of each command pass, and it stores its bytes raw. -/
theorem rawStoresComplete : Obligations.RawStoresComplete :=
  ⟨fun _ _ _ => execStb_completes, fun _ _ _ => execEnc28_completes, fun _ _ _ => execEncso_completes,
    fun _ _ _ _ _ => execPk3_completes⟩

/-! ### `WRCR LEN` (44_housekeeping.md R106) -/

theorem execWrcr_of_inRange {ra : Reg} {s : State} (h0 : 0 ≤ (s.reg ra).toInt) (h528 : (s.reg ra).toInt ≤ 528) :
    execWrcr ra s = ok ((s.setLen (s.reg ra).toInt.toNat).setKind .none) :=
  if_pos ((inRange_eq_true _ _ _).2 ⟨h0, h528⟩)

/-- `LEN` takes every value its ten bits hold (10_state.md R16). -/
theorem setLen_len_toNat (s : State) {n : Nat} (h : n < 1024) : (s.setLen n).len.toNat = n :=
  (BitVec.toNat_ofNat _ _).trans (Nat.mod_eq_of_lt h)

/-- Settles O36: the operand check passes, and a value up to 528 fits the ten bits of `LEN`. -/
theorem writeLengthCompletes : Obligations.WriteLengthCompletes := by
  intro ra s h0 h528
  refine ⟨_, execWrcr_of_inRange h0 h528, endsOk_setStatus s _ false rfl, ?_, rfl, fun _ _ => rfl, fun _ => rfl,
    ⟨rfl, rfl, rfl, rfl, rfl⟩, ⟨rfl, rfl⟩⟩
  have hlen := setLen_len_toNat s (n := (s.reg ra).toInt.toNat) (by omega)
  exact (congrArg Nat.cast hlen).trans (Int.toNat_of_nonneg h0)

end Sys2Proof.Machine

/-! Exceptions (60_exceptions.md): how every command ends and with which class, what a failed one leaves, the sticky
flag, and the commands turned away for want of a validated message. -/

namespace Sys2Proof.Machine

/-! ### `ok` or an error class (60_exceptions.md R114, R116) -/

/-- The command ended `ok`, or with a class its row of 60_exceptions.md R114 admits, up to what `ErrClass.within` adds. -/
def Ends (i : Instr) (s t : State) : Prop :=
  (∃ a, EndsOk s t a) ∨ ∃ c sc, c.within i ∧ EndsErr t c sc

theorem Ending.ends {i : Instr} {s t : State} (h : Ending i s t) : Ends i s t := by
  cases h with
  | failed c sc hc => exact .inr ⟨c, sc, hc, endsErr_setStatus s c sc⟩
  | regs ps a hp ha hw hu =>
    have hst : (s.setRegs ps).status = s.status := s.setRegs_status ps
    exact .inl ⟨a, hst ▸ endsOk_setStatus s (s.setRegs ps) a hst⟩
  | raw m hw hb hm => exact .inl ⟨false, endsOk_setStatus s (s.rawWrite m) false rfl⟩
  | length ra n hi hn => exact .inl ⟨false, endsOk_setStatus s ((s.setLen n).setKind .none) false rfl⟩
  | update m hu hb hk hm => exact .inl ⟨false, endsOk_setStatus s (sysfix (s.setMem m)) false rfl⟩

theorem execPdec_ends {s t : State} (h : execPdec s = .next t) : Ends .pdec s t := by
  rcases execPdec_next h with ⟨sc, -, rfl⟩ | ⟨-, -, rfl⟩ | ⟨viol, -, rfl⟩
  · exact .inr ⟨.structural, sc, .inl rfl, endsErr_setStatus ..⟩
  · exact .inl ⟨false, endsOk_setStatus s (acceptPreset s) false rfl⟩
  · exact .inr ⟨.fieldRange, 0, .inl rfl, endsErr_setStatus ..⟩

theorem execSdec_ends {s t : State} (h : execSdec s = .next t) : Ends .sdec s t := by
  rcases execSdec_next h with ⟨sc, rfl⟩ | ⟨-, rfl⟩
  · exact .inr ⟨.structural, sc, .inl rfl, endsErr_setStatus ..⟩
  · exact .inl ⟨false, endsOk_setStatus s (s.setKind .system) false rfl⟩

theorem State.resetUnit_statusEc (s : State) : statusEc s.resetUnit.status = 0 := by
  rw [s.resetUnit_status]
  decide
theorem State.resetUnit_statusStk (s : State) : statusStk s.resetUnit.status = false := by
  rw [s.resetUnit_status]
  decide

/-- `SRST` leaves the reset state; every other command ends `ok` or with a class. -/
theorem exec_ends {i : Instr} {s t : State} (h : exec i s = .next t) :
    (i = .srst ∧ t = s.resetUnit) ∨ (i ≠ .srst ∧ Ends i s t) := by
  by_cases hi : i = .srst
  · subst hi
    have hreset : Host.Outcome.next s.resetUnit = .next t := (execSrst_eq s).symm.trans h
    injection hreset with hreset
    exact .inl ⟨rfl, hreset.symm⟩
  · refine .inr ⟨hi, ?_⟩
    rcases exec_cases h with ⟨rfl, hp⟩ | ⟨rfl, hs⟩ | ⟨hsrst, -⟩ | he
    · exact execPdec_ends hp
    · exact execSdec_ends hs
    · exact absurd hsrst hi
    · exact he.ends

/-- Settles O10: every command has a next state, and `exec_ends` says how it ended there. -/
theorem everyCommandCompletes : Obligations.EveryCommandCompletes := by
  intro i s
  obtain ⟨t, ht⟩ := completes_exec i s
  refine ⟨t, ht, ?_⟩
  rcases exec_ends ht with ⟨hi, rfl⟩ | ⟨hi, hok | ⟨c, sc, -, herr⟩⟩
  · exact .inr (.inl ⟨hi, s.resetUnit_status⟩)
  · exact .inl ⟨hi, hok⟩
  · exact .inr (.inr ⟨hi, c, sc, herr⟩)

/-! ### What a failed command leaves (60_exceptions.md R112) -/

theorem failedOnly_setStatus (s : State) (c : ErrClass) (sc : BitVec 8) :
    FailedOnly s (s.setStatus (statusErr c sc)) c sc := by
  obtain ⟨t, ht, hfailed⟩ := raise_failedOnly s c sc
  injection ht with ht
  exact ht ▸ hfailed

theorem exec_failedOnly {i : Instr} {s t : State} (h1 : i ≠ .pdec) (h2 : i ≠ .sdec) (h : exec i s = .next t)
    (hec : statusEc t.status ≠ 0) : ∃ c sc, FailedOnly s t c sc := by
  rcases exec_cases h with ⟨hi, -⟩ | ⟨hi, -⟩ | ⟨-, rfl⟩ | he
  · exact absurd hi h1
  · exact absurd hi h2
  · exact absurd s.resetUnit_statusEc hec
  · obtain ⟨c, sc, rfl⟩ := he.eq_of_ec_ne_zero hec
    exact ⟨c, sc, failedOnly_setStatus s c sc⟩

/-- A structural failure of `PDEC` clears the latch and the count of violations (42_preset.md R75). -/
theorem execPdec_structural {s t : State} (h : execPdec s = .next t)
    (hec : statusEc t.status = errCode .structural) :
    ∃ sc, t = ((s.setKind .none).setNviol 0).setStatus (statusErr .structural sc) := by
  rcases execPdec_next h with ⟨sc, -, rfl⟩ | ⟨-, -, rfl⟩ | ⟨viol, -, rfl⟩
  · exact ⟨sc, rfl⟩
  · exact absurd (hec.symm.trans (statusEc_ok _ _)) (errCode_ne_zero _)
  · exact absurd (errCode_injective ((statusEc_err _ _).symm.trans hec)) (by decide)

/-- A field-range failure of `PDEC` is the one that leaves what it extracted (42_preset.md R75). -/
theorem execPdec_fieldRange {s t : State} (h : execPdec s = .next t)
    (hec : statusEc t.status = errCode .fieldRange) :
    ∃ viol, t = (rejectPreset s viol).setStatus (statusErr .fieldRange 0) := by
  rcases execPdec_next h with ⟨sc, -, rfl⟩ | ⟨-, -, rfl⟩ | ⟨viol, -, rfl⟩
  · exact absurd (errCode_injective ((statusEc_err _ _).symm.trans hec)) (by decide)
  · exact absurd (hec.symm.trans (statusEc_ok _ _)) (errCode_ne_zero _)
  · exact ⟨viol, rfl⟩

/-- A failure of `SDEC` clears the latch (43_system.md R82). -/
theorem execSdec_failed {s t : State} (h : execSdec s = .next t) (hec : statusEc t.status ≠ 0) :
    ∃ sc, t = (s.setKind .none).setStatus (statusErr .structural sc) := by
  rcases execSdec_next h with hfail | ⟨-, rfl⟩
  · exact hfail
  · exact absurd (statusEc_ok _ _) hec

/-- Settles O14: the class tells which of its failures a decoder ended in, and every other command has only one. -/
theorem failedCommandsLeaveStateAlone : Obligations.FailedCommandsLeaveStateAlone := by
  refine ⟨fun i s t h1 h2 => exec_failedOnly h1 h2, fun s t h hec => ?structural, fun s t h hec => ?fieldRange,
    fun s t h hec => ?system⟩
  case structural =>
    obtain ⟨sc, rfl⟩ := execPdec_structural h hec
    exact ⟨rfl, rfl, rfl, rfl, rfl, rfl, rfl, fun _ _ => rfl, fun _ => rfl, rfl, rfl⟩
  case fieldRange =>
    obtain ⟨viol, rfl⟩ := execPdec_fieldRange h hec
    exact ⟨rfl, rfl, fun _ _ => rfl, fun _ => rfl, rfl, rfl⟩
  case system =>
    obtain ⟨sc, rfl⟩ := execSdec_failed h hec
    exact ⟨⟨sc, endsErr_setStatus ..⟩, rfl, rfl, ⟨rfl, rfl, rfl, rfl, rfl⟩, fun _ _ => rfl, fun _ => rfl, rfl, rfl⟩

/-! ### A table command stays inside the message (20_memory.md R27) -/

/-- The command does not end `BOUNDS`. -/
def NeverBounds (o : Host.Outcome State Fault Refusal) : Prop :=
  ∀ t, o = .next t → statusEc t.status ≠ errCode .bounds

theorem neverBounds_ok (s : State) : NeverBounds (ok s) := by
  intro t h
  injection h with h
  subst h
  rw [State.setStatus_status, statusEc_ok]
  exact (errCode_ne_zero _).symm

theorem neverBounds_raise (s : State) {c : ErrClass} (sc : BitVec 8) (hc : c ≠ .bounds) :
    NeverBounds (raise s c sc) := by
  intro t h
  injection h with h
  subst h
  rw [State.setStatus_status, statusEc_err]
  exact fun he => hc (errCode_injective he)

/-- What a check has established may be used for the answer it guards. -/
theorem neverBounds_ite {p : Prop} [Decidable p] {o o' : Host.Outcome State Fault Refusal} (ho : p → NeverBounds o)
    (ho' : ¬ p → NeverBounds o') : NeverBounds (if p then o else o') := by
  split
  next h => exact ho h
  next h => exact ho' h

/-- The commands look at the latch first, so an update runs on a latched dump. -/
theorem neverBounds_latched {s : State} {o : Host.Outcome State Fault Refusal} (ho : s.kind = .system → NeverBounds o) :
    NeverBounds (if s.kind ≠ .system then raise s .state 2 else o) :=
  neverBounds_ite (fun _ => neverBounds_raise s 2 (by decide)) fun hk => ho (not_not.1 hk)

/-- `CCSET` stores without asking: `KIND = SYSTEM` already says that the slot is in the message. -/
theorem neverBounds_execCcset (ra rb rc : Reg) (s : State) : NeverBounds (execCcset ra rb rc s) :=
  neverBounds_latched fun _ => neverBounds_ite
    (fun _ => neverBounds_ite (fun _ => neverBounds_ok _) fun _ => neverBounds_raise s _ (by decide))
    fun _ => neverBounds_raise s 0 (by decide)

theorem inPosition_lt {i : Int} (hi : inRange i 1 Config.pmapInCount = true) : inPosition i < 3 * 43 := by
  rw [inRange_eq_true] at hi
  simp only [inPosition, Config.pmapInCount] at *
  omega

theorem outPosition_lt {i : Int} (hi : inRange i Config.presetMin Config.presetMax = true) :
    outPosition i < 3 * 20 := by
  rw [inRange_eq_true] at hi
  simp only [outPosition, Config.presetMin, Config.presetMax] at *
  omega

section
variable {s : State} (h : Inv s)
include h

/-- Four bytes of a table lie in the valid region of a latched dump. -/
theorem neverBounds_updateQuad (hk : s.kind = .system) {a : Nat} (q : Quad) (ha : a + 3 ≤ 524) :
    NeverBounds (updateQuad s a q) := by
  have hlen := h.table_lt_len hk
  rw [updateQuad, if_pos (State.admits_eq_true.2 (.inr (by omega)))]
  exact neverBounds_ok _

theorem neverBounds_mapUpdate (hk : s.kind = .system) {base n q : Nat} (v : Nat) (hmap : MapPlaced s.cfg base n)
    (hq : q < 3 * n) : NeverBounds (mapUpdate s base q v) := by
  have hinside := hmap.inside
  exact neverBounds_updateQuad h hk _ (by simp only [groupAddr]; omega)

theorem neverBounds_pedalUpdate (hk : s.kind = .system) (k : BitVec 2) (q : Quad) :
    NeverBounds (updateQuad s (pedalAddr s.cfg k) q) := by
  obtain ⟨-, hinside⟩ := wfCfg_pedal h.cfg k.toFin
  exact neverBounds_updateQuad h hk q hinside

/-- After the latch, the index and the value of a map update. -/
theorem neverBounds_mapCommand {i v : Int} {lo hi lo' hi' base n q w : Nat} (hmap : MapPlaced s.cfg base n)
    (hq : inRange i lo hi = true → q < 3 * n) :
    NeverBounds (if s.kind ≠ .system then raise s .state 2 else if inRange i lo hi then
      (if inRange v lo' hi' then mapUpdate s base q w else raise s .fieldRange (subCode (maskBit true 1)))
      else raise s .index 0) :=
  neverBounds_latched fun hk => neverBounds_ite
    (fun hi => neverBounds_ite (fun _ => neverBounds_mapUpdate h hk w hmap (hq hi))
      fun _ => neverBounds_raise s _ (by decide))
    fun _ => neverBounds_raise s 0 (by decide)

theorem neverBounds_execPedset (ra : Reg) (k : BitVec 2) : NeverBounds (execPedset ra k s) :=
  neverBounds_latched fun hk => neverBounds_ite
    (fun _ => neverBounds_ite (fun _ => neverBounds_pedalUpdate h hk k _) fun _ => neverBounds_raise s 1 (by decide))
    fun _ => neverBounds_pedalUpdate h hk k _

theorem neverBounds_systemUpdate {i : Instr} (hu : isSystemUpdate i = true) : NeverBounds (exec i s) := by
  match i, hu with
  | .ccset ra rb rc, _ => exact neverBounds_execCcset ra rb rc s
  | .pmiset ra rb, _ => exact neverBounds_mapCommand h (inMap_placed h.cfg) inPosition_lt
  | .pmoset ra rb, _ => exact neverBounds_mapCommand h (outMap_placed h.cfg) outPosition_lt
  | .pedset ra k, _ => exact neverBounds_execPedset h ra k

end

/-- Settles O15: of what `ErrClass.within` adds to the table, `ILLEGAL` needs an ill-formed term and `BOUNDS` a
system update past the message. -/
theorem errorClassTable : Obligations.ErrorClassTable := by
  intro i s t hinv hwf h
  rcases exec_ends h with ⟨-, rfl⟩ | ⟨-, ⟨a, hok⟩ | ⟨c, sc, hrow | ⟨-, hill⟩ | ⟨rfl, hu⟩, herr⟩⟩
  · exact .inl s.resetUnit_statusEc
  · exact .inl hok.ec
  · exact .inr ⟨c, hrow, herr.ec⟩
  · rw [hwf] at hill
    cases hill
  · exact absurd herr.ec (neverBounds_systemUpdate hinv hu t h)

/-! ### The sticky flag (60_exceptions.md R118) -/

theorem exec_stk_of_failed {i : Instr} {s t : State} (h : exec i s = .next t) (hec : statusEc t.status ≠ 0) :
    statusStk t.status = true := by
  rcases exec_ends h with ⟨-, rfl⟩ | ⟨-, ⟨a, hok⟩ | ⟨c, sc, -, herr⟩⟩
  · exact absurd s.resetUnit_statusEc hec
  · exact absurd hok.ec hec
  · exact herr.stk

theorem exec_stk_of_ok {i : Instr} {s t : State} (h : exec i s = .next t) (hec : statusEc t.status = 0)
    (hi : i ≠ .srst) : statusStk t.status = statusStk s.status := by
  rcases exec_ends h with ⟨hsrst, -⟩ | ⟨-, ⟨a, hok⟩ | ⟨c, sc, -, herr⟩⟩
  · exact absurd hsrst hi
  · exact hok.stk
  · exact absurd (herr.ec.symm.trans hec) (errCode_ne_zero c)

/-- A command other than `SRST` sets `STK` or leaves it, by whether it failed. -/
theorem exec_stk_stays {i : Instr} {s t : State} (h : exec i s = .next t) (hi : i ≠ .srst)
    (hstk : statusStk s.status = true) : statusStk t.status = true := by
  by_cases hec : statusEc t.status = 0
  · exact (exec_stk_of_ok h hec hi).trans hstk
  · exact exec_stk_of_failed h hec

theorem stk_of_reset {s t : State} (h : Host.Outcome.next s.resetUnit = (.next t : Host.Outcome State Fault Refusal)) :
    statusStk t.status = false := by
  injection h with h
  exact h ▸ s.resetUnit_statusStk

/-- Settles O21: a command that ends `ok` keeps `STK`, one that fails sets it, and both resets leave 0. -/
theorem stickyErrorRule : Obligations.StickyErrorRule :=
  ⟨fun _ _ _ => exec_stk_of_failed, fun _ _ _ => exec_stk_stays, fun _ _ _ => exec_stk_of_ok,
    fun s _ h => stk_of_reset ((execSrst_eq s).symm.trans h), fun _ _ h => stk_of_reset h⟩

/-! ### Commands that need a validated message (60_exceptions.md R110, R113) -/

/-- The check of the latch comes first, whatever the command goes on to do. -/
theorem turnedAway_latch {s : State} (hk : s.kind ≠ .system) (o : Host.Outcome State Fault Refusal) :
    TurnedAway s (if s.kind ≠ .system then raise s .state 2 else o) .state 2 :=
  .of_passed hk (raise_failedOnly s .state 2)

/-- `CCGET` with two destinations; the operand reading of an `ILLEGAL` word is looked at before the latch (log 7). -/
theorem execCcget_turnedAway {ra rb : Reg} (rc : Reg) {s : State} (hk : s.kind ≠ .system) (hab : ra ≠ rb) :
    TurnedAway s (execCcget ra rb rc s) .state 2 := by
  rw [execCcget, if_neg hab]
  exact turnedAway_latch hk _

/-- Settles O56: the latch is the first thing each of the commands looks at. -/
theorem missingLatchRefused : Obligations.MissingLatchRefused := by
  refine ⟨fun ra fid s hk => ?preset, fun ra rb rc k s hk => ?system⟩
  case preset => exact ⟨turnedAway_of_not hk, turnedAway_of_not hk⟩
  case system =>
    exact ⟨turnedAway_of_not hk, execCcget_turnedAway rc hk, turnedAway_latch hk _, turnedAway_latch hk _,
      turnedAway_latch hk _, turnedAway_latch hk _, turnedAway_latch hk _, turnedAway_latch hk _,
      turnedAway_latch hk _⟩

end Sys2Proof.Machine

/-! Reset and hazards (70_reset_and_hazards.md): the host's writes, its read, and a host with nothing more to do. -/

namespace Sys2Proof.Machine

/-! ### A step takes the host's next action (70_reset_and_hazards.md R126, R127) -/

theorem step_of_host_cons {s : State} {a : HostAction} {rest : List HostAction} (hc : wfCfg s.cfg = true)
    (hh : s.host = a :: rest) : step s = performAction a (s.setHost rest) :=
  (step_of_wfCfg hc).trans (runHost_cons hh)

theorem step_of_host_nil {s : State} (hc : wfCfg s.cfg = true) (hh : s.host = []) : step s = .next s :=
  (step_of_wfCfg hc).trans (runHost_nil hh)

/-! ### The host's writes (70_reset_and_hazards.md R126) -/

/-- `HostWriteBuf` is not checked against `LEN`: every one of the 528 cells can be written. -/
theorem hostWriteBuf_self {s : State} (hm : memoryWf s.mem = true) (a : Fin 528) (b : Byte) :
    readCell (hostWriteBuf a b s).mem a = b :=
  readCell_writeCell_self hm a.isLt b

theorem hostWriteBuf_cellsKept {s : State} (hm : memoryWf s.mem = true) (a : Fin 528) (b : Byte) :
    CellsKept s (hostWriteBuf a b s) (fun c => c = a) :=
  fun _ hne => readCell_writeCell_of_ne hm b hne

theorem hostWriteLen_toNat (n : Fin 529) (s : State) : (hostWriteLen n s).len.toNat = n :=
  setLen_len_toNat s (by omega)

theorem hostWriteReg_regsKept (i : Reg) (v : Word) (s : State) : RegsKept s (hostWriteReg i v s) [i] :=
  fun r hr => State.setReg_reg_of_ne s i r v (List.ne_of_not_mem_cons hr)

/-- Settles O7: each write is performed on the state with the action taken off the host's list, and is one update of
the cell, of `LEN` or of the register; everything else is what that update leaves unchanged. -/
theorem hostWritesDoWhatTheySay : Obligations.HostWritesDoWhatTheySay := by
  refine ⟨fun s a b rest hc hs hh => ?buf, fun s n rest hc hh => ?len, fun s i v rest hc hh => ?reg⟩
  case buf =>
    exact ⟨hostWriteBuf a b (s.setHost rest), step_of_host_cons hc hh, hostWriteBuf_self hs.mem a b,
      hostWriteBuf_cellsKept (s := s.setHost rest) hs.mem a b, rfl, rfl, rfl, fun _ _ => rfl,
      ⟨rfl, rfl, rfl, rfl, rfl⟩, rfl, rfl⟩
  case len =>
    exact ⟨hostWriteLen n (s.setHost rest), step_of_host_cons hc hh, hostWriteLen_toNat n _, rfl, fun _ => rfl, rfl,
      fun _ _ => rfl, ⟨rfl, rfl, rfl, rfl, rfl⟩, rfl, rfl⟩
  case reg =>
    exact ⟨hostWriteReg i v (s.setHost rest), step_of_host_cons hc hh, State.setReg_reg_self _ i v,
      hostWriteReg_regsKept i v (s.setHost rest), fun _ => rfl, ⟨rfl, rfl⟩, rfl, ⟨rfl, rfl, rfl, rfl, rfl⟩, rfl, rfl⟩

/-! ### Reading and idling (70_reset_and_hazards.md R126, R127) -/

/-- Settles O8: `HostRead` gives back the state it is performed on, and with no action left none is performed. -/
theorem readingAndIdlingChangeNothing : Obligations.ReadingAndIdlingChangeNothing :=
  ⟨fun _ _ => step_of_host_cons, fun _ => step_of_host_nil⟩

end Sys2Proof.Machine

/-! Worked encodings (30_encoding.md section 6). -/

namespace Sys2Proof

/-- A worked encoding is checked by putting the command's word together (R41, R42) and comparing. -/
theorem decode_of_encode_eq {w : CommandWord} {i : Instr} (he : encode i = w) (hwf : i.wf = true) :
    decode w = .ok i :=
  he ▸ decodeInvertsEncode i hwf

/-- Settles O4: the spec's word is the encoding of the command beside it, which is well formed. -/
theorem specWordsDecode : Obligations.SpecWordsDecode :=
  ⟨decode_of_encode_eq (by decide) rfl,
    decode_of_encode_eq (by decide) rfl,
    decode_of_encode_eq (by decide) rfl,
    decode_of_encode_eq (by decide) rfl,
    decode_of_encode_eq (by decide) rfl⟩

end Sys2Proof
